-- ==== Sys2Proof/Word.lean ====
section
/-! DEFINITION. The plainest types of the model: a byte, the names of the two units and of the four memories. -/

namespace Sys2Proof

/-- An 8-bit unsigned intensity, 0 to 255: a pixel, a run's value, a command word, a status word (R10, R24, R102, R103). -/
abbrev Byte := BitVec 8

/-- The two units of the hardware (R1). -/
inductive UnitId where
  | enc
  | dec
deriving DecidableEq, Repr

/-- The four memories, two per unit (R61, R70). -/
inductive MemId where
  | pixmem
  | erun
  | drun
  | outmem
deriving DecidableEq, Repr

end Sys2Proof
end

