-- ==== Sys2Proof/Config.lean ====
section
/-! DEFINITION. What is fixed for one piece of hardware (the parameter DIM_W and the widths derived from it: R11, R12) and
the free values: what the spec leaves without a value (93 U2, U4, U5, U8). A free value has no body, so a claim about it
holds whatever the value is. -/

namespace Sys2Proof

/-- The one parameter of the hardware, `DIM_W`, with `1 ≤ DIM_W` (R11, R13): `DIM_W = 0` cannot be built (93 U13). -/
structure Param where
  dimW : Nat
  pos : 1 ≤ dimW
deriving DecidableEq, Repr

namespace Param

/-- `DIM_W` from a number, refused at the boundary when it is 0 (93 U13). -/
def ofNat? (n : Nat) : Option Param :=
  if h : 1 ≤ n then some ⟨n, h⟩ else none

/-- `LEN_W = 2 · DIM_W`: the width of lengths, indices, counts and capacities (R12). -/
def lenW (p : Param) : Nat := 2 * p.dimW

/-- `RUN_W = LEN_W + 8`: the width of a run word (R12, R100). -/
def runW (p : Param) : Nat := p.lenW + 8

/-- `DEPTH = 2^LEN_W`: the number of entries of each memory (R12, R71). -/
def depth (p : Param) : Nat := 2 ^ p.lenW

end Param

namespace Config

/-- `DIM_W = 16`, "the default for test vectors" (R11). DESIGN CHOICE: `State.reset` is the machine with this parameter
(notes/assumptions/1.md); every claim is about every parameter. -/
def defaultParam : Param := ⟨16, by decide⟩

/-- FREE VALUE (93 U4, U5, U8; notes/assumptions/7.md): what the `n`-th HOST read that the spec leaves unspecified returns,
before it is cut to the width of what is read. -/
opaque unspecifiedRead : Nat → Nat

/-- FREE VALUE (93 U2; notes/assumptions/5.md, 6.md): what an entry of `PIXMEM` or `OUTMEM` that nothing has written since the
latest Reset holds: a function of the memory, the number of Resets, the index and what the entry held before that Reset. -/
opaque unwrittenPixel : MemId → Nat → Nat → Option Byte → Byte

/-- FREE VALUE (93 U2; notes/assumptions/5.md, 6.md): the same for `ERUN` and `DRUN`, before it is cut to `RUN_W` bits. -/
opaque unwrittenRunWord : MemId → Nat → Nat → Option Nat → Nat

end Config

end Sys2Proof
end

