-- ==== Sys2Proof/Syntax.lean ====
section
/-! DEFINITION. The operations of the hardware, whole: one constructor of `Instr` for each mnemonic of spec/opcode_table.json
(R111), the words they are decoded from, the HOST's transactions (R20) and the turns of the three agents (R22). -/

namespace Sys2Proof

/-- The operations of the hardware (R111). The seven rows of `ENC.RSVD`, and those of `DEC.RSVD`, are one operation each, with
the command code as its operand. Operands that are registers or memory entries are read by the meaning. -/
inductive Instr where
  /-- `ENC.NOP` (R130) -/
  | encNop
  /-- `ENC.START` (R131) -/
  | encStart
  /-- `ENC.CLEAR` (R132) -/
  | encClear
  /-- `ENC.RSVD`, the reserved command codes (R133, R113) -/
  | encRsvd (code : Byte)
  /-- `E.OPEN` (R135) -/
  | eOpen
  /-- `E.EXTEND` (R136) -/
  | eExtend
  /-- `E.CLOSE` (R137) -/
  | eClose
  /-- `E.FLUSH` (R138) -/
  | eFlush
  /-- `E.UNREACHABLE`, the select vector without a step (R114) -/
  | eUnreachable
  /-- `DEC.NOP` (R160) -/
  | decNop
  /-- `DEC.START` (R161) -/
  | decStart
  /-- `DEC.CLEAR` (R162) -/
  | decClear
  /-- `DEC.RSVD` (R163, R113) -/
  | decRsvd (code : Byte)
  /-- `D.RUN`: fetch the run word `DRUN[DEC.ridx]` and interpret it (R165) -/
  | dRun
  /-- `D.FINISH` (R166) -/
  | dFinish
  /-- `RUN`: a run word with `length ≠ 0`, interpreted by `D.RUN` (R100, R165) -/
  | run (length : Nat) (value : Byte)
  /-- `RUN.ZERO`: the illegal run word, `length = 0` (R112, R165, R225) -/
  | runZero (value : Byte)
deriving DecidableEq, Repr

/-- A word of one of the formats of R111: what a unit is handed to decode. The format is not in the word: a command word's is the
port it is written to (R104), a select vector's is the unit that evaluates it (R108, R110), a run word's is the fetch (R110). -/
inductive CodeWord where
  | encCmd (code : Byte)
  | decCmd (code : Byte)
  | esel (bits : BitVec 3)
  | dsel (bits : BitVec 1)
  | runWord (word : Nat)
deriving DecidableEq, Repr

/-- The HOST's transactions (R20): `RegWrite(u, n, v)`, `RegRead(u, n)`, `MemWrite(M, i, v)`, `MemRead(M, i)` and `Reset`. -/
inductive HostOp where
  | regWrite (u : UnitId) (n v : Nat)
  | regRead (u : UnitId) (n : Nat)
  | memWrite (m : MemId) (i v : Nat)
  | memRead (m : MemId) (i : Nat)
  | reset
deriving DecidableEq, Repr

/-- One turn of the schedule (R22): the HOST takes the step `op`, or a unit takes its enabled step. -/
inductive Turn where
  | host (op : HostOp)
  | enc
  | dec
deriving DecidableEq, Repr

end Sys2Proof
end

