-- ==== Sys2Proof/WellFormed.lean ====
section
/-! DEFINITION. Which terms of the syntax stand for something the hardware can be given: the ranges of operands (R104, R100,
R112) and the widths of the HOST's ports (R71, R79). -/

namespace Sys2Proof

/-- An operation is well formed: a reserved code is `0x03` to `0xFF` (R104), a `RUN` word's length is not 0 and fits `LEN_W`
bits (R100, R112). -/
def Instr.wf (p : Param) : Instr → Bool
  | .encRsvd code => decide (3 ≤ code.toNat)
  | .decRsvd code => decide (3 ≤ code.toNat)
  | .run length _ => decide (1 ≤ length ∧ length < 2 ^ p.lenW)
  | .encNop | .encStart | .encClear => true
  | .eOpen | .eExtend | .eClose | .eFlush | .eUnreachable => true
  | .decNop | .decStart | .decClear | .dRun | .dFinish => true
  | .runZero _ => true

/-- The width of one entry of a memory (R71). -/
def entryWidth (p : Param) : MemId → Nat
  | .pixmem | .outmem => 8
  | .erun | .drun => p.runW

/-- A HOST transaction can be expressed at the ports: an entry index has `LEN_W` bits (R71) and a memory access moves one whole
entry (R79). Register accesses need no check: a wide value is cut and an unmapped number is ignored (R50, R59). -/
def HostOp.expressible (p : Param) : HostOp → Bool
  | .memWrite m i v => decide (i < p.depth ∧ v < 2 ^ entryWidth p m)
  | .memRead _ i => decide (i < p.depth)
  | .regWrite _ _ _ | .regRead _ _ | .reset => true

end Sys2Proof
end

