-- ==== Sys2Proof/Decode.lean ====
section
/-! DEFINITION. The encodings: the run word (R100, R106, R107), the command codes (R104), the select vectors' step maps (R109,
R110), the decoder over them, total and rejecting by name, and the encoder. Words are numbers with bit 0 the least significant
bit (R14); no format has a byte order (R79; notes/assumptions/23.md). -/

namespace Sys2Proof

/-- `pack(len, val) = {len, val} = len · 256 + val`, the output formatter's word (R100, R106). -/
def pack (length : Nat) (value : Byte) : Nat := length * 256 + value.toNat

/-- `r[RUN_W−1 : 8]`, the run word's length (R107). -/
def runLength (r : Nat) : Nat := r / 256

/-- `r[7 : 0]`, the run word's value (R107). -/
def runValue (r : Nat) : Byte := BitVec.ofNat 8 r

/-- The command codes at `ENC_CMD` (R104): all 256 values have a meaning. -/
def decodeEncCmd (c : Byte) : Instr :=
  if c = 0x00#8 then .encNop
  else if c = 0x01#8 then .encStart
  else if c = 0x02#8 then .encClear
  else .encRsvd c

/-- The command codes at `DEC_CMD` (R104). -/
def decodeDecCmd (c : Byte) : Instr :=
  if c = 0x00#8 then .decNop
  else if c = 0x01#8 then .decStart
  else if c = 0x02#8 then .decClear
  else .decRsvd c

/-- The encoder step map (R109) over `ESEL = {end, open, eq}`: `00x`, `011`, `010`, `11x`, `10x`. -/
def decodeEsel (v : BitVec 3) : Instr :=
  if v &&& 0b110#3 = 0b000#3 then .eOpen
  else if v = 0b011#3 then .eExtend
  else if v = 0b010#3 then .eClose
  else if v &&& 0b110#3 = 0b110#3 then .eFlush
  else .eUnreachable

/-- The decoder step map (R110) over `DSEL = end`. -/
def decodeDsel (v : BitVec 1) : Instr :=
  if v = 0b0#1 then .dRun else .dFinish

/-- A run word (R107): the illegal one when its length is 0 (R112), else a Run. -/
def decodeRunWord (r : Nat) : Instr :=
  if runLength r = 0 then .runZero (runValue r) else .run (runLength r) (runValue r)

/-- Why a word is no word of its format. -/
inductive DecodeError where
  /-- a number of more than `RUN_W` bits is no run word (R100) -/
  | runWordTooWide
deriving DecidableEq, Repr

/-- The decoder: total on every word of every format. -/
def decode (p : Param) : CodeWord → Except DecodeError Instr
  | .encCmd c => .ok (decodeEncCmd c)
  | .decCmd c => .ok (decodeDecCmd c)
  | .esel v => .ok (decodeEsel v)
  | .dsel v => .ok (decodeDsel v)
  | .runWord r => if r < 2 ^ p.runW then .ok (decodeRunWord r) else .error .runWordTooWide

/-- The encoder, from the same tables. A don't-care bit of a select vector is written 0 (notes/assumptions/17.md). -/
def encode : Instr → CodeWord
  | .encNop => .encCmd 0x00#8
  | .encStart => .encCmd 0x01#8
  | .encClear => .encCmd 0x02#8
  | .encRsvd code => .encCmd code
  | .eOpen => .esel 0b000#3
  | .eExtend => .esel 0b011#3
  | .eClose => .esel 0b010#3
  | .eFlush => .esel 0b110#3
  | .eUnreachable => .esel 0b100#3
  | .decNop => .decCmd 0x00#8
  | .decStart => .decCmd 0x01#8
  | .decClear => .decCmd 0x02#8
  | .decRsvd code => .decCmd code
  | .dRun => .dsel 0b0#1
  | .dFinish => .dsel 0b1#1
  | .run length value => .runWord (pack length value)
  | .runZero value => .runWord (pack 0 value)

/-- A word with its don't-care bit cleared: bit `eq` of `ESEL` counts only with `end = 0` and `open = 1` (R108). -/
def CodeWord.canonical : CodeWord → CodeWord
  | .esel v => .esel (if v &&& 0b110#3 = 0b010#3 then v else v &&& 0b110#3)
  | .encCmd c => .encCmd c
  | .decCmd c => .decCmd c
  | .dsel v => .dsel v
  | .runWord r => .runWord r

/-- The word of a format, from its bits numbered as spec/opcode_table.json numbers them. The table's rows of equal width on
different ports have equal bits, so the width names the format: 8 bits are a command word at `ENC_CMD`, 3 bits `ESEL`, 1 bit
`DSEL`, `RUN_W = 40` bits a run word of the default parameter (notes/assumptions/11.md). -/
def tableWord (nbits w : Nat) : Option CodeWord :=
  if 2 ^ nbits ≤ w then none
  else if nbits = 8 then some (.encCmd (BitVec.ofNat 8 w))
  else if nbits = 3 then some (.esel (BitVec.ofNat 3 w))
  else if nbits = 1 then some (.dsel (BitVec.ofNat 1 w))
  else if nbits = Config.defaultParam.runW then some (.runWord w)
  else none

/-- What the decoder reads from the bits of a row of spec/opcode_table.json. -/
def decodeTableWord (nbits w : Nat) : Option Instr :=
  match tableWord nbits w with
  | none => none
  | some c => match decode Config.defaultParam c with
    | .ok i => some i
    | .error _ => none

end Sys2Proof
end

