-- ==== Sys2Proof/Machine/State.lean ====
section
/-! DEFINITION. The state of the machine, plain data: all of R30 (ENC) and R42 (DEC), and the model's own fields (INVENTORY.md,
heading State); the reasons a step can stop; the state after reset (R62 to R66, R260). A register of width N holds a number
below 2^N (R14, notes/assumptions/2.md). -/

namespace Sys2Proof.Machine

/-- `ENC.state`, `DEC.state` (R31, R43). -/
inductive UnitState where
  /-- no frame; nothing valid -/
  | idle
  /-- a frame is in progress -/
  | busy
  /-- the frame ended and the output is valid -/
  | done
  /-- the frame ended in a fault -/
  | err
deriving DecidableEq, Repr

/-- `ENC.err`, `DEC.err`: the error code of the last fault (R32, R43, R221). -/
inductive ErrCode where
  | none
  | emptyInput
  | lengthMismatch
  | malformedArtifact
deriving DecidableEq, Repr

/-- `OpenRun{value, length}` (R38): the accumulator, `ENC.val` (R35) and `ENC.len` (R36). -/
structure OpenRun where
  value : Byte
  length : Nat
deriving DecidableEq, Repr

/-- The listed entries of a memory: index and content, indices strictly rising (for 8-bit entries a list of `Host.Cell`). -/
abbrev Entries (α : Type) := List (Nat × α)

/-- One memory (R71). `cells` lists the entries written since the latest Reset. An entry not listed there reads as a free value
(93 U2, notes/assumptions/5.md). `stale` lists what entries held before that Reset, which Reset does not clear (R260,
notes/assumptions/6.md). -/
structure Memory (α : Type) where
  cells : Entries α
  stale : Entries α
deriving DecidableEq, Repr

/-- Nothing written yet. -/
def Memory.empty {α : Type} : Memory α := { cells := [], stale := [] }

/-- The complete state of ENC (R30). -/
structure EncUnit where
  /-- `ENC.state` (R31) -/
  state : UnitState
  /-- `ENC.err` (R32) -/
  err : ErrCode
  /-- `ENC_WIDTH` (R41) -/
  cfgWidth : Nat
  /-- `ENC_HEIGHT` (R41) -/
  cfgHeight : Nat
  /-- `ENC.w` (R34) -/
  w : Nat
  /-- `ENC.h` (R34) -/
  h : Nat
  /-- `ENC.cap` (R34) -/
  cap : Nat
  /-- `ENC.idx` (R37) -/
  idx : Nat
  /-- `ENC.open` (R38) with `ENC.val` (R35) and `ENC.len` (R36), which hold no value while `ENC.open = 0`
  (93 U3, notes/assumptions/4.md) -/
  run : Option OpenRun
  /-- `ENC.nruns` (R40) -/
  nruns : Nat
  /-- `PIXMEM` (R72) -/
  pixmem : Memory Byte
  /-- `ERUN` (R73) -/
  erun : Memory Nat
deriving DecidableEq, Repr

/-- The complete state of DEC (R42). -/
structure DecUnit where
  /-- `DEC.state` (R43) -/
  state : UnitState
  /-- `DEC.err` (R43) -/
  err : ErrCode
  /-- `DEC.info` (R43) -/
  info : Nat
  /-- `DEC_WIDTH` (R49) -/
  cfgWidth : Nat
  /-- `DEC_HEIGHT` (R49) -/
  cfgHeight : Nat
  /-- `DEC_NRUNS` (R49) -/
  cfgNruns : Nat
  /-- `DEC.w` (R44) -/
  w : Nat
  /-- `DEC.h` (R44) -/
  h : Nat
  /-- `DEC.cap` (R44) -/
  cap : Nat
  /-- `DEC.nruns` (R44) -/
  nruns : Nat
  /-- `DEC.ridx` (R47) -/
  ridx : Nat
  /-- `DEC.cur` (R46) -/
  cur : Nat
  /-- `DRUN` (R75) -/
  drun : Memory Nat
  /-- `OUTMEM` (R76) -/
  outmem : Memory Byte
deriving DecidableEq, Repr

/-- The machine: the two units, which share nothing (R21), and the model's own fields. -/
structure State where
  /-- the parameter `DIM_W`, fixed for the life of the hardware (R11, R23, notes/assumptions/1.md) -/
  param : Param
  /-- the encoder unit (R30) -/
  enc : EncUnit
  /-- the decoder unit (R42) -/
  dec : DecUnit
  /-- the turns still to come, first one next (R22, notes/assumptions/8.md) -/
  turns : List Turn
  /-- what the latest HOST read returned (R50, notes/assumptions/15.md) -/
  lastRead : Option Nat
  /-- how many Resets have happened (notes/assumptions/5.md) -/
  resets : Nat
  /-- how many unspecified values HOST reads have drawn (notes/assumptions/7.md) -/
  draws : Nat
deriving DecidableEq, Repr

/-- The reasons the machine stops. The spec's own faults are none of them: they are states of a unit (R226,
notes/assumptions/24.md). -/
inductive Fault where
  /-- ENC is BUSY with `ESEL = 10x`, for which the hardware has no step (R114, 93 U10): raised by `E.UNREACHABLE`. Safe: nothing
  can be proved to follow (notes/assumptions/19.md). -/
  | encStuck
deriving DecidableEq, Repr

/-- The reasons a step is refused. -/
inductive Refusal where
  /-- an operation without a meaning yet: raised by `exec`'s refused arms only. Safe. -/
  | notModelled (mnemonic : String)
  /-- a unit step asked of `exec` in a state whose select vector does not select it (R134, R164): raised by the meanings of unit
  steps. No step of the machine is refused so, since the step decodes the select vector itself. Safe
  (notes/assumptions/13.md). -/
  | stepNotSelected
  /-- a HOST memory access whose index or value is wider than the port (R71, R79): raised by `hostAccess`. Safe
  (notes/assumptions/14.md). -/
  | accessNotExpressible
  /-- a word the decoder rejects: raised by the step, which never presents one. Safe. -/
  | undecodable
deriving DecidableEq, Repr

/-- ENC after reset, over given memories (R62, R63, R64; registers without a reset value: notes/assumptions/3.md). -/
def EncUnit.afterReset (pixmem : Memory Byte) (erun : Memory Nat) : EncUnit :=
  { state := .idle, err := .none, cfgWidth := 0, cfgHeight := 0, w := 0, h := 0, cap := 0, idx := 0, run := none, nruns := 0,
    pixmem := pixmem, erun := erun }

/-- DEC after reset, over given memories (R62, R63, R64; registers without a reset value: notes/assumptions/3.md). -/
def DecUnit.afterReset (drun : Memory Nat) (outmem : Memory Byte) : DecUnit :=
  { state := .idle, err := .none, info := 0, cfgWidth := 0, cfgHeight := 0, cfgNruns := 0, w := 0, h := 0, cap := 0, nruns := 0,
    ridx := 0, cur := 0, drun := drun, outmem := outmem }

/-- Power-on: a Reset with every memory entry unspecified (R260), for any parameter. -/
def State.powerOn (p : Param) : State :=
  { param := p, enc := .afterReset .empty .empty, dec := .afterReset .empty .empty, turns := [], lastRead := none, resets := 0,
    draws := 0 }

/-- The machine right after reset, with the spec's default parameter (R11, R62 to R66). -/
def State.reset : State := State.powerOn Config.defaultParam

end Sys2Proof.Machine
end

