-- ==== Sys2Proof/Machine/Ops.lean ====
section
/-! DEFINITION. The named operations over memories and registers: reading, writing and filling a memory (R16, R81, R165), what a
Reset does to one (R260), the four memories of the machine, an increment of a register (R192), taking a fault (R226) and leaving
one (R230). -/

namespace Sys2Proof.Machine

/-- The content listed for index `i`. -/
def Entries.lookup {α : Type} : Entries α → Nat → Option α
  | [], _ => none
  | (j, v) :: rest, i => if i = j then some v else Entries.lookup rest i

/-- The list with content `v` for index `i`, indices kept rising. -/
def Entries.insert {α : Type} : Entries α → Nat → α → Entries α
  | [], i, v => [(i, v)]
  | (j, u) :: rest, i, v =>
    if i < j then (i, v) :: (j, u) :: rest
    else if i = j then (i, v) :: rest
    else (j, u) :: Entries.insert rest i v

/-- The canonical form: indices strictly rising. An unlisted index has no written content, so no listed entry equals what an
unlisted one reads as. -/
abbrev Entries.Rising {α : Type} (m : Entries α) : Prop := m.Pairwise (fun a b => a.1 < b.1)

/-- Every entry of `new` written over `old`. -/
def Entries.overlay {α : Type} (new old : Entries α) : Entries α :=
  new.foldr (fun c m => Entries.insert m c.1 c.2) old

/-- `MemWrite(M, i, v)` (R16): the written entry and nothing else (R82). -/
def Memory.write {α : Type} (m : Memory α) (i : Nat) (v : α) : Memory α :=
  { m with cells := Entries.insert m.cells i v }

/-- `MemRead(M, i)` (R16), where `free` gives what an entry that nothing has written since Reset holds (93 U2). -/
def Memory.read {α : Type} (m : Memory α) (free : Nat → Option α → α) (i : Nat) : α :=
  match Entries.lookup m.cells i with
  | some v => v
  | none => free i (Entries.lookup m.stale i)

/-- The fill of `D.RUN` (R165): `length` entries from `start` on, in rising order. -/
def Memory.fill {α : Type} (m : Memory α) (start : Nat) (v : α) : Nat → Memory α
  | 0 => m
  | n + 1 => Memory.fill (m.write start v) (start + 1) v n

/-- Reset: the memory keeps what it held, which is unspecified from then on (R260, R65). -/
def Memory.forget {α : Type} (m : Memory α) : Memory α :=
  { cells := [], stale := Entries.overlay m.cells m.stale }

/-- The canonical form of a memory. -/
abbrev Memory.wf {α : Type} (m : Memory α) : Prop := Entries.Rising m.cells ∧ Entries.Rising m.stale

/-- `MemRead(PIXMEM, i)`. -/
def readPixmem (s : State) (i : Nat) : Byte :=
  s.enc.pixmem.read (Config.unwrittenPixel .pixmem s.resets) i

/-- `MemRead(ERUN, i)`, a word of `RUN_W` bits. -/
def readErun (s : State) (i : Nat) : Nat :=
  s.enc.erun.read (fun i old => Config.unwrittenRunWord .erun s.resets i old % 2 ^ s.param.runW) i

/-- `MemRead(DRUN, i)`, a word of `RUN_W` bits. -/
def readDrun (s : State) (i : Nat) : Nat :=
  s.dec.drun.read (fun i old => Config.unwrittenRunWord .drun s.resets i old % 2 ^ s.param.runW) i

/-- `MemRead(OUTMEM, i)`. -/
def readOutmem (s : State) (i : Nat) : Byte :=
  s.dec.outmem.read (Config.unwrittenPixel .outmem s.resets) i

/-- A register of `LEN_W` bits plus 1 (R190). In no reachable state does it wrap (R192); in the others it is cut to the width
(notes/assumptions/2.md). -/
def inc (p : Param) (x : Nat) : Nat := (x + 1) % 2 ^ p.lenW

/-- Taking a fault, `raise E(info)` in a step of unit `u` (R17, R226): `state`, `err` and, for DEC, `info`; nothing else. ENC has
no information register (R58). -/
def raise (u : UnitId) (e : ErrCode) (info : Nat) (s : State) : State :=
  match u with
  | .enc => { s with enc := { s.enc with state := .err, err := e } }
  | .dec => { s with dec := { s.dec with state := .err, err := e, info := info } }

/-- Leaving `DONE` or `ERR` for `IDLE`, the effect of an accepted `CLEAR` (R132, R162, R230). -/
def leave (u : UnitId) (s : State) : State :=
  match u with
  | .enc => { s with enc := { s.enc with state := .idle, err := .none } }
  | .dec => { s with dec := { s.dec with state := .idle, err := .none, info := 0 } }

end Sys2Proof.Machine
end

