-- ==== Sys2Proof/Machine/Operands.lean ====
section
/-! DEFINITION. The operands of the operations: the configuration latched by a START (R34, R44), the scanned pixel (R134), the
fetched run word (R165) and what interpreting one does, the appended run word (R137, R138), and where a grid's pixel lies (R77,
R167). -/

namespace Sys2Proof.Machine

/-- The latches of `ENC.START` (R34, R131); the product is exact (R191). -/
def latchEnc (s : State) : State :=
  { s with enc := { s.enc with
      w := s.enc.cfgWidth, h := s.enc.cfgHeight, cap := s.enc.cfgWidth * s.enc.cfgHeight } }

/-- The rest of an `ENC.START` that begins a frame (R131). -/
def beginEnc (s : State) : State :=
  { s with enc := { s.enc with idx := 0, run := none, nruns := 0, err := .none, state := .busy } }

/-- The latches of `DEC.START` (R44, R161); the product is exact (R191). -/
def latchDec (s : State) : State :=
  { s with dec := { s.dec with
      w := s.dec.cfgWidth, h := s.dec.cfgHeight, nruns := s.dec.cfgNruns, cap := s.dec.cfgWidth * s.dec.cfgHeight } }

/-- The rest of a `DEC.START` that begins a frame (R161). -/
def beginDec (s : State) : State :=
  { s with dec := { s.dec with ridx := 0, cur := 0, err := .none, info := 0, state := .busy } }

/-- The run scanner's one read, `p = MemRead(PIXMEM, ENC.idx)` (R134). -/
def scannedPixel (s : State) : Byte := readPixmem s s.enc.idx

/-- The output formatter's append, `MemWrite(ERUN, ENC.nruns, {ENC.len, ENC.val}); ENC.nruns <- ENC.nruns + 1` (R137, R138). -/
def appendRun (r : OpenRun) (s : State) : State :=
  { s with enc := { s.enc with
      erun := s.enc.erun.write s.enc.nruns (pack r.length r.value), nruns := inc s.param s.enc.nruns } }

/-- The run unpacker's one read, `r = MemRead(DRUN, DEC.ridx)` (R165). -/
def fetchedRunWord (s : State) : Nat := readDrun s s.dec.ridx

/-- The capacity test of `D.RUN`, `length > DEC.cap − DEC.cur` (R165, R193), over the integers. -/
def overflows (length : Nat) (s : State) : Bool := decide (s.dec.cap - s.dec.cur < length)

/-- The pixel replicator and the buffer writer (R165): fill `[cur, cur + length)`, advance the cursor and the run index. -/
def fillRun (length : Nat) (value : Byte) (s : State) : State :=
  { s with dec := { s.dec with
      outmem := s.dec.outmem.fill s.dec.cur value length, cur := s.dec.cur + length, ridx := inc s.param s.dec.ridx } }

/-- What `D.RUN` does with a fetched run word (R165), the checks before any write, the zero check first (R229). -/
def interpretRun (length : Nat) (value : Byte) (s : State) : State :=
  if length = 0 then raise .dec .malformedArtifact s.dec.ridx s
  else if overflows length s then raise .dec .lengthMismatch s.dec.ridx s
  else fillRun length value s

/-- The entry of the pixel in row `y`, column `x` of a grid of `width` columns (R77). -/
def gridIndex (width y x : Nat) : Nat := y * width + x

/-- The pixel in row `y`, column `x` of the grid ENC reads (R77). -/
def inPixel (s : State) (y x : Nat) : Byte := readPixmem s (gridIndex s.enc.w y x)

/-- The pixel in row `y`, column `x` of the reconstructed grid (R167): not transposed. -/
def outPixel (s : State) (y x : Nat) : Byte := readOutmem s (gridIndex s.dec.w y x)

end Sys2Proof.Machine
end

