-- ==== Sys2Proof/Machine/Flags.lean ====
section
/-! DEFINITION. The flags of the hardware (R54): the select vectors ESEL and DSEL (R108, R110), functions of state and of one
memory entry; the status word (R53, R103); the status outputs (R67). -/

namespace Sys2Proof.Machine

/-- ESEL's `end`: `ENC.idx = ENC.cap` (R108). -/
def encEnd (s : State) : Bool := decide (s.enc.idx = s.enc.cap)

/-- ESEL's `open`: `ENC.open` (R108, R38). -/
def encOpen (s : State) : Bool := s.enc.run.isSome

/-- ESEL's `eq`: `MemRead(PIXMEM, ENC.idx) = ENC.val`, defined only with `end = 0` and `open = 1`; otherwise it is a don't-care,
here 0, and nothing is read for it (R108, notes/assumptions/17.md). -/
def encEq (s : State) : Bool :=
  match s.enc.run with
  | none => false
  | some r => if encEnd s then false else decide (scannedPixel s = r.value)

/-- `ESEL = {end, open, eq}` (R108). -/
def esel (s : State) : BitVec 3 :=
  BitVec.ofBool (encEnd s) ++ BitVec.ofBool (encOpen s) ++ BitVec.ofBool (encEq s)

/-- `DSEL = end = (DEC.ridx = DEC.nruns)` (R110). -/
def dsel (s : State) : BitVec 1 := BitVec.ofBool (decide (s.dec.ridx = s.dec.nruns))

/-- The encoding of a unit's state: `IDLE = 0`, `BUSY = 1`, `DONE = 2`, `ERR = 3` (R31). -/
def UnitState.code : UnitState → BitVec 2
  | .idle => 0
  | .busy => 1
  | .done => 2
  | .err => 3

/-- The numeric error codes (R221). -/
def ErrCode.code : ErrCode → BitVec 4
  | .none => 0
  | .emptyInput => 1
  | .lengthMismatch => 2
  | .malformedArtifact => 3

/-- The status word `{ERRCODE[7:4], 00, STATE[1:0]}` (R53, R103). -/
def statusWord (st : UnitState) (e : ErrCode) : Byte := e.code ++ 0#2 ++ st.code

/-- `ENC_STATUS` (R53). -/
def encStatus (s : State) : Byte := statusWord s.enc.state s.enc.err

/-- `DEC_STATUS` (R53). -/
def decStatus (s : State) : Byte := statusWord s.dec.state s.dec.err

/-- The state of unit `u`. -/
def unitState (u : UnitId) (s : State) : UnitState :=
  match u with
  | .enc => s.enc.state
  | .dec => s.dec.state

/-- The level outputs `enc_busy` and `dec_busy` (R67). -/
def busyOutput (u : UnitId) (s : State) : Bool := decide (unitState u s = .busy)

/-- The level outputs `enc_done` and `dec_done` (R67). -/
def doneOutput (u : UnitId) (s : State) : Bool := decide (unitState u s = .done)

/-- The level outputs `enc_err` and `dec_err` (R67). -/
def errOutput (u : UnitId) (s : State) : Bool := decide (unitState u s = .err)

end Sys2Proof.Machine
end

