-- ==== Sys2Proof/Machine/DecCommands.lean ====
section
/-! DEFINITION. The commands of the decoder unit, written by the HOST to `DEC_CMD` (41_decoder.md section 1). -/

namespace Sys2Proof.Machine

/-- `DEC.NOP` (R160): accepted in every state, no state changes. -/
def execDecNop (s : State) : Host.Outcome State Fault Refusal := .next s

/-- `DEC.START` (R161): ignored while BUSY; else latch the configuration, then fault on a capacity of 0 or begin a frame. -/
def execDecStart (s : State) : Host.Outcome State Fault Refusal :=
  if s.dec.state = .busy then .next s
  else if (latchDec s).dec.cap = 0 then .next (raise .dec .malformedArtifact 0 (latchDec s))
  else .next (beginDec (latchDec s))

/-- `DEC.CLEAR` (R162): from DONE or ERR to IDLE; ignored in IDLE and BUSY. -/
def execDecClear (s : State) : Host.Outcome State Fault Refusal :=
  if s.dec.state = .done ∨ s.dec.state = .err then .next (leave .dec s) else .next s

/-- `DEC.RSVD` (R163, R113): no effect, in every state. -/
def execDecRsvd (_code : Byte) (s : State) : Host.Outcome State Fault Refusal := .next s

end Sys2Proof.Machine
end

