-- ==== Sys2Proof/Machine/DecSteps.lean ====
section
/-! DEFINITION. The steps of the decoder unit (41_decoder.md section 3) and the two kinds of run word that `D.RUN` interprets
(R110, R165, notes/assumptions/22.md). Each is a step only in a state whose select bit selects it (R164); in another state it is
refused (notes/assumptions/13.md). -/

namespace Sys2Proof.Machine

/-- DEC takes a `D.RUN`: BUSY with `DSEL = 0` (R164, R110, notes/assumptions/12.md). -/
abbrev runSelected (s : State) : Prop := s.dec.state = .busy ∧ s.dec.ridx ≠ s.dec.nruns

/-- `D.RUN` (R165): fetch `DRUN[DEC.ridx]`, unpack it, interpret it. -/
def execDRun (s : State) : Host.Outcome State Fault Refusal :=
  if runSelected s then .next (interpretRun (runLength (fetchedRunWord s)) (runValue (fetchedRunWord s)) s)
  else .refused .stepNotSelected

/-- `D.FINISH` (R166): DONE when the buffer is full, else a fault. -/
def execDFinish (s : State) : Host.Outcome State Fault Refusal :=
  if s.dec.state = .busy ∧ s.dec.ridx = s.dec.nruns then
    if s.dec.cur = s.dec.cap then .next { s with dec := { s.dec with state := .done } }
    else .next (raise .dec .lengthMismatch s.dec.nruns s)
  else .refused .stepNotSelected

/-- A `RUN` word handed to `D.RUN` (R165). -/
def execRun (length : Nat) (value : Byte) (s : State) : Host.Outcome State Fault Refusal :=
  if runSelected s then .next (interpretRun length value s) else .refused .stepNotSelected

/-- A `RUN.ZERO` word handed to `D.RUN` (R112, R165, R225). -/
def execRunZero (value : Byte) (s : State) : Host.Outcome State Fault Refusal :=
  if runSelected s then .next (interpretRun 0 value s) else .refused .stepNotSelected

end Sys2Proof.Machine
end

