-- ==== Sys2Proof/Machine/EncCommands.lean ====
section
/-! DEFINITION. The commands of the encoder unit, written by the HOST to `ENC_CMD` (40_encoder.md section 1). -/

namespace Sys2Proof.Machine

/-- `ENC.NOP` (R130): accepted in every state, no state changes. -/
def execEncNop (s : State) : Host.Outcome State Fault Refusal := .next s

/-- `ENC.START` (R131): ignored while BUSY; else latch the configuration, then fault on a capacity of 0 or begin a frame. -/
def execEncStart (s : State) : Host.Outcome State Fault Refusal :=
  if s.enc.state = .busy then .next s
  else if (latchEnc s).enc.cap = 0 then .next (raise .enc .emptyInput 0 (latchEnc s))
  else .next (beginEnc (latchEnc s))

/-- `ENC.CLEAR` (R132): from DONE or ERR to IDLE; ignored in IDLE and BUSY. -/
def execEncClear (s : State) : Host.Outcome State Fault Refusal :=
  if s.enc.state = .done ∨ s.enc.state = .err then .next (leave .enc s) else .next s

/-- `ENC.RSVD` (R133, R113): no effect, in every state. -/
def execEncRsvd (_code : Byte) (s : State) : Host.Outcome State Fault Refusal := .next s

end Sys2Proof.Machine
end

