-- ==== Sys2Proof/Machine/EncSteps.lean ====
section
/-! DEFINITION. The steps of the encoder unit (40_encoder.md section 3). Each is a step only in a state whose select vector
selects it (R134); in another state it is refused (notes/assumptions/13.md). -/

namespace Sys2Proof.Machine

/-- `E.OPEN` (R135): the first pixel opens a run of length 1. -/
def execEOpen (s : State) : Host.Outcome State Fault Refusal :=
  if s.enc.state = .busy ∧ s.enc.idx ≠ s.enc.cap ∧ s.enc.run = none then
    .next { s with enc := { s.enc with
      run := some { value := scannedPixel s, length := 1 }, idx := inc s.param s.enc.idx } }
  else .refused .stepNotSelected

/-- `E.EXTEND` (R136): a pixel equal to the open run's value makes it longer by 1. -/
def execEExtend (s : State) : Host.Outcome State Fault Refusal :=
  match s.enc.run with
  | none => .refused .stepNotSelected
  | some r =>
    if s.enc.state = .busy ∧ s.enc.idx ≠ s.enc.cap ∧ scannedPixel s = r.value then
      .next { s with enc := { s.enc with
        run := some { r with length := inc s.param r.length }, idx := inc s.param s.enc.idx } }
    else .refused .stepNotSelected

/-- `E.CLOSE` (R137): a different pixel closes the open run and opens one of length 1. -/
def execEClose (s : State) : Host.Outcome State Fault Refusal :=
  match s.enc.run with
  | none => .refused .stepNotSelected
  | some r =>
    if s.enc.state = .busy ∧ s.enc.idx ≠ s.enc.cap ∧ scannedPixel s ≠ r.value then
      .next { appendRun r s with enc := { (appendRun r s).enc with
        run := some { value := scannedPixel s, length := 1 }, idx := inc s.param s.enc.idx } }
    else .refused .stepNotSelected

/-- `E.FLUSH` (R138): the final run is appended and the frame is DONE. -/
def execEFlush (s : State) : Host.Outcome State Fault Refusal :=
  match s.enc.run with
  | none => .refused .stepNotSelected
  | some r =>
    if s.enc.state = .busy ∧ s.enc.idx = s.enc.cap then
      .next { appendRun r s with enc := { (appendRun r s).enc with run := none, state := .done } }
    else .refused .stepNotSelected

/-- `E.UNREACHABLE` (R114): "The hardware gives the vector no step; a model shall make the unit stuck there". -/
def execEUnreachable (_s : State) : Host.Outcome State Fault Refusal := .fault .encStuck

end Sys2Proof.Machine
end

