-- ==== Sys2Proof/Machine/Dispatch.lean ====
section
/-! DEFINITION. The meaning of every operation: one arm per constructor of Instr. -/

namespace Sys2Proof.Machine

def exec (i : Instr) (s : State) : Host.Outcome State Fault Refusal :=
  match i with
  | .encNop => Sys2Proof.Machine.execEncNop s
  | .encStart => Sys2Proof.Machine.execEncStart s
  | .encClear => Sys2Proof.Machine.execEncClear s
  | .encRsvd code => Sys2Proof.Machine.execEncRsvd code s
  | .eOpen => Sys2Proof.Machine.execEOpen s
  | .eExtend => Sys2Proof.Machine.execEExtend s
  | .eClose => Sys2Proof.Machine.execEClose s
  | .eFlush => Sys2Proof.Machine.execEFlush s
  | .eUnreachable => Sys2Proof.Machine.execEUnreachable s
  | .decNop => Sys2Proof.Machine.execDecNop s
  | .decStart => Sys2Proof.Machine.execDecStart s
  | .decClear => Sys2Proof.Machine.execDecClear s
  | .decRsvd code => Sys2Proof.Machine.execDecRsvd code s
  | .dRun => Sys2Proof.Machine.execDRun s
  | .dFinish => Sys2Proof.Machine.execDFinish s
  | .run length value => Sys2Proof.Machine.execRun length value s
  | .runZero value => Sys2Proof.Machine.execRunZero value s

end Sys2Proof.Machine
end

