-- ==== Sys2Proof/Machine/HostPort.lean ====
section
/-! DEFINITION. The HOST's transactions on the register ports (10_state.md section 5) and the memory ports (R74, R95), and
`Reset` (R260). A write to register 0 is a command and is executed as the operation it decodes to (R52, Machine/Fetch.lean). -/

namespace Sys2Proof.Machine

/-- What a HOST read returns: a value the rules give, or an unspecified one of a given width (of any size where the spec gives no
width: an unmapped register). -/
inductive ReadValue where
  | defined (v : Nat)
  | unspecified (width : Option Nat)
deriving DecidableEq, Repr

/-- The ENC register map, reads (R51 to R55, R59). -/
def encRegValue (n : Nat) (s : State) : ReadValue :=
  match n with
  | 0 => .defined 0
  | 1 => .defined (encStatus s).toNat
  | 2 => .defined s.enc.cfgWidth
  | 3 => .defined s.enc.cfgHeight
  | 4 => if s.enc.state = .done then .defined s.enc.w else .unspecified (some s.param.dimW)
  | 5 => if s.enc.state = .done then .defined s.enc.h else .unspecified (some s.param.dimW)
  | 6 => if s.enc.state = .done then .defined s.enc.nruns else .unspecified (some s.param.lenW)
  | _ => .unspecified none

/-- The DEC register map, reads (R52, R53, R56 to R59). -/
def decRegValue (n : Nat) (s : State) : ReadValue :=
  match n with
  | 0 => .defined 0
  | 1 => .defined (decStatus s).toNat
  | 2 => .defined s.dec.cfgWidth
  | 3 => .defined s.dec.cfgHeight
  | 4 => .defined s.dec.cfgNruns
  | 5 => if s.dec.state = .done then .defined s.dec.w else .unspecified (some s.param.dimW)
  | 6 => if s.dec.state = .done then .defined s.dec.h else .unspecified (some s.param.dimW)
  | 7 => .defined s.dec.info
  | _ => .unspecified none

/-- `RegRead(u, n)` (R50). -/
def regValue (u : UnitId) (n : Nat) (s : State) : ReadValue :=
  match u with
  | .enc => encRegValue n s
  | .dec => decRegValue n s

/-- `MemRead(M, i)` by the HOST (R74, R95): `ERUN` and `OUTMEM` have defined entries only in DONE and inside the frame's region. -/
def memValue (m : MemId) (i : Nat) (s : State) : ReadValue :=
  match m with
  | .pixmem => .defined (readPixmem s i).toNat
  | .drun => .defined (readDrun s i)
  | .erun =>
    if s.enc.state = .done ∧ i < s.enc.nruns then .defined (readErun s i) else .unspecified (some s.param.runW)
  | .outmem =>
    if s.dec.state = .done ∧ i < s.dec.cap then .defined (readOutmem s i).toNat else .unspecified (some 8)

/-- The value that the next draw gives for a width (93 U4, U5, U8; notes/assumptions/7.md). -/
def drawn (width : Option Nat) (s : State) : Nat :=
  match width with
  | none => Config.unspecifiedRead s.draws
  | some n => Config.unspecifiedRead s.draws % 2 ^ n

/-- The value goes back to the HOST; nothing else changes but the count of draws (R82). -/
def deliver (r : ReadValue) (s : State) : State :=
  match r with
  | .defined v => { s with lastRead := some v }
  | .unspecified width => { s with lastRead := some (drawn width s), draws := s.draws + 1 }

/-- `RegWrite(ENC, n, v)` to a register that is no command register: the configuration registers, cut to their width (R50, R41);
read-only and unmapped numbers are ignored (R53, R55, R59). -/
def encRegWrite (n v : Nat) (s : State) : State :=
  match n with
  | 2 => { s with enc := { s.enc with cfgWidth := v % 2 ^ s.param.dimW } }
  | 3 => { s with enc := { s.enc with cfgHeight := v % 2 ^ s.param.dimW } }
  | _ => s

/-- `RegWrite(DEC, n, v)` likewise (R50, R49, R59). -/
def decRegWrite (n v : Nat) (s : State) : State :=
  match n with
  | 2 => { s with dec := { s.dec with cfgWidth := v % 2 ^ s.param.dimW } }
  | 3 => { s with dec := { s.dec with cfgHeight := v % 2 ^ s.param.dimW } }
  | 4 => { s with dec := { s.dec with cfgNruns := v % 2 ^ s.param.lenW } }
  | _ => s

/-- `RegWrite(u, n, v)` (R50). -/
def regWrite (u : UnitId) (n v : Nat) (s : State) : State :=
  match u with
  | .enc => encRegWrite n v s
  | .dec => decRegWrite n v s

/-- `MemWrite(M, i, v)` by the HOST (R74): `PIXMEM` and `DRUN` are written, a write to `ERUN` or `OUTMEM` is ignored. -/
def memWrite (m : MemId) (i v : Nat) (s : State) : State :=
  match m with
  | .pixmem => { s with enc := { s.enc with pixmem := s.enc.pixmem.write i (BitVec.ofNat 8 v) } }
  | .drun => { s with dec := { s.dec with drun := s.dec.drun.write i v } }
  | .erun | .outmem => s

/-- `Reset` (R260): both units to their reset values, the memories keep what they held, which is unspecified from then on (R65,
notes/assumptions/6.md); the HOST's own side is untouched (notes/assumptions/20.md). -/
def hostReset (s : State) : State :=
  { s with
    enc := .afterReset s.enc.pixmem.forget s.enc.erun.forget
    dec := .afterReset s.dec.drun.forget s.dec.outmem.forget
    resets := s.resets + 1 }

/-- A HOST transaction that is no command (R20). -/
def hostAccess (op : HostOp) (s : State) : Host.Outcome State Fault Refusal :=
  if op.expressible s.param then
    match op with
    | .regWrite u n v => .next (regWrite u n v s)
    | .regRead u n => .next (deliver (regValue u n s) s)
    | .memWrite m i v => .next (memWrite m i v s)
    | .memRead m i => .next (deliver (memValue m i s) s)
    | .reset => .next (hostReset s)
  else .refused .accessNotExpressible

end Sys2Proof.Machine
end

