-- ==== Sys2Proof/Machine/Fetch.lean ====
section
/-! DEFINITION. What the machine does next (R22): the first turn of the schedule, or, when no turn is left, the enabled step of a
BUSY unit (R281, notes/assumptions/8.md); the word that is handed to the decoder for it; and how a word is
placed where the next step finds it. -/

namespace Sys2Proof.Machine

/-- What comes next: a word to decode and execute, a HOST transaction that is no command, or nothing (a turn of a unit that has
no enabled step; notes/assumptions/9.md). -/
inductive Fetched where
  | word (c : CodeWord)
  | access (op : HostOp)
  | pass
deriving DecidableEq, Repr

/-- The command word at a unit's command register: the low 8 bits of the value written (R102, R50). -/
def commandWord (u : UnitId) (v : Nat) : CodeWord :=
  match u with
  | .enc => .encCmd (BitVec.ofNat 8 v)
  | .dec => .decCmd (BitVec.ofNat 8 v)

/-- A HOST step: a write to register 0 is a command (R52). -/
def hostFetch (op : HostOp) : Fetched :=
  match op with
  | .regWrite u 0 v => .word (commandWord u v)
  | .regWrite u (n + 1) v => .access (.regWrite u (n + 1) v)
  | .regRead u n => .access (.regRead u n)
  | .memWrite m i v => .access (.memWrite m i v)
  | .memRead m i => .access (.memRead m i)
  | .reset => .access .reset

/-- ENC's enabled step, exactly when BUSY (R22, R134). -/
def encFetch (s : State) : Fetched := if s.enc.state = .busy then .word (.esel (esel s)) else .pass

/-- DEC's enabled step, exactly when BUSY (R22, R164). -/
def decFetch (s : State) : Fetched := if s.dec.state = .busy then .word (.dsel (dsel s)) else .pass

/-- What comes next. -/
def fetch (s : State) : Fetched :=
  match s.turns with
  | .host op :: _ => hostFetch op
  | .enc :: _ => encFetch s
  | .dec :: _ => decFetch s
  | [] => if s.enc.state = .busy then encFetch s else decFetch s

/-- The first turn is taken. -/
def State.advance (s : State) : State := { s with turns := s.turns.tail }

/-- `s` with the word `c` brought by its next turn (notes/assumptions/10.md): a command word is written to its port; for a select
vector the unit is put into a state that has it; a run word is put where a BUSY decoder fetches it. -/
def State.withWord (s : State) (c : CodeWord) : State :=
  match c with
  | .encCmd code => { s with turns := .host (.regWrite .enc 0 code.toNat) :: s.turns }
  | .decCmd code => { s with turns := .host (.regWrite .dec 0 code.toNat) :: s.turns }
  | .esel v =>
    let idx := if v &&& 0b110#3 = 0b000#3 then 0 else 1
    let cap := if v &&& 0b100#3 = 0#3 then idx + 1 else idx
    let pixel : Byte := if v &&& 0b001#3 = 0#3 then 1 else 0
    { s with
      turns := .enc :: s.turns
      enc := { s.enc with
        state := .busy, err := .none, w := cap, h := 1, cap := cap, idx := idx, nruns := 0
        run := if v &&& 0b010#3 = 0#3 then none else some { value := 0, length := 1 }
        pixmem := s.enc.pixmem.write idx pixel } }
  | .dsel v =>
    let last := decide (v = 1#1)
    { s with
      turns := .dec :: s.turns
      dec := { s.dec with
        state := .busy, err := .none, info := 0, w := 1, h := 1, cap := 1, nruns := 1
        ridx := if last then 1 else 0
        cur := if last then 1 else 0
        drun := s.dec.drun.write 0 (pack 1 0) } }
  | .runWord r =>
    { s with
      turns := .dec :: s.turns
      dec := { s.dec with
        state := .busy, err := .none, info := 0, w := 1, h := 1, cap := 1, nruns := 1, ridx := 0, cur := 0
        drun := s.dec.drun.write 0 r } }

end Sys2Proof.Machine
end

