-- ==== Sys2Proof/Machine/Step.lean ====
section
/-! DEFINITION. One step of the machine, and how a word of spec/opcode_table.json is placed where the next step finds it. -/

namespace Sys2Proof.Machine

/-- One atomic step of one agent (R18, R22): the turn is taken, and what it brought is decoded and executed. -/
def step (s : State) : Host.Outcome State Fault Refusal :=
  match fetch s with
  | .word c =>
    match decode s.param c with
    | .ok i => exec i s.advance
    | .error _ => .refused .undecodable
  | .access op => hostAccess op s.advance
  | .pass => .next s.advance

/-- `s` with the word of a row of spec/opcode_table.json, from its bits, brought by its next turn (notes/assumptions/10.md, 11.md). -/
def State.withFetchWord (s : State) (nbits w : Nat) : State :=
  match tableWord nbits w with
  | some c => s.withWord c
  | none => s

end Sys2Proof.Machine
end

