-- ==== Sys2Proof/Machine/Script.lean ====
section
/-! DEFINITION. The HOST script notation (R122) and its pseudo-operations (R123), as turns of the schedule: what a "program" of
this hardware is (95_test_vectors.md section 3). -/

namespace Sys2Proof.Machine.Script

/-- The names of the registers (R51, R56). -/
inductive Reg where
  | ENC_CMD
  | ENC_STATUS
  | ENC_WIDTH
  | ENC_HEIGHT
  | ART_WIDTH
  | ART_HEIGHT
  | ART_NRUNS
  | DEC_CMD
  | DEC_STATUS
  | DEC_WIDTH
  | DEC_HEIGHT
  | DEC_NRUNS
  | OUT_WIDTH
  | OUT_HEIGHT
  | DEC_ERRINFO
deriving DecidableEq, Repr

/-- "The unit is implied by the register's name" (R122). -/
def regUnit : Reg → UnitId
  | .ENC_CMD | .ENC_STATUS | .ENC_WIDTH | .ENC_HEIGHT | .ART_WIDTH | .ART_HEIGHT | .ART_NRUNS => .enc
  | .DEC_CMD | .DEC_STATUS | .DEC_WIDTH | .DEC_HEIGHT | .DEC_NRUNS | .OUT_WIDTH | .OUT_HEIGHT | .DEC_ERRINFO => .dec

/-- The register numbers (R51, R56). -/
def regNumber : Reg → Nat
  | .ENC_CMD | .DEC_CMD => 0
  | .ENC_STATUS | .DEC_STATUS => 1
  | .ENC_WIDTH | .DEC_WIDTH => 2
  | .ENC_HEIGHT | .DEC_HEIGHT => 3
  | .ART_WIDTH | .DEC_NRUNS => 4
  | .ART_HEIGHT | .OUT_WIDTH => 5
  | .ART_NRUNS | .OUT_HEIGHT => 6
  | .DEC_ERRINFO => 7

/-- The command mnemonics (R104). -/
inductive Cmd where
  | NOP
  | START
  | CLEAR
deriving DecidableEq, Repr

/-- The command codes (R104). -/
def cmdCode : Cmd → Nat
  | .NOP => 0x00
  | .START => 0x01
  | .CLEAR => 0x02

/-- The command register of a unit (R51, R56). -/
def cmdReg : UnitId → Reg
  | .enc => .ENC_CMD
  | .dec => .DEC_CMD

/-- The status register of a unit (R51, R56). -/
def statusReg : UnitId → Reg
  | .enc => .ENC_STATUS
  | .dec => .DEC_STATUS

/-- `WR <reg>, <value>` -/
def WR (r : Reg) (v : Nat) : Turn := .host (.regWrite (regUnit r) (regNumber r) v)

/-- `RD <reg>` -/
def RD (r : Reg) : Turn := .host (.regRead (regUnit r) (regNumber r))

/-- `ST <mem>[<i>], <value>` -/
def ST (m : MemId) (i v : Nat) : Turn := .host (.memWrite m i v)

/-- `LD <mem>[<i>]` -/
def LD (m : MemId) (i : Nat) : Turn := .host (.memRead m i)

/-- `CMD <unit>, <mnemonic>` -/
def CMD (u : UnitId) (c : Cmd) : Turn := WR (cmdReg u) (cmdCode c)

/-- `RESET` -/
def RESET : Turn := .host .reset

/-- `ST <mem>[a..], [v0, v1, ...]` (R123) -/
def STs (m : MemId) : Nat → List Nat → List Turn
  | _, [] => []
  | a, v :: vs => ST m a v :: STs m (a + 1) vs

/-- `WAIT <unit>` (R123) with a given number of status reads: when to stop reading is the HOST's own control
(notes/assumptions/21.md). -/
def WAIT (u : UnitId) (reads : Nat) : List Turn := List.replicate reads (RD (statusReg u))

/-- `ENCODE w, h, [p0, ...]` (R123) up to its `WAIT`. -/
def ENCODE (w h : Nat) (pix : List Byte) : List Turn :=
  STs .pixmem 0 (pix.map BitVec.toNat) ++ [WR .ENC_WIDTH w, WR .ENC_HEIGHT h, CMD .enc .START]

/-- `DECODE w, h, [r0, ...]` (R123) up to its `WAIT`, the runs as `(length, value)`. -/
def DECODE (w h : Nat) (runs : List (Nat × Byte)) : List Turn :=
  STs .drun 0 (runs.map (fun r => pack r.1 r.2)) ++
    [WR .DEC_WIDTH w, WR .DEC_HEIGHT h, WR .DEC_NRUNS runs.length, CMD .dec .START]

end Sys2Proof.Machine.Script
end

