-- ==== Sys2Proof/Safety.lean ====
section
/-! DEFINITION. The terms claims are stated in: the invariants of the machine (R32, R43, R192, R202, R203), the function-level
contract (R200, R201), the artifact and the pixels a state carries (R27, R28), the HOST's duties (R270). -/

namespace Sys2Proof.Machine

/-! ### Values within their widths, memories in canonical form -/

/-- Every listed entry lies inside the memory and fits `ok`. -/
def Memory.Within {α : Type} (depth : Nat) (ok : α → Prop) (m : Memory α) : Prop :=
  (∀ c ∈ m.cells, c.1 < depth ∧ ok c.2) ∧ (∀ c ∈ m.stale, c.1 < depth ∧ ok c.2)

/-- Every register of ENC holds a value of its width (R14, R30), every memory entry of its width (R71). -/
structure EncInRange (p : Param) (e : EncUnit) : Prop where
  cfgWidth : e.cfgWidth < 2 ^ p.dimW
  cfgHeight : e.cfgHeight < 2 ^ p.dimW
  w : e.w < 2 ^ p.dimW
  h : e.h < 2 ^ p.dimW
  cap : e.cap < 2 ^ p.lenW
  idx : e.idx < 2 ^ p.lenW
  nruns : e.nruns < 2 ^ p.lenW
  len : ∀ r, e.run = some r → r.length < 2 ^ p.lenW
  pixmem : e.pixmem.wf ∧ e.pixmem.Within p.depth (fun _ => True)
  erun : e.erun.wf ∧ e.erun.Within p.depth (fun v => v < 2 ^ p.runW)

/-- Every register of DEC holds a value of its width (R14, R42), every memory entry of its width (R71). -/
structure DecInRange (p : Param) (d : DecUnit) : Prop where
  info : d.info < 2 ^ p.lenW
  cfgWidth : d.cfgWidth < 2 ^ p.dimW
  cfgHeight : d.cfgHeight < 2 ^ p.dimW
  cfgNruns : d.cfgNruns < 2 ^ p.lenW
  w : d.w < 2 ^ p.dimW
  h : d.h < 2 ^ p.dimW
  cap : d.cap < 2 ^ p.lenW
  nruns : d.nruns < 2 ^ p.lenW
  ridx : d.ridx < 2 ^ p.lenW
  cur : d.cur < 2 ^ p.lenW
  drun : d.drun.wf ∧ d.drun.Within p.depth (fun v => v < 2 ^ p.runW)
  outmem : d.outmem.wf ∧ d.outmem.Within p.depth (fun _ => True)

/-! ### The units' own invariants -/

/-- What holds of ENC between any two steps, whatever the HOST does (R32, R38, R40, R202 (a), (b), (c) in part, (e)). -/
structure EncConsistent (e : EncUnit) : Prop where
  /-- R34, R202 (a) -/
  cap_eq : e.cap = e.w * e.h
  /-- R32: `ENC.err ≠ 0` exactly when `ENC.state = ERR`, and then it is `EmptyInputError` -/
  err_state : (e.err = .none ↔ e.state ≠ .err) ∧ (e.err = .none ∨ e.err = .emptyInput)
  /-- R38: a run is open only while BUSY -/
  open_busy : e.run ≠ none → e.state = .busy
  /-- R202 (a), (b), (e) -/
  busy : e.state = .busy → 1 ≤ e.cap ∧ e.idx ≤ e.cap ∧ (e.run = none ↔ e.idx = 0) ∧ (e.run = none → e.nruns = 0)
  /-- R202 (c), (e), R40 -/
  opened : ∀ r, e.run = some r → 1 ≤ r.length ∧ r.length ≤ e.idx ∧ e.nruns < e.idx
  /-- R40, R211: in DONE `1 ≤ ENC.nruns ≤ ENC.cap`, and the scan has reached the end -/
  done : e.state = .done → 1 ≤ e.nruns ∧ e.nruns ≤ e.cap ∧ e.idx = e.cap

/-- What holds of DEC between any two steps, whatever the HOST does (R43, R203 (a), (e) in part). -/
structure DecConsistent (d : DecUnit) : Prop where
  /-- R44, R203 (a) -/
  cap_eq : d.cap = d.w * d.h
  /-- R43: `DEC.err` is 0 when `DEC.state ≠ ERR` and one of two codes otherwise -/
  err_state : (d.err = .none ↔ d.state ≠ .err) ∧ (d.err = .none ∨ d.err = .lengthMismatch ∨ d.err = .malformedArtifact)
  /-- R43: `DEC.info` is 0 when `DEC.state ≠ ERR` -/
  info_state : d.state ≠ .err → d.info = 0
  /-- R203 (a) -/
  frame : d.state = .busy ∨ d.state = .done → 1 ≤ d.cap ∧ d.ridx ≤ d.nruns ∧ d.cur ≤ d.cap
  /-- R203 (e) -/
  done : d.state = .done → d.ridx = d.nruns ∧ d.cur = d.cap

/-- The invariant of the machine. -/
structure Inv (s : State) : Prop where
  encRange : EncInRange s.param s.enc
  decRange : DecInRange s.param s.dec
  enc : EncConsistent s.enc
  dec : DecConsistent s.dec

/-! ### The function-level contract -/

/-- A Run (R26): `(length, value)`. -/
structure Run where
  length : Nat
  value : Byte
deriving DecidableEq, Repr

/-- An EncodedArtifact (R28). -/
structure Artifact where
  width : Nat
  height : Nat
  runs : List Run
deriving DecidableEq, Repr

/-- `expand(runs)` (R15). -/
def expand : List Run → List Byte
  | [] => []
  | r :: rs => List.replicate r.length r.value ++ expand rs

/-- The sum of the run lengths (R207). -/
def sumLengths : List Run → Nat
  | [] => 0
  | r :: rs => r.length + sumLengths rs

/-- The loop of `encode` (R200) with its variables `value`, `length` and `runs`, and the append after it. -/
def encodeLoop (value : Byte) (length : Nat) (runs : List Run) : List Byte → List Run
  | [] => runs ++ [⟨length, value⟩]
  | p :: ps =>
    if p ≠ value then encodeLoop p 1 (runs ++ [⟨length, value⟩]) ps
    else encodeLoop value (length + 1) runs ps

/-- The runs of `encode` (R200): value = the first pixel, length = 0, then the loop over all pixels. -/
def encodeRuns : List Byte → List Run
  | [] => []
  | p :: ps => encodeLoop p 0 [] (p :: ps)

/-- `encode(width, height, pix)` (R200). -/
def encodeFn (width height : Nat) (pix : List Byte) : Except ErrCode Artifact :=
  if width * height = 0 then .error .emptyInput else .ok ⟨width, height, encodeRuns pix⟩

/-- The loop of `decode` (R201): run index `i`, and `buf` the pixels written so far, whose number is the cursor. -/
def decodeLoop (cap i : Nat) (buf : List Byte) : List Run → Except (ErrCode × Nat) (List Byte)
  | [] => if buf.length = cap then .ok buf else .error (.lengthMismatch, i)
  | r :: rs =>
    if r.length = 0 then .error (.malformedArtifact, i)
    else if cap - buf.length < r.length then .error (.lengthMismatch, i)
    else decodeLoop cap (i + 1) (buf ++ List.replicate r.length r.value) rs

/-- `decode(width, height, runs)` (R201): the flat buffer, or the error with its argument. -/
def decodeFn (width height : Nat) (runs : List Run) : Except (ErrCode × Nat) (List Byte) :=
  if width * height = 0 then .error (.malformedArtifact, 0) else decodeLoop (width * height) 0 [] runs

/-- No two consecutive runs share the same value (R208). -/
def NoAdjacentEqual (rs : List Run) : Prop := rs.IsChain (fun a b => a.value ≠ b.value)

/-! ### What a state carries -/

/-- The Run in a run word (R107). -/
def unpackRun (r : Nat) : Run := ⟨runLength r, runValue r⟩

/-- The runs in `ERUN[0 : ENC.nruns]` (R27, R202). -/
def closedRuns (s : State) : List Run := (List.range s.enc.nruns).map (fun k => unpackRun (readErun s k))

/-- The open run, not yet in any memory (R39). -/
def openRun (s : State) : List Run :=
  match s.enc.run with
  | none => []
  | some r => [⟨r.length, r.value⟩]

/-- The EncodedArtifact at the encoder's output (R28). -/
def artifactOf (s : State) : Artifact := ⟨s.enc.w, s.enc.h, closedRuns s⟩

/-- `PIXMEM[0 : len(pix)] = pix`. -/
def PixelsAre (pix : List Byte) (s : State) : Prop := ∀ i, i < pix.length → pix[i]? = some (readPixmem s i)

/-- `DRUN[0 : len(runs)]` holds the runs. -/
def DrunIs (runs : List Run) (s : State) : Prop := ∀ k, k < runs.length → runs[k]? = some (unpackRun (readDrun s k))

/-- `OUTMEM[0 : len(buf)] = buf`. -/
def OutmemIs (buf : List Byte) (s : State) : Prop := ∀ i, i < buf.length → buf[i]? = some (readOutmem s i)

/-- The frame ENC is in, or has ended, is a frame on the pixels `pix` (R202): while BUSY the input still holds them, and closed
runs and open run together expand to the part scanned; in DONE the runs expand to all of them. -/
structure EncFrame (pix : List Byte) (s : State) : Prop where
  size : pix.length = s.enc.cap
  input : s.enc.state = .busy → PixelsAre pix s
  scanned : s.enc.state = .busy → expand (closedRuns s ++ openRun s) = pix.take s.enc.idx
  positive : ∀ r ∈ closedRuns s, 1 ≤ r.length
  maximal : NoAdjacentEqual (closedRuns s ++ openRun s)
  whole : s.enc.state = .done → expand (closedRuns s) = pix

/-- The frame DEC is in, or has ended, is a frame on the runs `runs` (R203): while BUSY the input still holds them; the cursor is
the sum of the lengths consumed, each at least 1, and the buffer holds their expansion. -/
structure DecFrame (runs : List Run) (s : State) : Prop where
  size : runs.length = s.dec.nruns
  input : s.dec.state = .busy → DrunIs runs s
  cursor : s.dec.cur = sumLengths (runs.take s.dec.ridx)
  positive : ∀ r ∈ runs.take s.dec.ridx, 1 ≤ r.length
  filled : OutmemIs (expand (runs.take s.dec.ridx)) s

/-! ### The schedule and the HOST's duties -/

/-- The next turn is a HOST write into the input of the frame that unit `u` is BUSY with, which R270 forbids to the HOST. -/
def breaksDuty (u : UnitId) (s : State) : Bool :=
  match u, s.turns with
  | .enc, .host (.memWrite .pixmem i _) :: _ => decide (s.enc.state = .busy ∧ i < s.enc.cap)
  | .dec, .host (.memWrite .drun i _) :: _ => decide (s.dec.state = .busy ∧ i < s.dec.nruns)
  | _, _ => false

/-- The next turn is a Reset. -/
def resetsNext (s : State) : Bool :=
  match s.turns with
  | .host .reset :: _ => true
  | _ => false

/-- The next turn is a HOST transaction the ports cannot carry (notes/assumptions/14.md). -/
def inexpressible (s : State) : Bool :=
  match s.turns with
  | .host op :: _ => !op.expressible s.param
  | _ => false

/-- The next turn is a write of command code `c` to the command register of unit `u` (R104). -/
def commands (u : UnitId) (c : Byte) (s : State) : Bool :=
  match s.turns with
  | .host (.regWrite v 0 n) :: _ => decide (v = u ∧ BitVec.ofNat 8 n = c)
  | _ => false

/-- How many steps ENC still takes until the frame it is in is DONE (R141). -/
def encStepsLeft (s : State) : Nat := if s.enc.state = .busy then s.enc.cap - s.enc.idx + 1 else 0

/-- How many steps DEC still takes at most until the frame it is in has ended (R170). -/
def decStepsLeft (s : State) : Nat := if s.dec.state = .busy then s.dec.nruns - s.dec.ridx + 1 else 0

/-- A turn that can be taken and leaves a frame of ENC over `PIXMEM[0 : cap]` alone: ENC's and DEC's turns, and every HOST
transaction but a Reset, a `START` or `CLEAR` of ENC and a write into that input (R94, R270). -/
def encQuiet (p : Param) (cap : Nat) : Turn → Bool
  | .enc | .dec => true
  | .host .reset => false
  | .host (.memWrite .pixmem i v) => HostOp.expressible p (.memWrite .pixmem i v) && decide (cap ≤ i)
  | .host (.regWrite .enc 0 v) => decide (v % 256 ≠ 1 ∧ v % 256 ≠ 2)
  | .host op => op.expressible p

/-- The same for a frame of DEC over `DRUN[0 : n]`. -/
def decQuiet (p : Param) (n : Nat) : Turn → Bool
  | .enc | .dec => true
  | .host .reset => false
  | .host (.memWrite .drun i v) => HostOp.expressible p (.memWrite .drun i v) && decide (n ≤ i)
  | .host (.regWrite .dec 0 v) => decide (v % 256 ≠ 1 ∧ v % 256 ≠ 2)
  | .host op => op.expressible p

/-- How many indices `i ≥ 1` of `pix` have `pix[i] ≠ pix[i − 1]` (R211). -/
def changes : List Byte → Nat
  | [] => 0
  | [_] => 0
  | a :: b :: rest => (if a ≠ b then 1 else 0) + changes (b :: rest)

/-- `s` with the turns `ts` before its own. -/
def State.withTurns (s : State) (ts : List Turn) : State := { s with turns := ts ++ s.turns }

/-- The operations of ENC: commands at `ENC_CMD` and steps of the unit. -/
def isEncOp : Instr → Bool
  | .encNop | .encStart | .encClear | .encRsvd _ => true
  | .eOpen | .eExtend | .eClose | .eFlush | .eUnreachable => true
  | .decNop | .decStart | .decClear | .decRsvd _ => false
  | .dRun | .dFinish | .run _ _ | .runZero _ => false

end Sys2Proof.Machine
end

