-- ==== Sys2Proof/Certificates/Slice0/Obligations.lean ====
section
/-! DEFINITION. The statements for the provers: encodings, what a step runs, every operation's effect, the HOST's ports, Reset,
frames, invariants, transitions, the independence of the units, and the codec contract. -/

open Sys2Proof Sys2Proof.Machine

/-! ### Encodings -/

/-- Every well-formed operation survives encoding and decoding (30_encoding.md). -/
def Obligations.DecodeOfEncodeIsTheOperation : Prop :=
  ∀ (p : Param) (i : Instr), i.wf p = true → decode p (encode i) = .ok i

/-- What the decoder reads from a word is well formed and encodes to that word again (30_encoding.md sections 1, 3, 4). That the
word comes back with its don't-care bit cleared, `c.canonical`, is the model's choice (notes/assumptions/17.md): R108 leaves the bit
open. -/
def Obligations.EncodeOfDecodedWordIsTheWord : Prop :=
  ∀ (p : Param) (c : CodeWord) (i : Instr), decode p c = .ok i → i.wf p = true ∧ encode i = c.canonical

/-- A few words of every format, written from the tables of R104, R109, R110 and the vectors V-W1, V-W8. -/
def Obligations.TableWordsDecodeToTheirOperations : Prop :=
  decode Config.defaultParam (.encCmd 0x01#8) = .ok .encStart ∧
  decode Config.defaultParam (.encCmd 0x7F#8) = .ok (.encRsvd 0x7F#8) ∧
  decode Config.defaultParam (.decCmd 0x02#8) = .ok .decClear ∧
  decode Config.defaultParam (.esel 0b001#3) = .ok .eOpen ∧
  decode Config.defaultParam (.esel 0b011#3) = .ok .eExtend ∧
  decode Config.defaultParam (.esel 0b010#3) = .ok .eClose ∧
  decode Config.defaultParam (.esel 0b111#3) = .ok .eFlush ∧
  decode Config.defaultParam (.dsel 0b1#1) = .ok .dFinish ∧
  decode Config.defaultParam (.runWord 0x000000030A) = .ok (.run 3 10#8) ∧
  decode Config.defaultParam (.runWord 0x0000000009) = .ok (.runZero 9#8)

/-- R107: unpacking and packing are inverse, both fields have their widths, and the only illegal word is the one of length 0. -/
def Obligations.RunWordUnpacksAndPacks : Prop :=
  ∀ (p : Param) (length r : Nat) (value : Byte), length < 2 ^ p.lenW → r < 2 ^ p.runW →
    runLength r = r / 2 ^ 8 ∧ (runValue r).toNat = r % 2 ^ 8 ∧ runLength r < 2 ^ p.lenW ∧
    pack length value < 2 ^ p.runW ∧ runLength (pack length value) = length ∧ runValue (pack length value) = value ∧
    pack (runLength r) (runValue r) = r ∧
    decode p (.runWord r) =
      .ok (if runLength r = 0 then .runZero (runValue r) else .run (runLength r) (runValue r))

/-! ### What a step runs -/

/-- A step executes the operation decoded from the word that the taken turn brings, on the state with that turn taken; a HOST
transaction that is no command is performed likewise; a turn that brings nothing passes (notes/assumptions/8.md, 9.md). -/
def Obligations.StepRunsTheDecodedOperation : Prop :=
  ∀ s : State,
    (∀ c i, fetch s = .word c → decode s.param c = .ok i → step s = exec i { s with turns := s.turns.tail }) ∧
    (∀ op, fetch s = .access op → step s = hostAccess op { s with turns := s.turns.tail }) ∧
    (fetch s = .pass → step s = .next { s with turns := s.turns.tail })

/-- R134: which step a BUSY encoder takes at its turn. In IDLE, DONE and ERR it has none: that its turn then passes is the model's
choice (notes/assumptions/9.md), as is the named fault for the vector without a step (19.md). -/
def Obligations.EncoderTurnTakesTheSelectedStep : Prop :=
  ∀ (s : State) (rest : List Turn), s.turns = .enc :: rest →
    (s.enc.state ≠ .busy → step s = .next s.advance) ∧
    (s.enc.state = .busy →
      (s.enc.idx = s.enc.cap → s.enc.run ≠ none → step s = exec .eFlush s.advance) ∧
      (s.enc.idx = s.enc.cap → s.enc.run = none → step s = .fault .encStuck) ∧
      (s.enc.idx ≠ s.enc.cap → s.enc.run = none → step s = exec .eOpen s.advance) ∧
      (∀ r, s.enc.idx ≠ s.enc.cap → s.enc.run = some r →
        (readPixmem s s.enc.idx = r.value → step s = exec .eExtend s.advance) ∧
        (readPixmem s s.enc.idx ≠ r.value → step s = exec .eClose s.advance)))

/-- R164: which step a BUSY decoder takes at its turn, and that the run index is never past the run count. That its turn passes
when it is not BUSY is the model's choice (notes/assumptions/9.md). -/
def Obligations.DecoderTurnTakesTheSelectedStep : Prop :=
  ∀ (s : State) (rest : List Turn), Inv s → s.turns = .dec :: rest →
    (s.dec.state ≠ .busy → step s = .next s.advance) ∧
    (s.dec.state = .busy →
      s.dec.ridx ≤ s.dec.nruns ∧
      (s.dec.ridx < s.dec.nruns → step s = exec .dRun s.advance) ∧
      (s.dec.ridx = s.dec.nruns → step s = exec .dFinish s.advance))

/-- R102, R104: a write to a command register runs the command that the low 8 bits of the value name, at the unit whose port was
written. -/
def Obligations.CommandWriteRunsTheCommandOfItsLowByte : Prop :=
  ∀ (s : State) (rest : List Turn) (v : Nat),
    (s.turns = .host (.regWrite .enc 0 v) :: rest →
      (v % 256 = 0 → step s = exec .encNop s.advance) ∧
      (v % 256 = 1 → step s = exec .encStart s.advance) ∧
      (v % 256 = 2 → step s = exec .encClear s.advance) ∧
      (3 ≤ v % 256 → step s = exec (.encRsvd (BitVec.ofNat 8 v)) s.advance)) ∧
    (s.turns = .host (.regWrite .dec 0 v) :: rest →
      (v % 256 = 0 → step s = exec .decNop s.advance) ∧
      (v % 256 = 1 → step s = exec .decStart s.advance) ∧
      (v % 256 = 2 → step s = exec .decClear s.advance) ∧
      (3 ≤ v % 256 → step s = exec (.decRsvd (BitVec.ofNat 8 v)) s.advance))

/-! ### Commands -/

/-- R130, R133, R160, R163, R113: `NOP` and the reserved codes change nothing, in every state of the unit. -/
def Obligations.NopAndReservedCodesChangeNothing : Prop :=
  (∀ (s : State) (c : Byte), exec .encNop s = .next s ∧ exec (.encRsvd c) s = .next s ∧ exec .decNop s = .next s ∧
    exec (.decRsvd c) s = .next s) ∧
  (∀ (s : State) (rest : List Turn) (u : UnitId) (c : Nat), s.turns = .host (.regWrite u 0 c) :: rest →
    c = 0x00 ∨ (0x03 ≤ c ∧ c ≤ 0xFF) → step s = .next { s with turns := rest })

/-- R131: `ENC.START` is ignored while BUSY; otherwise it latches the configuration and faults with `EmptyInputError` when a
dimension is 0, or begins a frame; the capacity of the largest dimensions fits `LEN_W` bits. -/
def Obligations.EncStartLatchesThenFaultsOrBegins : Prop :=
  ∀ s : State,
    (∀ rest, s.turns = .host (.regWrite .enc 0 0x01) :: rest → step s = exec .encStart { s with turns := rest }) ∧
    (s.enc.state = .busy → exec .encStart s = .next s) ∧
    (s.enc.state ≠ .busy → s.enc.cfgWidth = 0 ∨ s.enc.cfgHeight = 0 →
      exec .encStart s = .next { s with enc := { s.enc with
        w := s.enc.cfgWidth, h := s.enc.cfgHeight, cap := 0, state := .err, err := .emptyInput } }) ∧
    (s.enc.state ≠ .busy → s.enc.cfgWidth ≠ 0 → s.enc.cfgHeight ≠ 0 →
      exec .encStart s = .next { s with enc := { s.enc with
        w := s.enc.cfgWidth, h := s.enc.cfgHeight, cap := s.enc.cfgWidth * s.enc.cfgHeight,
        idx := 0, run := none, nruns := 0, err := .none, state := .busy } }) ∧
    (2 ^ s.param.dimW - 1) * (2 ^ s.param.dimW - 1) < 2 ^ s.param.lenW

/-- R132: `ENC.CLEAR` leaves DONE and ERR for IDLE and is ignored in IDLE and BUSY. -/
def Obligations.EncClearLeavesDoneAndErr : Prop :=
  ∀ s : State,
    (∀ rest, s.turns = .host (.regWrite .enc 0 0x02) :: rest → step s = exec .encClear { s with turns := rest }) ∧
    (s.enc.state = .done ∨ s.enc.state = .err →
      exec .encClear s = .next { s with enc := { s.enc with state := .idle, err := .none } }) ∧
    (s.enc.state = .idle ∨ s.enc.state = .busy → exec .encClear s = .next s)

/-- R161: `DEC.START` is ignored while BUSY; otherwise it latches the configuration and faults with `MalformedArtifactError` when a
dimension is 0, or begins a frame. `OUTMEM` is not written. -/
def Obligations.DecStartLatchesThenFaultsOrBegins : Prop :=
  ∀ s : State,
    (∀ rest, s.turns = .host (.regWrite .dec 0 0x01) :: rest → step s = exec .decStart { s with turns := rest }) ∧
    (s.dec.state = .busy → exec .decStart s = .next s) ∧
    (s.dec.state ≠ .busy → s.dec.cfgWidth = 0 ∨ s.dec.cfgHeight = 0 →
      exec .decStart s = .next { s with dec := { s.dec with
        w := s.dec.cfgWidth, h := s.dec.cfgHeight, nruns := s.dec.cfgNruns, cap := 0,
        state := .err, err := .malformedArtifact, info := 0 } }) ∧
    (s.dec.state ≠ .busy → s.dec.cfgWidth ≠ 0 → s.dec.cfgHeight ≠ 0 →
      exec .decStart s = .next { s with dec := { s.dec with
        w := s.dec.cfgWidth, h := s.dec.cfgHeight, nruns := s.dec.cfgNruns, cap := s.dec.cfgWidth * s.dec.cfgHeight,
        ridx := 0, cur := 0, err := .none, info := 0, state := .busy } })

/-- R162: `DEC.CLEAR` leaves DONE and ERR for IDLE and is ignored in IDLE and BUSY. -/
def Obligations.DecClearLeavesDoneAndErr : Prop :=
  ∀ s : State,
    (∀ rest, s.turns = .host (.regWrite .dec 0 0x02) :: rest → step s = exec .decClear { s with turns := rest }) ∧
    (s.dec.state = .done ∨ s.dec.state = .err →
      exec .decClear s = .next { s with dec := { s.dec with state := .idle, err := .none, info := 0 } }) ∧
    (s.dec.state = .idle ∨ s.dec.state = .busy → exec .decClear s = .next s)

/-- R191: with dimensions of `DIM_W` bits the capacity is the exact product, fits `LEN_W` bits, and is 0 exactly when a dimension
is. -/
def Obligations.CapacityIsTheExactProduct : Prop :=
  ∀ (s t : State), s.enc.cfgWidth < 2 ^ s.param.dimW → s.enc.cfgHeight < 2 ^ s.param.dimW →
    s.dec.cfgWidth < 2 ^ s.param.dimW → s.dec.cfgHeight < 2 ^ s.param.dimW →
    (s.enc.state ≠ .busy → exec .encStart s = .next t →
      t.enc.cap = s.enc.cfgWidth * s.enc.cfgHeight ∧
      t.enc.cap ≤ 2 ^ s.param.lenW - 2 ^ (s.param.dimW + 1) + 1 ∧ t.enc.cap < 2 ^ s.param.lenW ∧
      (t.enc.cap = 0 ↔ s.enc.cfgWidth = 0 ∨ s.enc.cfgHeight = 0)) ∧
    (s.dec.state ≠ .busy → exec .decStart s = .next t →
      t.dec.cap = s.dec.cfgWidth * s.dec.cfgHeight ∧
      t.dec.cap ≤ 2 ^ s.param.lenW - 2 ^ (s.param.dimW + 1) + 1 ∧ t.dec.cap < 2 ^ s.param.lenW ∧
      (t.dec.cap = 0 ↔ s.dec.cfgWidth = 0 ∨ s.dec.cfgHeight = 0)) ∧
    (2 ^ s.param.dimW - 1) ^ 2 = 2 ^ s.param.lenW - 2 ^ (s.param.dimW + 1) + 1 ∧
    (s.param.dimW = 16 → 2 ^ s.param.lenW - 2 ^ (s.param.dimW + 1) + 1 = 0xFFFE0001)

/-! ### Steps of the encoder -/

/-- R135: `E.OPEN` opens a run of length 1 with the scanned pixel; it is the first step of a frame. -/
def Obligations.EncOpenStartsARunOfLengthOne : Prop :=
  ∀ s : State, s.enc.state = .busy → s.enc.idx < s.enc.cap → s.enc.cap < 2 ^ s.param.lenW → s.enc.run = none →
    decodeEsel (esel s) = .eOpen ∧
    exec .eOpen s = .next { s with enc := { s.enc with
      run := some { value := readPixmem s s.enc.idx, length := 1 }, idx := s.enc.idx + 1 } } ∧
    (Inv s → s.enc.idx = 0 ∧ s.enc.nruns = 0)

/-- R136: `E.EXTEND` makes the open run longer by 1; the addition never overflows. -/
def Obligations.EncExtendLengthensTheOpenRun : Prop :=
  ∀ (s : State) (r : OpenRun), s.enc.state = .busy → s.enc.idx < s.enc.cap → s.enc.cap < 2 ^ s.param.lenW →
    s.enc.run = some r → readPixmem s s.enc.idx = r.value →
    (r.length ≤ s.enc.idx →
      exec .eExtend s = .next { s with enc := { s.enc with
        run := some { value := r.value, length := r.length + 1 }, idx := s.enc.idx + 1 } }) ∧
    (Inv s → r.length ≤ s.enc.idx)

/-- R137: `E.CLOSE` appends the open run with its values from before the step and opens a run of length 1 with the new pixel. -/
def Obligations.EncCloseAppendsTheOpenRun : Prop :=
  ∀ (s : State) (r : OpenRun), s.enc.state = .busy → s.enc.idx < s.enc.cap → s.enc.cap < 2 ^ s.param.lenW →
    s.enc.run = some r → readPixmem s s.enc.idx ≠ r.value → s.enc.nruns < s.enc.idx →
    ∃ t, exec .eClose s = .next t ∧
      t = { s with enc := { s.enc with
        erun := t.enc.erun, nruns := s.enc.nruns + 1,
        run := some { value := readPixmem s s.enc.idx, length := 1 }, idx := s.enc.idx + 1 } } ∧
      (∀ k, readErun t k = if k = s.enc.nruns then r.length * 256 + r.value.toNat else readErun s k) ∧
      (Inv s → 1 ≤ r.length)

/-- R138: `E.FLUSH` appends the final run and ends the frame in DONE. -/
def Obligations.EncFlushAppendsTheFinalRun : Prop :=
  ∀ (s : State) (r : OpenRun), s.enc.state = .busy → s.enc.idx = s.enc.cap → s.enc.cap < 2 ^ s.param.lenW →
    s.enc.run = some r → s.enc.nruns < s.enc.idx →
    ∃ t, exec .eFlush s = .next t ∧
      t = { s with enc := { s.enc with
        erun := t.enc.erun, nruns := s.enc.nruns + 1, run := none, state := .done } } ∧
      (∀ k, readErun t k = if k = s.enc.nruns then r.length * 256 + r.value.toNat else readErun s k) ∧
      (s.enc.err = .none → encStatus t = 0x02#8 ∧ doneOutput .enc t = true)

/-- R114: the vector `ESEL = 10x` has no step, so the machine is stuck there, and no state that meets the invariant has it. -/
def Obligations.UnreachableVectorIsStuckAndUnreached : Prop :=
  ∀ s : State,
    exec .eUnreachable s = .fault .encStuck ∧
    (s.enc.state = .busy → s.enc.idx = s.enc.cap → s.enc.run = none → decodeEsel (esel s) = .eUnreachable) ∧
    (Inv s → s.enc.state = .busy → decodeEsel (esel s) ≠ .eUnreachable)

/-! ### Steps of the decoder -/

/-- R165: `D.RUN` fetches `DRUN[DEC.ridx]`; a length of 0 is a `MalformedArtifactError`, a run past the capacity a
`LengthMismatchError`, both with the run index and with nothing else written; otherwise the run is filled in behind the cursor. -/
def Obligations.DecRunFillsOrFaults : Prop :=
  ∀ (s : State) (r length : Nat) (value : Byte),
    s.dec.state = .busy → s.dec.ridx < s.dec.nruns → s.dec.nruns < 2 ^ s.param.lenW → s.dec.cur ≤ s.dec.cap →
    r = readDrun s s.dec.ridx → length = r / 256 → value.toNat = r % 256 →
    (length = 0 → exec .dRun s = .next { s with dec := { s.dec with
      state := .err, err := .malformedArtifact, info := s.dec.ridx } }) ∧
    (length ≠ 0 → s.dec.cap - s.dec.cur < length → exec .dRun s = .next { s with dec := { s.dec with
      state := .err, err := .lengthMismatch, info := s.dec.ridx } }) ∧
    (length ≠ 0 → length ≤ s.dec.cap - s.dec.cur → ∃ t, exec .dRun s = .next t ∧
      t = { s with dec := { s.dec with
        outmem := t.dec.outmem, cur := s.dec.cur + length, ridx := s.dec.ridx + 1 } } ∧
      (∀ a, readOutmem t a = if s.dec.cur ≤ a ∧ a < s.dec.cur + length then value else readOutmem s a))

/-- R166: `D.FINISH` ends in DONE exactly when the runs filled the buffer, else it is a `LengthMismatchError` with the run
count; an empty run sequence faults so. -/
def Obligations.DecFinishChecksTheSum : Prop :=
  ∀ s : State, s.dec.state = .busy → s.dec.ridx = s.dec.nruns →
    (s.dec.cur = s.dec.cap → exec .dFinish s = .next { s with dec := { s.dec with state := .done } }) ∧
    (s.dec.cur ≠ s.dec.cap → exec .dFinish s = .next { s with dec := { s.dec with
      state := .err, err := .lengthMismatch, info := s.dec.nruns } }) ∧
    (Inv s → s.dec.cur ≠ s.dec.cap → s.dec.cur < s.dec.cap)

/-- R110, R165: `D.RUN` does what the RUNWORD row of the fetched word does, and the rows `RUN` and `RUN.ZERO` have the outcomes of
R165. That `exec` of a row takes the word as handed over is the model's choice (notes/assumptions/22.md). -/
def Obligations.RunWordRowsAreWhatDRunInterprets : Prop :=
  ∀ s : State,
    exec .dRun s = exec (decodeRunWord (readDrun s s.dec.ridx)) s ∧
    (∀ (length : Nat) (value : Byte), s.dec.state = .busy → s.dec.ridx < s.dec.nruns → s.dec.nruns < 2 ^ s.param.lenW →
      exec (.runZero value) s = .next { s with dec := { s.dec with
        state := .err, err := .malformedArtifact, info := s.dec.ridx } } ∧
      (1 ≤ length → s.dec.cap < s.dec.cur + length → exec (.run length value) s = .next { s with dec := { s.dec with
        state := .err, err := .lengthMismatch, info := s.dec.ridx } }) ∧
      (1 ≤ length → s.dec.cur + length ≤ s.dec.cap → ∃ t, exec (.run length value) s = .next t ∧
        t = { s with dec := { s.dec with
          outmem := t.dec.outmem, cur := s.dec.cur + length, ridx := s.dec.ridx + 1 } } ∧
        (∀ a, readOutmem t a = if s.dec.cur ≤ a ∧ a < s.dec.cur + length then value else readOutmem s a)))

/-! ### Faults -/

/-- R227: an operation of DEC that ends in ERR from BUSY has written no memory entry and no counter. -/
def Obligations.DecoderFaultsArePrecise : Prop :=
  ∀ (i : Instr) (s t : State), s.dec.state = .busy → exec i s = .next t → t.dec.state = .err →
    t = { s with dec := { s.dec with state := .err, err := t.dec.err, info := t.dec.info } } ∧
    (t.dec.err = .lengthMismatch ∨ t.dec.err = .malformedArtifact)

/-- R228: what `DEC.info` records: the index of the offending run, whose word is illegal or does not fit, the run count when the
runs are too short, 0 for a zero dimension at `DEC.START`. -/
def Obligations.DecErrorInfoLocatesTheFault : Prop :=
  ∀ s t : State,
    (exec .dRun s = .next t → t.dec.state = .err →
      t.dec.info = s.dec.ridx ∧ readDrun t t.dec.info = readDrun s s.dec.ridx ∧
      ((t.dec.err = .malformedArtifact ∧ runLength (readDrun t t.dec.info) = 0) ∨
       (t.dec.err = .lengthMismatch ∧ t.dec.cap - t.dec.cur < runLength (readDrun t t.dec.info)))) ∧
    (exec .dFinish s = .next t → t.dec.state = .err →
      t.dec.info = s.dec.nruns ∧ t.dec.err = .lengthMismatch ∧ t.dec.cur ≠ t.dec.cap) ∧
    (s.dec.state ≠ .busy → exec .decStart s = .next t → t.dec.state = .err →
      t.dec.info = 0 ∧ t.dec.err = .malformedArtifact ∧ t.dec.cap = 0)

/-- R230, R232: a unit in ERR takes no step: without a `START`, a `CLEAR` or a Reset only what the HOST writes into the unit's
inputs changes. `CLEAR` goes to IDLE and zeroes the code and the information, `START` begins a new frame or faults again, Reset
goes to IDLE. -/
def Obligations.ErrIsLeftOnlyByCommandOrReset : Prop :=
  ∀ s t : State, step s = .next t →
    (s.enc.state = .err →
      (commands .enc 0x01#8 s = false → commands .enc 0x02#8 s = false → resetsNext s = false →
        t.enc = { s.enc with cfgWidth := t.enc.cfgWidth, cfgHeight := t.enc.cfgHeight, pixmem := t.enc.pixmem }) ∧
      (commands .enc 0x02#8 s = true ∨ resetsNext s = true → t.enc.state = .idle ∧ t.enc.err = .none) ∧
      (commands .enc 0x01#8 s = true → t.enc.state = .busy ∨ (t.enc.state = .err ∧ t.enc.err = .emptyInput))) ∧
    (s.dec.state = .err →
      (commands .dec 0x01#8 s = false → commands .dec 0x02#8 s = false → resetsNext s = false →
        t.dec = { s.dec with
          cfgWidth := t.dec.cfgWidth, cfgHeight := t.dec.cfgHeight, cfgNruns := t.dec.cfgNruns, drun := t.dec.drun }) ∧
      (commands .dec 0x02#8 s = true ∨ resetsNext s = true → t.dec.state = .idle ∧ t.dec.err = .none ∧ t.dec.info = 0) ∧
      (commands .dec 0x01#8 s = true → t.dec.state = .busy ∨ (t.dec.state = .err ∧ t.dec.err = .malformedArtifact)))

/-! ### The HOST's ports -/

/-- The register maps, reads (R51, R52, R53, R55 to R58): registers the rules give a value. -/
def Obligations.RegisterReadsReturnTheirRegisters : Prop :=
  ∀ (s : State) (rest : List Turn) (n v : Nat),
    (s.turns = .host (.regRead .enc n) :: rest →
      (n = 0 ∧ v = 0) ∨ (n = 1 ∧ v = (encStatus s).toNat) ∨ (n = 2 ∧ v = s.enc.cfgWidth) ∨ (n = 3 ∧ v = s.enc.cfgHeight) ∨
      (s.enc.state = .done ∧ ((n = 4 ∧ v = s.enc.w) ∨ (n = 5 ∧ v = s.enc.h) ∨ (n = 6 ∧ v = s.enc.nruns))) →
      step s = .next { s with turns := rest, lastRead := some v }) ∧
    (s.turns = .host (.regRead .dec n) :: rest →
      (n = 0 ∧ v = 0) ∨ (n = 1 ∧ v = (decStatus s).toNat) ∨ (n = 2 ∧ v = s.dec.cfgWidth) ∨ (n = 3 ∧ v = s.dec.cfgHeight) ∨
      (n = 4 ∧ v = s.dec.cfgNruns) ∨ (s.dec.state = .done ∧ ((n = 5 ∧ v = s.dec.w) ∨ (n = 6 ∧ v = s.dec.h))) ∨
      (n = 7 ∧ v = s.dec.info) →
      step s = .next { s with turns := rest, lastRead := some v })

/-- R55, R57: outside DONE the images `ART_*` and `OUT_*` read as an unspecified value of the register's width, a free value drawn
at this read (notes/assumptions/7.md). -/
def Obligations.OutputRegistersAreUnspecifiedOutsideDone : Prop :=
  ∀ (s : State) (rest : List Turn) (n : Nat),
    (s.turns = .host (.regRead .enc n) :: rest → s.enc.state ≠ .done → n = 4 ∨ n = 5 ∨ n = 6 →
      ∃ v, v < 2 ^ (if n = 6 then s.param.lenW else s.param.dimW) ∧
        step s = .next { s with turns := rest, lastRead := some v, draws := s.draws + 1 }) ∧
    (s.turns = .host (.regRead .dec n) :: rest → s.dec.state ≠ .done → n = 5 ∨ n = 6 →
      ∃ v, v < 2 ^ s.param.dimW ∧ step s = .next { s with turns := rest, lastRead := some v, draws := s.draws + 1 })

/-- R50, R41, R49: a write to a configuration register stores the value cut to the register's width, in every state of the unit. -/
def Obligations.ConfigurationWritesAreCutToWidth : Prop :=
  ∀ (s : State) (rest : List Turn) (v : Nat),
    (s.turns = .host (.regWrite .enc 2 v) :: rest →
      step s = .next { s with turns := rest, enc := { s.enc with cfgWidth := v % 2 ^ s.param.dimW } }) ∧
    (s.turns = .host (.regWrite .enc 3 v) :: rest →
      step s = .next { s with turns := rest, enc := { s.enc with cfgHeight := v % 2 ^ s.param.dimW } }) ∧
    (s.turns = .host (.regWrite .dec 2 v) :: rest →
      step s = .next { s with turns := rest, dec := { s.dec with cfgWidth := v % 2 ^ s.param.dimW } }) ∧
    (s.turns = .host (.regWrite .dec 3 v) :: rest →
      step s = .next { s with turns := rest, dec := { s.dec with cfgHeight := v % 2 ^ s.param.dimW } }) ∧
    (s.turns = .host (.regWrite .dec 4 v) :: rest →
      step s = .next { s with turns := rest, dec := { s.dec with cfgNruns := v % 2 ^ s.param.lenW } })

/-- R59: writes to read-only registers and to unmapped numbers are ignored; reads of unmapped numbers return some value. -/
def Obligations.ReadOnlyAndUnmappedRegistersIgnoreWrites : Prop :=
  ∀ (s : State) (rest : List Turn) (n v : Nat),
    (s.turns = .host (.regWrite .enc n v) :: rest → n = 1 ∨ 4 ≤ n → step s = .next { s with turns := rest }) ∧
    (s.turns = .host (.regWrite .dec n v) :: rest → n = 1 ∨ 5 ≤ n → step s = .next { s with turns := rest }) ∧
    (s.turns = .host (.regRead .enc n) :: rest → 7 ≤ n →
      ∃ x t, step s = .next t ∧ t.lastRead = some x ∧ t.enc = s.enc ∧ t.dec = s.dec ∧ t.turns = rest) ∧
    (s.turns = .host (.regRead .dec n) :: rest → 8 ≤ n →
      ∃ x t, step s = .next t ∧ t.lastRead = some x ∧ t.enc = s.enc ∧ t.dec = s.dec ∧ t.turns = rest)

/-- R74: a HOST write to `PIXMEM` or `DRUN` changes that one entry, a HOST write to `ERUN` or `OUTMEM` is ignored. -/
def Obligations.HostMemoryWritesReachOnlyTheInputs : Prop :=
  ∀ (s : State) (rest : List Turn) (m : MemId) (i v : Nat), s.turns = .host (.memWrite m i v) :: rest →
    i < 2 ^ s.param.lenW → v < 2 ^ entryWidth s.param m →
    ∃ t, step s = .next t ∧ t = { s with
        turns := rest, enc := { s.enc with pixmem := t.enc.pixmem }, dec := { s.dec with drun := t.dec.drun } } ∧
      (∀ a, (readPixmem t a).toNat = if m = .pixmem ∧ a = i then v else (readPixmem s a).toNat) ∧
      (∀ a, readDrun t a = if m = .drun ∧ a = i then v else readDrun s a) ∧
      (∀ a, readErun t a = readErun s a) ∧ (∀ a, readOutmem t a = readOutmem s a)

/-- R74, R73, R76: what a HOST read of a memory returns: the entry for `PIXMEM` and `DRUN`; for `ERUN` and `OUTMEM` the entry in
DONE and inside the frame's region. In the undefined regions (R95 in 20_memory.md section 5; 93 U4), `ERUN` and `OUTMEM` outside DONE,
`ERUN` from `ART_NRUNS` on and `OUTMEM` from `DEC.cap` on in DONE, it is an unspecified value of the entry's width, not the stored
one: a free value drawn at this read (notes/assumptions/7.md). -/
def Obligations.HostMemoryReadsReturnDefinedEntries : Prop :=
  ∀ (s : State) (rest : List Turn) (m : MemId) (i : Nat), s.turns = .host (.memRead m i) :: rest → i < 2 ^ s.param.lenW →
    (m = .pixmem → step s = .next { s with turns := rest, lastRead := some (readPixmem s i).toNat }) ∧
    (m = .drun → step s = .next { s with turns := rest, lastRead := some (readDrun s i) }) ∧
    (m = .erun → s.enc.state = .done → i < s.enc.nruns →
      step s = .next { s with turns := rest, lastRead := some (readErun s i) }) ∧
    (m = .outmem → s.dec.state = .done → i < s.dec.cap →
      step s = .next { s with turns := rest, lastRead := some (readOutmem s i).toNat }) ∧
    (m = .erun ∧ (s.enc.state ≠ .done ∨ s.enc.nruns ≤ i) ∨ m = .outmem ∧ (s.dec.state ≠ .done ∨ s.dec.cap ≤ i) →
      ∃ x, x < 2 ^ entryWidth s.param m ∧
        step s = .next { s with turns := rest, lastRead := some x, draws := s.draws + 1 })

/-- R82: a HOST read changes no register and no memory entry, and reading again what is defined returns the same value. -/
def Obligations.HostReadsHaveNoSideEffect : Prop :=
  ∀ (s t : State) (rest : List Turn) (op : HostOp), s.turns = .host op :: rest →
    (∃ u n, op = .regRead u n) ∨ (∃ m i, op = .memRead m i) → step s = .next t →
    t.enc = s.enc ∧ t.dec = s.dec ∧ t.param = s.param ∧ t.resets = s.resets ∧ t.turns = rest ∧
    (t.draws = s.draws → ∃ t', step (t.withTurns [.host op]) = .next t' ∧ t'.lastRead = t.lastRead)

/-- R53, R67: the fields of the status words and, in states that meet the invariant, their reachable values; the six level outputs
mirror the two states. -/
def Obligations.StatusWordsTakeTheReachableValues : Prop :=
  ∀ s : State,
    (encStatus s).toNat % 4 = (match s.enc.state with | .idle => 0 | .busy => 1 | .done => 2 | .err => 3) ∧
    (encStatus s).toNat / 4 % 4 = 0 ∧
    (encStatus s).toNat / 16 =
      (match s.enc.err with | .none => 0 | .emptyInput => 1 | .lengthMismatch => 2 | .malformedArtifact => 3) ∧
    (∀ rest v, s.turns = .host (.regWrite .enc 1 v) :: rest → step s = .next { s with turns := rest }) ∧
    (decStatus s).toNat % 4 = (match s.dec.state with | .idle => 0 | .busy => 1 | .done => 2 | .err => 3) ∧
    (decStatus s).toNat / 4 % 4 = 0 ∧
    (decStatus s).toNat / 16 =
      (match s.dec.err with | .none => 0 | .emptyInput => 1 | .lengthMismatch => 2 | .malformedArtifact => 3) ∧
    (∀ rest v, s.turns = .host (.regWrite .dec 1 v) :: rest → step s = .next { s with turns := rest }) ∧
    (Inv s → encStatus s ∈ [0x00#8, 0x01#8, 0x02#8, 0x13#8] ∧ decStatus s ∈ [0x00#8, 0x01#8, 0x02#8, 0x23#8, 0x33#8]) ∧
    (busyOutput .enc s = true ↔ s.enc.state = .busy) ∧ (doneOutput .enc s = true ↔ s.enc.state = .done) ∧
    (errOutput .enc s = true ↔ s.enc.state = .err) ∧
    (busyOutput .dec s = true ↔ s.dec.state = .busy) ∧ (doneOutput .dec s = true ↔ s.dec.state = .done) ∧
    (errOutput .dec s = true ↔ s.dec.state = .err)

/-! ### Reset -/

/-- R62, R63: Reset, in any state, leaves both units IDLE without error and the configuration registers 0, so that a `START` given
then faults; R64: it leaves `ENC.open = 0`, no open run. To the registers that R64 leaves without a value no clause gives one. That
the HOST's turns still to come stay, `t.turns = rest`, is the model's reading (notes/assumptions/8.md, 20.md). -/
def Obligations.ResetLeavesTheResetValues : Prop :=
  ∀ (s : State) (rest : List Turn), s.turns = .host .reset :: rest →
    ∃ t, step s = .next t ∧ t.param = s.param ∧ t.turns = rest ∧
      t.enc.state = .idle ∧ t.enc.err = .none ∧ t.dec.state = .idle ∧ t.dec.err = .none ∧ t.dec.info = 0 ∧
      t.enc.cfgWidth = 0 ∧ t.enc.cfgHeight = 0 ∧ t.dec.cfgWidth = 0 ∧ t.dec.cfgHeight = 0 ∧ t.dec.cfgNruns = 0 ∧
      t.enc.run = none ∧
      (∃ u, exec .encStart t = .next u ∧ u.enc.state = .err ∧ u.enc.err = .emptyInput) ∧
      (∃ u, exec .decStart t = .next u ∧ u.dec.state = .err ∧ u.dec.err = .malformedArtifact)

/-- R260, R65: Reset clears no memory. The model keeps what each entry held, as what an entry that nothing has written since holds
is a free function of (93 U2, notes/assumptions/5.md, 6.md). -/
def Obligations.ResetKeepsWhatTheMemoriesHeld : Prop :=
  ∀ (s : State) (rest : List Turn) (i : Nat), s.turns = .host .reset :: rest →
    ∃ t, step s = .next t ∧
      readPixmem t i = Config.unwrittenPixel .pixmem (s.resets + 1) i
        ((Entries.lookup s.enc.pixmem.cells i).or (Entries.lookup s.enc.pixmem.stale i)) ∧
      readOutmem t i = Config.unwrittenPixel .outmem (s.resets + 1) i
        ((Entries.lookup s.dec.outmem.cells i).or (Entries.lookup s.dec.outmem.stale i)) ∧
      readErun t i = Config.unwrittenRunWord .erun (s.resets + 1) i
        ((Entries.lookup s.enc.erun.cells i).or (Entries.lookup s.enc.erun.stale i)) % 2 ^ s.param.runW ∧
      readDrun t i = Config.unwrittenRunWord .drun (s.resets + 1) i
        ((Entries.lookup s.dec.drun.cells i).or (Entries.lookup s.dec.drun.stale i)) % 2 ^ s.param.runW

/-! ### Invariants -/

/-- The state after power-on meets the invariant, for every parameter. That it does rests on the model's choice of 0 for the registers
to which R64 gives no value (notes/assumptions/3.md). That `State.reset` is the power-on state of the default parameter is the model's
choice too (notes/assumptions/1.md). -/
def Obligations.PowerOnMeetsTheInvariant : Prop :=
  (∀ p : Param, Inv (State.powerOn p)) ∧ State.reset = State.powerOn Config.defaultParam

/-- Every step of every agent keeps the invariant: registers within their widths, memories canonical and in range, codes and
states in step (R32, R43), counters ordered (R202, R203). The clauses `cap = w * h` and the widths of `w`, `h`, `cap` and the counters
are claimed in every state; right after a Reset, where R64 gives these registers no value, they hold by the model's choice of 0
(notes/assumptions/3.md). -/
def Obligations.EveryStepKeepsTheInvariant : Prop :=
  ∀ s t : State, Inv s → step s = .next t → Inv t

/-- R11, R23: no step changes the parameter. That a step takes exactly the first turn off the list, `t.turns = s.turns.tail`, is the
model's choice of a schedule (notes/assumptions/8.md); R22 fixes no order. -/
def Obligations.EveryStepTakesOneTurnAndKeepsTheParameter : Prop :=
  ∀ s t : State, step s = .next t → t.param = s.param ∧ t.turns = s.turns.tail

/-- In a state that meets the invariant every step answers a next state, unless the HOST asks for an access its ports cannot
carry, which is refused by that name (notes/assumptions/14.md). -/
def Obligations.EveryExpressibleStepCompletes : Prop :=
  ∀ s : State, Inv s →
    (inexpressible s = false → ∃ t, step s = .next t) ∧ (inexpressible s = true → step s = .refused .accessNotExpressible)

/-! ### Frames -/

/-- What an operation of ENC leaves unchanged. -/
def Obligations.EncOperationsFrame : Prop :=
  ∀ (i : Instr) (s t : State), isEncOp i = true → exec i s = .next t →
    t.dec = s.dec ∧ t.param = s.param ∧ t.turns = s.turns ∧ t.lastRead = s.lastRead ∧ t.resets = s.resets ∧
    t.draws = s.draws ∧ t.enc.cfgWidth = s.enc.cfgWidth ∧ t.enc.cfgHeight = s.enc.cfgHeight ∧
    (∀ a, readPixmem t a = readPixmem s a) ∧
    (i ≠ .encStart → t.enc.w = s.enc.w ∧ t.enc.h = s.enc.h ∧ t.enc.cap = s.enc.cap) ∧
    (i ∉ [.encStart, .eOpen, .eExtend, .eClose] → t.enc.idx = s.enc.idx) ∧
    (i ∉ [.encStart, .eOpen, .eExtend, .eClose, .eFlush] → t.enc.run = s.enc.run) ∧
    (i ∉ [.encStart, .eClose, .eFlush] → t.enc.nruns = s.enc.nruns) ∧
    (i ∉ [.encStart, .encClear] → t.enc.err = s.enc.err) ∧
    (i ∉ [.encStart, .encClear, .eFlush] → t.enc.state = s.enc.state) ∧
    (∀ a, (i = .eClose ∨ i = .eFlush → a ≠ s.enc.nruns) → readErun t a = readErun s a)

/-- What an operation of DEC leaves unchanged: of `OUTMEM` everything but the run that a non-faulting `D.RUN` fills. -/
def Obligations.DecOperationsFrame : Prop :=
  ∀ (i : Instr) (s t : State), isEncOp i = false → exec i s = .next t →
    t.enc = s.enc ∧ t.param = s.param ∧ t.turns = s.turns ∧ t.lastRead = s.lastRead ∧ t.resets = s.resets ∧
    t.draws = s.draws ∧ t.dec.cfgWidth = s.dec.cfgWidth ∧ t.dec.cfgHeight = s.dec.cfgHeight ∧
    t.dec.cfgNruns = s.dec.cfgNruns ∧ (∀ a, readDrun t a = readDrun s a) ∧
    (i ≠ .decStart → t.dec.w = s.dec.w ∧ t.dec.h = s.dec.h ∧ t.dec.cap = s.dec.cap ∧ t.dec.nruns = s.dec.nruns) ∧
    (i = .decNop ∨ i = .decClear ∨ i = .dFinish ∨ (∃ c, i = .decRsvd c) ∨ (∃ v, i = .runZero v) →
      t.dec.ridx = s.dec.ridx ∧ t.dec.cur = s.dec.cur) ∧
    (i = .decNop ∨ (∃ c, i = .decRsvd c) → t.dec.state = s.dec.state ∧ t.dec.err = s.dec.err ∧ t.dec.info = s.dec.info) ∧
    (i ≠ .decStart → i ≠ .decClear → t.dec.state ≠ .err → t.dec.err = s.dec.err ∧ t.dec.info = s.dec.info) ∧
    (∀ a, (i = .dRun → ¬(s.dec.cur ≤ a ∧ a < s.dec.cur + runLength (readDrun s s.dec.ridx))) →
      (∀ length value, i = .run length value → ¬(s.dec.cur ≤ a ∧ a < s.dec.cur + length)) →
      readOutmem t a = readOutmem s a) ∧
    (t.dec.state = .err → ∀ a, readOutmem t a = readOutmem s a)

/-- R34, R44, R273: the latches of a BUSY unit change by no step but a Reset, so a write to the configuration registers has no
effect on the frame in progress. -/
def Obligations.LatchesAreConstantDuringAFrame : Prop :=
  ∀ s t : State, step s = .next t → resetsNext s = false →
    (s.enc.state = .busy → t.enc.w = s.enc.w ∧ t.enc.h = s.enc.h ∧ t.enc.cap = s.enc.cap) ∧
    (s.dec.state = .busy →
      t.dec.w = s.dec.w ∧ t.dec.h = s.dec.h ∧ t.dec.cap = s.dec.cap ∧ t.dec.nruns = s.dec.nruns)

/-- R29, R84: no step of the machine but a HOST write or a Reset changes an input: the units never write what they read. -/
def Obligations.UnitsNeverWriteTheirInputs : Prop :=
  ∀ s t : State, step s = .next t → (∀ op rest, s.turns = .host op :: rest → ∃ u v, op = .regWrite u 0 v) →
    t.enc.pixmem = s.enc.pixmem ∧ t.enc.cfgWidth = s.enc.cfgWidth ∧ t.enc.cfgHeight = s.enc.cfgHeight ∧
    t.dec.drun = s.dec.drun ∧ t.dec.cfgWidth = s.dec.cfgWidth ∧ t.dec.cfgHeight = s.dec.cfgHeight ∧
    t.dec.cfgNruns = s.dec.cfgNruns

/-! ### Transitions of the units -/

/-- R31: the encodings of the states and the only transitions of `ENC.state`. -/
def Obligations.EncStateTransitions : Prop :=
  (UnitState.idle.code = 0 ∧ UnitState.busy.code = 1 ∧ UnitState.done.code = 2 ∧ UnitState.err.code = 3) ∧
  ∀ s t : State, step s = .next t →
    t.enc.state = s.enc.state ∨
    (commands .enc 0x01#8 s = true ∧ s.enc.state ≠ .busy ∧ (t.enc.state = .busy ∨ t.enc.state = .err)) ∨
    (fetch s = .word (.esel (esel s)) ∧ decodeEsel (esel s) = .eFlush ∧ s.enc.state = .busy ∧ t.enc.state = .done) ∨
    (commands .enc 0x02#8 s = true ∧ (s.enc.state = .done ∨ s.enc.state = .err) ∧ t.enc.state = .idle) ∨
    (resetsNext s = true ∧ t.enc.state = .idle)

/-- R43: the only transitions of `DEC.state`. -/
def Obligations.DecStateTransitions : Prop :=
  ∀ s t : State, step s = .next t →
    t.dec.state = s.dec.state ∨
    (commands .dec 0x01#8 s = true ∧ s.dec.state ≠ .busy ∧ (t.dec.state = .busy ∨ t.dec.state = .err)) ∨
    (fetch s = .word (.dsel (dsel s)) ∧ decodeDsel (dsel s) = .dRun ∧ s.dec.state = .busy ∧ t.dec.state = .err) ∨
    (fetch s = .word (.dsel (dsel s)) ∧ decodeDsel (dsel s) = .dFinish ∧ s.dec.state = .busy ∧
      (t.dec.state = .done ∨ t.dec.state = .err)) ∨
    (commands .dec 0x02#8 s = true ∧ (s.dec.state = .done ∨ s.dec.state = .err) ∧ t.dec.state = .idle) ∨
    (resetsNext s = true ∧ t.dec.state = .idle)

/-- R29: an output is stable from DONE until a `START` or `CLEAR` on that unit or a Reset. -/
def Obligations.OutputsAreStableInDone : Prop :=
  ∀ s t : State, step s = .next t → resetsNext s = false →
    (s.enc.state = .done → commands .enc 0x01#8 s = false → commands .enc 0x02#8 s = false →
      t.enc.state = .done ∧ artifactOf t = artifactOf s) ∧
    (s.dec.state = .done → commands .dec 0x01#8 s = false → commands .dec 0x02#8 s = false →
      t.dec.state = .done ∧ t.dec.w = s.dec.w ∧ t.dec.h = s.dec.h ∧ ∀ a, readOutmem t a = readOutmem s a)

/-! ### The units are independent -/

/-- R90: a step of ENC and a step of DEC commute. -/
def Obligations.EncAndDecStepsCommute : Prop :=
  ∀ s : State, Host.Core.run core 2 (s.withTurns [.enc, .dec]) = Host.Core.run core 2 (s.withTurns [.dec, .enc])

/-- R21: an operation of one unit neither reads nor writes anything of the other. -/
def Obligations.UnitsShareNoState : Prop :=
  ∀ (i : Instr) (s t : State),
    (isEncOp i = true → ∀ d : DecUnit, exec i s = .next t → exec i { s with dec := d } = .next { t with dec := d }) ∧
    (isEncOp i = false → ∀ e : EncUnit, exec i s = .next t → exec i { s with enc := e } = .next { t with enc := e })

/-! ### The codec contract -/

/-- R202: the encoder's frame on a pixel sequence begins with an accepted `START` and is kept by every step of every agent while
BUSY, if the HOST keeps its duty (R270); the step that ends the frame leaves `expand` of the run memory equal to the pixels. -/
def Obligations.EncFrameIsKeptByEveryStep : Prop :=
  (∀ (pix : List Byte) (s : State), s.enc.state ≠ .busy → 1 ≤ s.enc.cfgWidth * s.enc.cfgHeight →
    pix.length = s.enc.cfgWidth * s.enc.cfgHeight → PixelsAre pix s →
    ∃ t, exec .encStart s = .next t ∧ t.enc.state = .busy ∧ EncFrame pix t) ∧
  (∀ (pix : List Byte) (s t : State), Inv s → EncFrame pix s → s.enc.state = .busy → breaksDuty .enc s = false →
    resetsNext s = false → step s = .next t → (t.enc.state = .busy ∨ t.enc.state = .done) ∧ EncFrame pix t)

/-- R203: the same for the decoder's frame on a run sequence, as long as it does not fault. -/
def Obligations.DecFrameIsKeptByEveryStep : Prop :=
  (∀ (runs : List Run) (s : State), s.dec.state ≠ .busy → 1 ≤ s.dec.cfgWidth * s.dec.cfgHeight →
    runs.length = s.dec.cfgNruns → DrunIs runs s →
    ∃ t, exec .decStart s = .next t ∧ t.dec.state = .busy ∧ DecFrame runs t) ∧
  (∀ (runs : List Run) (s t : State), Inv s → DecFrame runs s → s.dec.state = .busy → breaksDuty .dec s = false →
    resetsNext s = false → step s = .next t → (t.dec.state = .busy ∨ t.dec.state = .done ∨ t.dec.state = .err) ∧
    (t.dec.state ≠ .err → DecFrame runs t))

/-- R141, R281: each step of ENC brings its frame one step nearer to DONE, and no step of another agent moves it, whatever the
HOST does short of a Reset. -/
def Obligations.EncStepsCountDownToDone : Prop :=
  ∀ s t : State, Inv s → s.enc.state = .busy → resetsNext s = false → step s = .next t →
    (fetch s = .word (.esel (esel s)) → encStepsLeft s = encStepsLeft t + 1) ∧
    (fetch s ≠ .word (.esel (esel s)) → encStepsLeft t = encStepsLeft s) ∧
    (encStepsLeft t = 0 → t.enc.state = .done)

/-- R170, R281: each step of DEC brings its frame nearer to its end, by exactly one step unless it faults, and no step of another
agent moves it, whatever the HOST does short of a Reset; when no step is left the frame has ended in DONE or ERR, and it ends in DONE
only by a step of DEC that finds all runs consumed. -/
def Obligations.DecStepsCountDownToTheEnd : Prop :=
  ∀ s t : State, Inv s → s.dec.state = .busy → resetsNext s = false → step s = .next t →
    (fetch s = .word (.dsel (dsel s)) →
      decStepsLeft t < decStepsLeft s ∧ (t.dec.state ≠ .err → decStepsLeft s = decStepsLeft t + 1)) ∧
    (fetch s ≠ .word (.dsel (dsel s)) → decStepsLeft t = decStepsLeft s) ∧
    (decStepsLeft t = 0 → t.dec.state = .done ∨ t.dec.state = .err) ∧
    (t.dec.state = .done → fetch s = .word (.dsel (dsel s)) ∧ s.dec.ridx = s.dec.nruns)

/-- R204: the encoder computes `encode`. From a `START`, over any schedule in which the HOST keeps its duties and leaves the unit
alone, ENC is BUSY until it has taken `cap + 1` of its own steps and from then on DONE with the artifact of `encode`; with an
empty grid it is in ERR with `EmptyInputError` at once. -/
def Obligations.EncoderComputesEncode : Prop :=
  ∀ (s : State) (pix : List Byte) (ts : List Turn), Inv s → s.enc.state ≠ .busy →
    pix.length = s.enc.cfgWidth * s.enc.cfgHeight → PixelsAre pix s →
    (∀ t ∈ ts, encQuiet s.param (s.enc.cfgWidth * s.enc.cfgHeight) t = true) →
    ∃ t, Host.Core.run core (ts.length + 1) (s.withTurns (.host (.regWrite .enc 0 0x01) :: ts)) = .next t ∧
      t.turns = s.turns ∧
      match encodeFn s.enc.cfgWidth s.enc.cfgHeight pix with
      | .error e => t.enc.state = .err ∧ t.enc.err = e
      | .ok a =>
        if ts.count .enc ≤ s.enc.cfgWidth * s.enc.cfgHeight then t.enc.state = .busy
        else t.enc.state = .done ∧ artifactOf t = a

/-- R205: the decoder computes `decode`: after a `START` and `n + 1` turns of DEC it is in DONE with the pixels of `decode`, or in
ERR with the error and the argument of `decode`. -/
def Obligations.DecoderComputesDecode : Prop :=
  ∀ (s : State) (runs : List Run) (ts : List Turn), Inv s → s.dec.state ≠ .busy → runs.length = s.dec.cfgNruns →
    DrunIs runs s → (∀ t ∈ ts, decQuiet s.param runs.length t = true) → runs.length + 1 ≤ ts.count .dec →
    ∃ t, Host.Core.run core (ts.length + 1) (s.withTurns (.host (.regWrite .dec 0 0x01) :: ts)) = .next t ∧
      t.turns = s.turns ∧
      match decodeFn s.dec.cfgWidth s.dec.cfgHeight runs with
      | .error (e, info) => t.dec.state = .err ∧ t.dec.err = e ∧ t.dec.info = info
      | .ok buf => t.dec.state = .done ∧ t.dec.w = s.dec.cfgWidth ∧ t.dec.h = s.dec.cfgHeight ∧
          buf.length = t.dec.cap ∧ buf = expand runs ∧ OutmemIs buf t

/-- R206: the round trip, `decode(encode(g)) = g`. In hardware terms: when ENC is DONE on the pixels `pix` and the HOST has copied the
artifact into the decoder's inputs, a `START` of DEC, over any schedule in which the HOST keeps its duties and leaves DEC alone, ends
in DONE (never ERR) with the same pixels and the same shape once DEC has had `ART_NRUNS + 1` turns. Other turns, of ENC and of the HOST
(a new frame of ENC among them), may stand between. The schedule as a list of turns is the model's (notes/assumptions/8.md). -/
def Obligations.RoundTripReproducesTheGrid : Prop :=
  (∀ (w h : Nat) (pix : List Byte) (a : Artifact), pix.length = w * h → encodeFn w h pix = .ok a →
    a.width = w ∧ a.height = h ∧ decodeFn a.width a.height a.runs = .ok pix) ∧
  ∀ (s : State) (pix : List Byte) (ts : List Turn), Inv s → s.enc.state = .done → EncFrame pix s → s.dec.state ≠ .busy →
    s.dec.cfgWidth = s.enc.w → s.dec.cfgHeight = s.enc.h → s.dec.cfgNruns = s.enc.nruns →
    (∀ k, k < s.enc.nruns → readDrun s k = readErun s k) →
    (∀ t ∈ ts, decQuiet s.param s.enc.nruns t = true) → s.enc.nruns + 1 ≤ ts.count .dec →
    ∃ t, Host.Core.run core (ts.length + 1) (s.withTurns (.host (.regWrite .dec 0 0x01) :: ts)) = .next t ∧ t.turns = s.turns ∧
      t.dec.state = .done ∧ t.dec.w = s.enc.w ∧ t.dec.h = s.enc.h ∧ t.dec.cap = pix.length ∧ OutmemIs pix t

/-- R200: `encode` gives the unique sequence of maximal runs of the pixels. -/
def Obligations.EncodeGivesTheUniqueMaximalRuns : Prop :=
  ∀ (pix : List Byte) (runs : List Run), pix ≠ [] →
    (runs = encodeRuns pix ↔ expand runs = pix ∧ (∀ r ∈ runs, 1 ≤ r.length) ∧ NoAdjacentEqual runs)

/-- R207, R208: the run lengths sum to the number of pixels, and no two consecutive runs share the same value. -/
def Obligations.EncodeConservesLengthsAndNeverMerges : Prop :=
  ∀ (w h : Nat) (pix : List Byte) (a : Artifact), pix.length = w * h → encodeFn w h pix = .ok a →
    sumLengths a.runs = w * h ∧ NoAdjacentEqual a.runs

/-- R209, R210: a uniform grid encodes to one run, a sequence without equal neighbours to as many runs of length 1 as it has
pixels. -/
def Obligations.UniformIsOneRunAndAlternatingIsUnitRuns : Prop :=
  (∀ (n : Nat) (v : Byte), 1 ≤ n → encodeRuns (List.replicate n v) = [⟨n, v⟩]) ∧
  (∀ pix : List Byte, pix.IsChain (fun a b => a ≠ b) → encodeRuns pix = pix.map (fun v => ⟨1, v⟩))

/-- R211: in DONE the run count is 1 and the number of changes of the pixel value, between 1 and the capacity, and 1 for a
uniform grid. -/
def Obligations.RunCountIsOneMoreThanTheChanges : Prop :=
  ∀ (s : State) (pix : List Byte), Inv s → s.enc.state = .done → EncFrame pix s →
    s.enc.nruns = 1 + changes pix ∧ 1 ≤ s.enc.nruns ∧ s.enc.nruns ≤ s.enc.cap ∧
    (∀ v : Byte, (∀ p ∈ pix, p = v) → s.enc.nruns = 1)

/-- R77, R167: in DONE the pixel in row `y`, column `x` of the reconstructed grid is pixel `y · width + x` of the flattened
sequence: rows of `OUT_WIDTH` columns, not transposed. -/
def Obligations.ReconstructedGridIsRowMajor : Prop :=
  ∀ (s : State) (runs : List Run) (y x : Nat), Inv s → s.dec.state = .done → DecFrame runs s → y < s.dec.h → x < s.dec.w →
    y * s.dec.w + x < s.dec.cap ∧ (expand runs)[y * s.dec.w + x]? = some (outPixel s y x)
end

