-- ==== Sys2Proof/Laws/Encoding.lean ====
section
/-! SUPPORT. The laws of the encodings: packing and unpacking run words, and what the step maps answer for the select vector of a
state. -/

namespace Sys2Proof

@[simp] theorem runLength_pack (length : Nat) (value : Byte) : runLength (pack length value) = length := by
  have := value.isLt
  simp only [runLength, pack]; omega

@[simp] theorem runValue_pack (length : Nat) (value : Byte) : runValue (pack length value) = value := by
  apply BitVec.eq_of_toNat_eq
  have := value.isLt
  simp only [runValue, pack, BitVec.toNat_ofNat]; omega

theorem pack_unpack (r : Nat) : pack (runLength r) (runValue r) = r := by
  simp only [pack, runLength, runValue, BitVec.toNat_ofNat]; omega

theorem pack_lt {p : Param} {length : Nat} {value : Byte} (h : length < 2 ^ p.lenW) : pack length value < 2 ^ p.runW := by
  have := value.isLt
  simp only [pack, Param.runW, pow_add]; omega

theorem runLength_lt {p : Param} {r : Nat} (h : r < 2 ^ p.runW) : runLength r < 2 ^ p.lenW := by
  simp only [Param.runW, pow_add] at h
  simp only [runLength]; omega

/-- The step map of ENC (R109) on the bits of a select vector. -/
theorem decodeEsel_bits (e o q : Bool) :
    decodeEsel (BitVec.ofBool e ++ BitVec.ofBool o ++ BitVec.ofBool q) =
      if e then (if o then .eFlush else .eUnreachable)
      else if o then (if q then .eExtend else .eClose) else .eOpen := by
  revert e o q; decide

/-- The step map of DEC (R110) on its select bit. -/
theorem decodeDsel_bit (e : Bool) : decodeDsel (BitVec.ofBool e) = if e then .dFinish else .dRun := by
  revert e; decide

namespace Machine

/-- Which step a BUSY encoder takes (R134). -/
theorem decodeEsel_esel (s : State) :
    decodeEsel (esel s) =
      if s.enc.idx = s.enc.cap then (if s.enc.run = none then .eUnreachable else .eFlush)
      else match s.enc.run with
        | none => .eOpen
        | some r => if scannedPixel s = r.value then .eExtend else .eClose := by
  rw [esel, decodeEsel_bits]
  cases hr : s.enc.run <;> by_cases he : s.enc.idx = s.enc.cap <;> simp [encEnd, encOpen, encEq, hr, he]

/-- Which step a BUSY decoder takes (R164). -/
theorem decodeDsel_dsel (s : State) : decodeDsel (dsel s) = if s.dec.ridx = s.dec.nruns then .dFinish else .dRun := by
  rw [dsel, decodeDsel_bit]
  by_cases h : s.dec.ridx = s.dec.nruns <;> simp [h]

end Machine

end Sys2Proof
end

