-- ==== Sys2Proof/Laws/Memory.lean ====
section
/-! SUPPORT. The laws of memories: reading after writing, filling and Reset, and that every operation keeps the canonical form and
the bounds. -/

namespace Sys2Proof.Machine

variable {α : Type}

/-! ### Lists of entries -/

@[simp] theorem Entries.lookup_nil (i : Nat) : Entries.lookup ([] : Entries α) i = none := rfl

@[simp] theorem Entries.lookup_cons (j : Nat) (v : α) (rest : Entries α) (i : Nat) :
    Entries.lookup ((j, v) :: rest) i = if i = j then some v else Entries.lookup rest i := rfl

@[simp] theorem Entries.lookup_insert (m : Entries α) (i : Nat) (v : α) (k : Nat) :
    Entries.lookup (Entries.insert m i v) k = if k = i then some v else Entries.lookup m k := by
  induction m with
  | nil => rfl
  | cons c rest ih =>
    obtain ⟨j, u⟩ := c
    simp only [Entries.insert]
    split
    · simp
    · split
      · subst_vars
        simp only [Entries.lookup_cons]
        split <;> rfl
      · simp only [Entries.lookup_cons, ih]
        split <;> split <;> first | rfl | omega

theorem Entries.mem_insert {m : Entries α} {i : Nat} {v : α} {c : Nat × α} (h : c ∈ Entries.insert m i v) :
    c = (i, v) ∨ c ∈ m := by
  induction m with
  | nil => simpa [Entries.insert] using h
  | cons d rest ih =>
    obtain ⟨j, u⟩ := d
    simp only [Entries.insert] at h
    split at h
    · simpa using h
    · split at h
      · rcases List.mem_cons.1 h with h | h
        · exact .inl h
        · exact .inr (List.mem_cons_of_mem _ h)
      · rcases List.mem_cons.1 h with h | h
        · exact .inr (h ▸ List.mem_cons_self)
        · exact (ih h).imp_right (List.mem_cons_of_mem _)

theorem Entries.insert_rising {m : Entries α} (h : Entries.Rising m) (i : Nat) (v : α) :
    Entries.Rising (Entries.insert m i v) := by
  induction m with
  | nil => simp [Entries.insert]
  | cons c rest ih =>
    obtain ⟨j, u⟩ := c
    obtain ⟨hj, hrest⟩ := List.pairwise_cons.1 h
    simp only [Entries.insert]
    split
    · next hlt =>
      refine List.pairwise_cons.2 ⟨fun b hb => ?_, h⟩
      rcases List.mem_cons.1 hb with hb | hb
      · subst hb; exact hlt
      · exact Nat.lt_trans hlt (hj b hb)
    · split
      · subst_vars
        exact List.pairwise_cons.2 ⟨hj, hrest⟩
      · refine List.pairwise_cons.2 ⟨fun b hb => ?_, ih hrest⟩
        rcases Entries.mem_insert hb with hb | hb
        · subst hb; show j < i; omega
        · exact hj b hb

theorem Entries.mem_overlay {new old : Entries α} {c : Nat × α} (h : c ∈ Entries.overlay new old) :
    c ∈ new ∨ c ∈ old := by
  induction new with
  | nil => exact .inr h
  | cons d rest ih =>
    rcases Entries.mem_insert (m := Entries.overlay rest old) h with h | h
    · exact .inl (h ▸ List.mem_cons_self)
    · exact (ih h).imp_left (List.mem_cons_of_mem _)

theorem Entries.overlay_rising (new : Entries α) {old : Entries α} (h : Entries.Rising old) :
    Entries.Rising (Entries.overlay new old) := by
  induction new with
  | nil => exact h
  | cons d rest ih => exact Entries.insert_rising ih d.1 d.2

theorem Entries.lookup_overlay (new old : Entries α) (i : Nat) :
    Entries.lookup (Entries.overlay new old) i = (Entries.lookup new i).or (Entries.lookup old i) := by
  induction new with
  | nil => simp [Entries.overlay]
  | cons c rest ih =>
    obtain ⟨j, v⟩ := c
    show Entries.lookup (Entries.insert (Entries.overlay rest old) j v) i = _
    rw [Entries.lookup_insert, Entries.lookup_cons, ih]
    split <;> simp

/-! ### Memories -/

@[simp] theorem Memory.write_stale (m : Memory α) (i : Nat) (v : α) : (m.write i v).stale = m.stale := rfl

/-- A read after a write gives the value written; every other entry reads as before (R82, R86). -/
@[simp] theorem Memory.read_write (m : Memory α) (free : Nat → Option α → α) (i : Nat) (v : α) (k : Nat) :
    (m.write i v).read free k = if k = i then v else m.read free k := by
  simp only [Memory.read, Memory.write, Entries.lookup_insert]
  by_cases h : k = i <;> simp [h]

/-- The entries filled read as the value, every other entry as before (R165, R82). -/
@[simp] theorem Memory.read_fill (m : Memory α) (free : Nat → Option α → α) (start : Nat) (v : α) (n k : Nat) :
    (m.fill start v n).read free k = if start ≤ k ∧ k < start + n then v else m.read free k := by
  induction n generalizing m start with
  | zero => simp [Memory.fill]
  | succ n ih =>
    simp only [Memory.fill, ih, Memory.read_write]
    by_cases h1 : start + 1 ≤ k ∧ k < start + 1 + n
    · rw [if_pos h1, if_pos (by omega)]
    · rw [if_neg h1]
      by_cases h2 : k = start
      · rw [if_pos h2, if_pos (by omega)]
      · rw [if_neg h2, if_neg (by omega)]

theorem Memory.wf_empty : (Memory.empty : Memory α).wf := by
  simp [Memory.wf, Memory.empty]

theorem Memory.wf_write {m : Memory α} (h : m.wf) (i : Nat) (v : α) : (m.write i v).wf :=
  ⟨Entries.insert_rising h.1 i v, h.2⟩

theorem Memory.wf_fill {m : Memory α} (h : m.wf) (start : Nat) (v : α) (n : Nat) : (m.fill start v n).wf := by
  induction n generalizing m start with
  | zero => exact h
  | succ n ih => exact ih (Memory.wf_write h start v) (start + 1)

theorem Memory.wf_forget {m : Memory α} (h : m.wf) : m.forget.wf :=
  ⟨List.Pairwise.nil, Entries.overlay_rising m.cells h.2⟩

theorem Memory.within_empty (depth : Nat) (ok : α → Prop) : (Memory.empty : Memory α).Within depth ok := by
  simp [Memory.Within, Memory.empty]

theorem Memory.within_write {m : Memory α} {depth : Nat} {ok : α → Prop} (h : m.Within depth ok) {i : Nat} {v : α}
    (hi : i < depth) (hv : ok v) : (m.write i v).Within depth ok := by
  refine ⟨fun c hc => ?_, h.2⟩
  rcases Entries.mem_insert hc with hc | hc
  · subst hc; exact ⟨hi, hv⟩
  · exact h.1 c hc

theorem Memory.within_fill {m : Memory α} {depth : Nat} {ok : α → Prop} (h : m.Within depth ok) {start n : Nat} {v : α}
    (hn : start + n ≤ depth) (hv : ok v) : (m.fill start v n).Within depth ok := by
  induction n generalizing m start with
  | zero => exact h
  | succ n ih => exact ih (Memory.within_write h (by omega) hv) (by omega)

theorem Memory.within_forget {m : Memory α} {depth : Nat} {ok : α → Prop} (h : m.Within depth ok) :
    m.forget.Within depth ok := by
  refine ⟨by simp [Memory.forget], fun c hc => ?_⟩
  exact (Entries.mem_overlay hc).elim (h.1 c) (h.2 c)

/-- A bounded memory read gives a bounded value when the free value is bounded. -/
theorem Memory.read_ok {m : Memory α} {depth : Nat} {ok : α → Prop} (h : m.Within depth ok) {free : Nat → Option α → α}
    (hfree : ∀ i o, ok (free i o)) (i : Nat) : ok (m.read free i) := by
  have key : ∀ l : Entries α, (∀ c ∈ l, ok c.2) → ∀ v, Entries.lookup l i = some v → ok v := by
    intro l hl v hv
    induction l with
    | nil => simp at hv
    | cons c rest ih =>
      obtain ⟨j, u⟩ := c
      rw [Entries.lookup_cons] at hv
      split at hv
      · cases hv; exact hl _ List.mem_cons_self
      · exact ih (fun c hc => hl c (List.mem_cons_of_mem _ hc)) hv
  unfold Memory.read
  split
  · next v hv => exact key m.cells (fun c hc => (h.1 c hc).2) v hv
  · exact hfree i _

/-- The memories of the machine after reset are in canonical form. -/
theorem State.reset_memories_wf :
    State.reset.enc.pixmem.wf ∧ State.reset.enc.erun.wf ∧ State.reset.dec.drun.wf ∧ State.reset.dec.outmem.wf :=
  ⟨Memory.wf_empty, Memory.wf_empty, Memory.wf_empty, Memory.wf_empty⟩

end Sys2Proof.Machine
end

