-- ==== Sys2Proof/Laws/State.lean ====
section
/-! SUPPORT. One lemma per field per named update, true by rfl, so that no later proof unfolds a record update. -/

namespace Sys2Proof.Machine

variable (s : State)

/-! ### Taking a turn -/

@[simp] theorem advance_param : s.advance.param = s.param := rfl
@[simp] theorem advance_enc : s.advance.enc = s.enc := rfl
@[simp] theorem advance_dec : s.advance.dec = s.dec := rfl
@[simp] theorem advance_turns : s.advance.turns = s.turns.tail := rfl
@[simp] theorem advance_lastRead : s.advance.lastRead = s.lastRead := rfl
@[simp] theorem advance_resets : s.advance.resets = s.resets := rfl
@[simp] theorem advance_draws : s.advance.draws = s.draws := rfl
@[simp] theorem readPixmem_advance (i : Nat) : readPixmem s.advance i = readPixmem s i := rfl
@[simp] theorem readErun_advance (i : Nat) : readErun s.advance i = readErun s i := rfl
@[simp] theorem readDrun_advance (i : Nat) : readDrun s.advance i = readDrun s i := rfl
@[simp] theorem readOutmem_advance (i : Nat) : readOutmem s.advance i = readOutmem s i := rfl
@[simp] theorem esel_advance : esel s.advance = esel s := rfl
@[simp] theorem dsel_advance : dsel s.advance = dsel s := rfl

@[simp] theorem withTurns_param (ts : List Turn) : (s.withTurns ts).param = s.param := rfl
@[simp] theorem withTurns_enc (ts : List Turn) : (s.withTurns ts).enc = s.enc := rfl
@[simp] theorem withTurns_dec (ts : List Turn) : (s.withTurns ts).dec = s.dec := rfl
@[simp] theorem withTurns_turns (ts : List Turn) : (s.withTurns ts).turns = ts ++ s.turns := rfl
@[simp] theorem withTurns_lastRead (ts : List Turn) : (s.withTurns ts).lastRead = s.lastRead := rfl
@[simp] theorem withTurns_resets (ts : List Turn) : (s.withTurns ts).resets = s.resets := rfl
@[simp] theorem withTurns_draws (ts : List Turn) : (s.withTurns ts).draws = s.draws := rfl
@[simp] theorem advance_withTurns_cons (t : Turn) (ts : List Turn) :
    (s.withTurns (t :: ts)).advance = s.withTurns ts := rfl

/-! ### Taking and leaving a fault -/

variable (e : ErrCode) (info : Nat)

@[simp] theorem raise_enc_enc : (raise .enc e info s).enc = { s.enc with state := .err, err := e } := rfl
@[simp] theorem raise_enc_dec : (raise .enc e info s).dec = s.dec := rfl
@[simp] theorem raise_dec_enc : (raise .dec e info s).enc = s.enc := rfl
@[simp] theorem raise_dec_dec : (raise .dec e info s).dec = { s.dec with state := .err, err := e, info := info } := rfl
@[simp] theorem raise_param (u : UnitId) : (raise u e info s).param = s.param := by cases u <;> rfl
@[simp] theorem raise_turns (u : UnitId) : (raise u e info s).turns = s.turns := by cases u <;> rfl
@[simp] theorem raise_lastRead (u : UnitId) : (raise u e info s).lastRead = s.lastRead := by cases u <;> rfl
@[simp] theorem raise_resets (u : UnitId) : (raise u e info s).resets = s.resets := by cases u <;> rfl
@[simp] theorem raise_draws (u : UnitId) : (raise u e info s).draws = s.draws := by cases u <;> rfl

@[simp] theorem leave_enc_enc : (leave .enc s).enc = { s.enc with state := .idle, err := .none } := rfl
@[simp] theorem leave_enc_dec : (leave .enc s).dec = s.dec := rfl
@[simp] theorem leave_dec_enc : (leave .dec s).enc = s.enc := rfl
@[simp] theorem leave_dec_dec : (leave .dec s).dec = { s.dec with state := .idle, err := .none, info := 0 } := rfl
@[simp] theorem leave_param (u : UnitId) : (leave u s).param = s.param := by cases u <;> rfl
@[simp] theorem leave_turns (u : UnitId) : (leave u s).turns = s.turns := by cases u <;> rfl
@[simp] theorem leave_lastRead (u : UnitId) : (leave u s).lastRead = s.lastRead := by cases u <;> rfl
@[simp] theorem leave_resets (u : UnitId) : (leave u s).resets = s.resets := by cases u <;> rfl
@[simp] theorem leave_draws (u : UnitId) : (leave u s).draws = s.draws := by cases u <;> rfl

/-! ### Starting a frame -/

@[simp] theorem latchEnc_enc : (latchEnc s).enc =
    { s.enc with w := s.enc.cfgWidth, h := s.enc.cfgHeight, cap := s.enc.cfgWidth * s.enc.cfgHeight } := rfl
@[simp] theorem latchEnc_dec : (latchEnc s).dec = s.dec := rfl
@[simp] theorem latchEnc_param : (latchEnc s).param = s.param := rfl
@[simp] theorem latchEnc_turns : (latchEnc s).turns = s.turns := rfl
@[simp] theorem latchEnc_lastRead : (latchEnc s).lastRead = s.lastRead := rfl
@[simp] theorem latchEnc_resets : (latchEnc s).resets = s.resets := rfl
@[simp] theorem latchEnc_draws : (latchEnc s).draws = s.draws := rfl

@[simp] theorem beginEnc_enc : (beginEnc s).enc =
    { s.enc with idx := 0, run := none, nruns := 0, err := .none, state := .busy } := rfl
@[simp] theorem beginEnc_dec : (beginEnc s).dec = s.dec := rfl
@[simp] theorem beginEnc_param : (beginEnc s).param = s.param := rfl
@[simp] theorem beginEnc_turns : (beginEnc s).turns = s.turns := rfl
@[simp] theorem beginEnc_lastRead : (beginEnc s).lastRead = s.lastRead := rfl
@[simp] theorem beginEnc_resets : (beginEnc s).resets = s.resets := rfl
@[simp] theorem beginEnc_draws : (beginEnc s).draws = s.draws := rfl

@[simp] theorem latchDec_dec : (latchDec s).dec =
    { s.dec with w := s.dec.cfgWidth, h := s.dec.cfgHeight, nruns := s.dec.cfgNruns,
                 cap := s.dec.cfgWidth * s.dec.cfgHeight } := rfl
@[simp] theorem latchDec_enc : (latchDec s).enc = s.enc := rfl
@[simp] theorem latchDec_param : (latchDec s).param = s.param := rfl
@[simp] theorem latchDec_turns : (latchDec s).turns = s.turns := rfl
@[simp] theorem latchDec_lastRead : (latchDec s).lastRead = s.lastRead := rfl
@[simp] theorem latchDec_resets : (latchDec s).resets = s.resets := rfl
@[simp] theorem latchDec_draws : (latchDec s).draws = s.draws := rfl

@[simp] theorem beginDec_dec : (beginDec s).dec =
    { s.dec with ridx := 0, cur := 0, err := .none, info := 0, state := .busy } := rfl
@[simp] theorem beginDec_enc : (beginDec s).enc = s.enc := rfl
@[simp] theorem beginDec_param : (beginDec s).param = s.param := rfl
@[simp] theorem beginDec_turns : (beginDec s).turns = s.turns := rfl
@[simp] theorem beginDec_lastRead : (beginDec s).lastRead = s.lastRead := rfl
@[simp] theorem beginDec_resets : (beginDec s).resets = s.resets := rfl
@[simp] theorem beginDec_draws : (beginDec s).draws = s.draws := rfl

/-! ### Appending and filling a run -/

variable (r : OpenRun) (length : Nat) (value : Byte)

@[simp] theorem appendRun_enc : (appendRun r s).enc =
    { s.enc with erun := s.enc.erun.write s.enc.nruns (pack r.length r.value), nruns := inc s.param s.enc.nruns } := rfl
@[simp] theorem appendRun_dec : (appendRun r s).dec = s.dec := rfl
@[simp] theorem appendRun_param : (appendRun r s).param = s.param := rfl
@[simp] theorem appendRun_turns : (appendRun r s).turns = s.turns := rfl
@[simp] theorem appendRun_lastRead : (appendRun r s).lastRead = s.lastRead := rfl
@[simp] theorem appendRun_resets : (appendRun r s).resets = s.resets := rfl
@[simp] theorem appendRun_draws : (appendRun r s).draws = s.draws := rfl

@[simp] theorem fillRun_dec : (fillRun length value s).dec =
    { s.dec with outmem := s.dec.outmem.fill s.dec.cur value length, cur := s.dec.cur + length,
                 ridx := inc s.param s.dec.ridx } := rfl
@[simp] theorem fillRun_enc : (fillRun length value s).enc = s.enc := rfl
@[simp] theorem fillRun_param : (fillRun length value s).param = s.param := rfl
@[simp] theorem fillRun_turns : (fillRun length value s).turns = s.turns := rfl
@[simp] theorem fillRun_lastRead : (fillRun length value s).lastRead = s.lastRead := rfl
@[simp] theorem fillRun_resets : (fillRun length value s).resets = s.resets := rfl
@[simp] theorem fillRun_draws : (fillRun length value s).draws = s.draws := rfl

/-! ### HOST reads and Reset -/

variable (v : ReadValue)

@[simp] theorem deliver_param : (deliver v s).param = s.param := by cases v <;> rfl
@[simp] theorem deliver_enc : (deliver v s).enc = s.enc := by cases v <;> rfl
@[simp] theorem deliver_dec : (deliver v s).dec = s.dec := by cases v <;> rfl
@[simp] theorem deliver_turns : (deliver v s).turns = s.turns := by cases v <;> rfl
@[simp] theorem deliver_resets : (deliver v s).resets = s.resets := by cases v <;> rfl

@[simp] theorem hostReset_enc :
    (hostReset s).enc = .afterReset s.enc.pixmem.forget s.enc.erun.forget := rfl
@[simp] theorem hostReset_dec :
    (hostReset s).dec = .afterReset s.dec.drun.forget s.dec.outmem.forget := rfl
@[simp] theorem hostReset_param : (hostReset s).param = s.param := rfl
@[simp] theorem hostReset_turns : (hostReset s).turns = s.turns := rfl
@[simp] theorem hostReset_lastRead : (hostReset s).lastRead = s.lastRead := rfl
@[simp] theorem hostReset_resets : (hostReset s).resets = s.resets + 1 := rfl
@[simp] theorem hostReset_draws : (hostReset s).draws = s.draws := rfl

end Sys2Proof.Machine
end

