-- ==== Sys2Proof/Laws/Ops.lean ====
section
/-! SUPPORT. What each shared operation and each meaning can do, said once: one inversion lemma for each. -/

namespace Sys2Proof.Machine

/-- A register below the top of its width does not wrap (R192). -/
theorem inc_eq {p : Param} {x : Nat} (h : x + 1 < 2 ^ p.lenW) : inc p x = x + 1 := Nat.mod_eq_of_lt h

theorem inc_lt (p : Param) (x : Nat) : inc p x < 2 ^ p.lenW := Nat.mod_lt _ (by positivity)

/-- The product of two dimensions fits `LEN_W` bits (R191). -/
theorem capacity_lt {p : Param} {w h : Nat} (hw : w < 2 ^ p.dimW) (hh : h < 2 ^ p.dimW) : w * h < 2 ^ p.lenW := by
  have : (2 : Nat) ^ p.lenW = 2 ^ p.dimW * 2 ^ p.dimW := by rw [Param.lenW, two_mul, pow_add]
  rw [this]
  exact Nat.mul_lt_mul'' hw hh

/-- The capacity test is exact over the integers (R193). -/
theorem overflows_iff {s : State} {length : Nat} (hpos : length ≠ 0) :
    overflows length s = true ↔ s.dec.cap < s.dec.cur + length := by
  simp only [overflows, decide_eq_true_eq]; omega

/-- The three outcomes of a run word (R165). -/
theorem interpretRun_cases (length : Nat) (value : Byte) (s : State) :
    (length = 0 ∧ interpretRun length value s = raise .dec .malformedArtifact s.dec.ridx s) ∨
    (length ≠ 0 ∧ s.dec.cap < s.dec.cur + length ∧ interpretRun length value s = raise .dec .lengthMismatch s.dec.ridx s) ∨
    (length ≠ 0 ∧ s.dec.cur + length ≤ s.dec.cap ∧ interpretRun length value s = fillRun length value s) := by
  unfold interpretRun
  by_cases h0 : length = 0
  · exact .inl ⟨h0, by simp [h0]⟩
  · by_cases h : overflows length s = true
    · exact .inr (.inl ⟨h0, (overflows_iff h0).1 h, by simp [h0, h]⟩)
    · exact .inr (.inr ⟨h0, by have := mt (overflows_iff h0).2 h; omega, by simp [h0, h]⟩)

theorem execEncStart_eq (s : State) :
    execEncStart s = .next (if s.enc.state = .busy then s
      else if s.enc.cfgWidth * s.enc.cfgHeight = 0 then raise .enc .emptyInput 0 (latchEnc s)
      else beginEnc (latchEnc s)) := by
  unfold execEncStart
  by_cases hb : s.enc.state = .busy
  · rw [if_pos hb, if_pos hb]
  · rw [if_neg hb, if_neg hb]
    by_cases hc : s.enc.cfgWidth * s.enc.cfgHeight = 0
    · rw [if_pos (show (latchEnc s).enc.cap = 0 from hc), if_pos hc]
    · rw [if_neg (show ¬(latchEnc s).enc.cap = 0 from hc), if_neg hc]

theorem execEncClear_eq (s : State) :
    execEncClear s = .next (if s.enc.state = .done ∨ s.enc.state = .err then leave .enc s else s) := by
  unfold execEncClear; split <;> rfl

theorem execDecStart_eq (s : State) :
    execDecStart s = .next (if s.dec.state = .busy then s
      else if s.dec.cfgWidth * s.dec.cfgHeight = 0 then raise .dec .malformedArtifact 0 (latchDec s)
      else beginDec (latchDec s)) := by
  unfold execDecStart
  by_cases hb : s.dec.state = .busy
  · rw [if_pos hb, if_pos hb]
  · rw [if_neg hb, if_neg hb]
    by_cases hc : s.dec.cfgWidth * s.dec.cfgHeight = 0
    · rw [if_pos (show (latchDec s).dec.cap = 0 from hc), if_pos hc]
    · rw [if_neg (show ¬(latchDec s).dec.cap = 0 from hc), if_neg hc]

theorem execDecClear_eq (s : State) :
    execDecClear s = .next (if s.dec.state = .done ∨ s.dec.state = .err then leave .dec s else s) := by
  unfold execDecClear; split <;> rfl

theorem execEOpen_next {s t : State} (h : execEOpen s = .next t) :
    s.enc.state = .busy ∧ s.enc.idx ≠ s.enc.cap ∧ s.enc.run = none ∧
      t = { s with enc := { s.enc with
        run := some { value := scannedPixel s, length := 1 }, idx := inc s.param s.enc.idx } } := by
  unfold execEOpen at h
  split at h
  · next hg => cases h; exact ⟨hg.1, hg.2.1, hg.2.2, rfl⟩
  · cases h

theorem execEExtend_next {s t : State} (h : execEExtend s = .next t) :
    ∃ r, s.enc.run = some r ∧ s.enc.state = .busy ∧ s.enc.idx ≠ s.enc.cap ∧ scannedPixel s = r.value ∧
      t = { s with enc := { s.enc with
        run := some { r with length := inc s.param r.length }, idx := inc s.param s.enc.idx } } := by
  unfold execEExtend at h
  split at h
  · cases h
  · next r hr =>
    split at h
    · next hg => cases h; exact ⟨r, hr, hg.1, hg.2.1, hg.2.2, rfl⟩
    · cases h

theorem execEClose_next {s t : State} (h : execEClose s = .next t) :
    ∃ r, s.enc.run = some r ∧ s.enc.state = .busy ∧ s.enc.idx ≠ s.enc.cap ∧ scannedPixel s ≠ r.value ∧
      t = { appendRun r s with enc := { (appendRun r s).enc with
        run := some { value := scannedPixel s, length := 1 }, idx := inc s.param s.enc.idx } } := by
  unfold execEClose at h
  split at h
  · cases h
  · next r hr =>
    split at h
    · next hg => cases h; exact ⟨r, hr, hg.1, hg.2.1, hg.2.2, rfl⟩
    · cases h

theorem execEFlush_next {s t : State} (h : execEFlush s = .next t) :
    ∃ r, s.enc.run = some r ∧ s.enc.state = .busy ∧ s.enc.idx = s.enc.cap ∧
      t = { appendRun r s with enc := { (appendRun r s).enc with run := none, state := .done } } := by
  unfold execEFlush at h
  split at h
  · cases h
  · next r hr =>
    split at h
    · next hg => cases h; exact ⟨r, hr, hg.1, hg.2, rfl⟩
    · cases h

theorem execRun_next {length : Nat} {value : Byte} {s t : State} (h : execRun length value s = .next t) :
    runSelected s ∧ t = interpretRun length value s := by
  unfold execRun at h
  split at h
  · next hg => cases h; exact ⟨hg, rfl⟩
  · cases h

theorem execRunZero_next {value : Byte} {s t : State} (h : execRunZero value s = .next t) :
    runSelected s ∧ t = raise .dec .malformedArtifact s.dec.ridx s := by
  unfold execRunZero at h
  split at h
  · next hg => cases h; exact ⟨hg, by simp [interpretRun]⟩
  · cases h

theorem execDRun_next {s t : State} (h : execDRun s = .next t) :
    runSelected s ∧ t = interpretRun (runLength (fetchedRunWord s)) (runValue (fetchedRunWord s)) s := by
  unfold execDRun at h
  split at h
  · next hg => cases h; exact ⟨hg, rfl⟩
  · cases h

theorem execDFinish_next {s t : State} (h : execDFinish s = .next t) :
    s.dec.state = .busy ∧ s.dec.ridx = s.dec.nruns ∧
      ((s.dec.cur = s.dec.cap ∧ t = { s with dec := { s.dec with state := .done } }) ∨
       (s.dec.cur ≠ s.dec.cap ∧ t = raise .dec .lengthMismatch s.dec.nruns s)) := by
  unfold execDFinish at h
  split at h
  · next hg =>
    split at h
    · next hc => cases h; exact ⟨hg.1, hg.2, .inl ⟨hc, rfl⟩⟩
    · next hc => cases h; exact ⟨hg.1, hg.2, .inr ⟨hc, rfl⟩⟩
  · cases h

/-- What a HOST transaction can do (R20, R50, R74, R260). -/
theorem hostAccess_next {op : HostOp} {s t : State} (h : hostAccess op s = .next t) :
    op.expressible s.param = true ∧
      ((∃ u n v, op = .regWrite u n v ∧ t = regWrite u n v s) ∨
       (∃ u n, op = .regRead u n ∧ t = deliver (regValue u n s) s) ∨
       (∃ m i v, op = .memWrite m i v ∧ t = memWrite m i v s) ∨
       (∃ m i, op = .memRead m i ∧ t = deliver (memValue m i s) s) ∨
       (op = .reset ∧ t = hostReset s)) := by
  unfold hostAccess at h
  split at h
  · next he =>
    refine ⟨he, ?_⟩
    cases op <;> cases h <;> simp
  · cases h

/-- What a register write can do: one configuration register, or nothing (R50, R59). -/
theorem encRegWrite_cases (n v : Nat) (s : State) :
    (n = 2 ∧ encRegWrite n v s = { s with enc := { s.enc with cfgWidth := v % 2 ^ s.param.dimW } }) ∨
    (n = 3 ∧ encRegWrite n v s = { s with enc := { s.enc with cfgHeight := v % 2 ^ s.param.dimW } }) ∨
    (n ≠ 2 ∧ n ≠ 3 ∧ encRegWrite n v s = s) := by
  unfold encRegWrite
  split
  · exact .inl ⟨rfl, rfl⟩
  · exact .inr (.inl ⟨rfl, rfl⟩)
  · next h2 h3 => exact .inr (.inr ⟨h2, h3, rfl⟩)

theorem decRegWrite_cases (n v : Nat) (s : State) :
    (n = 2 ∧ decRegWrite n v s = { s with dec := { s.dec with cfgWidth := v % 2 ^ s.param.dimW } }) ∨
    (n = 3 ∧ decRegWrite n v s = { s with dec := { s.dec with cfgHeight := v % 2 ^ s.param.dimW } }) ∨
    (n = 4 ∧ decRegWrite n v s = { s with dec := { s.dec with cfgNruns := v % 2 ^ s.param.lenW } }) ∨
    (n ≠ 2 ∧ n ≠ 3 ∧ n ≠ 4 ∧ decRegWrite n v s = s) := by
  unfold decRegWrite
  split
  · exact .inl ⟨rfl, rfl⟩
  · exact .inr (.inl ⟨rfl, rfl⟩)
  · exact .inr (.inr (.inl ⟨rfl, rfl⟩))
  · next h2 h3 h4 => exact .inr (.inr (.inr ⟨h2, h3, h4, rfl⟩))

/-- A run word read by a unit or by the HOST has `RUN_W` bits. -/
theorem readErun_lt {s : State} (h : s.enc.erun.Within s.param.depth (fun v => v < 2 ^ s.param.runW)) (i : Nat) :
    readErun s i < 2 ^ s.param.runW :=
  Memory.read_ok h (fun _ _ => Nat.mod_lt _ (by positivity)) i

theorem readDrun_lt {s : State} (h : s.dec.drun.Within s.param.depth (fun v => v < 2 ^ s.param.runW)) (i : Nat) :
    readDrun s i < 2 ^ s.param.runW :=
  Memory.read_ok h (fun _ _ => Nat.mod_lt _ (by positivity)) i

end Sys2Proof.Machine
end

