-- ==== Sys2Proof/Laws/Exec.lean ====
section
/-! SUPPORT. What the operations of a unit can do when they answer a next state: one inversion lemma per unit, and what an
operation of one unit never touches. -/

namespace Sys2Proof.Machine

/-- Everything an operation of ENC can do. -/
theorem exec_enc_cases {i : Instr} {s t : State} (hi : isEncOp i = true) (h : exec i s = .next t) :
    (t = s ∧ (i = .encNop ∨ (∃ c, i = .encRsvd c) ∨ (i = .encStart ∧ s.enc.state = .busy) ∨
      (i = .encClear ∧ s.enc.state ≠ .done ∧ s.enc.state ≠ .err))) ∨
    (i = .encStart ∧ s.enc.state ≠ .busy ∧ s.enc.cfgWidth * s.enc.cfgHeight = 0 ∧
      t = raise .enc .emptyInput 0 (latchEnc s)) ∨
    (i = .encStart ∧ s.enc.state ≠ .busy ∧ s.enc.cfgWidth * s.enc.cfgHeight ≠ 0 ∧ t = beginEnc (latchEnc s)) ∨
    (i = .encClear ∧ (s.enc.state = .done ∨ s.enc.state = .err) ∧ t = leave .enc s) ∨
    (i = .eOpen ∧ s.enc.state = .busy ∧ s.enc.idx ≠ s.enc.cap ∧ s.enc.run = none ∧
      t = { s with enc := { s.enc with
        run := some { value := scannedPixel s, length := 1 }, idx := inc s.param s.enc.idx } }) ∨
    (∃ r, i = .eExtend ∧ s.enc.run = some r ∧ s.enc.state = .busy ∧ s.enc.idx ≠ s.enc.cap ∧ scannedPixel s = r.value ∧
      t = { s with enc := { s.enc with
        run := some { r with length := inc s.param r.length }, idx := inc s.param s.enc.idx } }) ∨
    (∃ r, i = .eClose ∧ s.enc.run = some r ∧ s.enc.state = .busy ∧ s.enc.idx ≠ s.enc.cap ∧ scannedPixel s ≠ r.value ∧
      t = { appendRun r s with enc := { (appendRun r s).enc with
        run := some { value := scannedPixel s, length := 1 }, idx := inc s.param s.enc.idx } }) ∨
    (∃ r, i = .eFlush ∧ s.enc.run = some r ∧ s.enc.state = .busy ∧ s.enc.idx = s.enc.cap ∧
      t = { appendRun r s with enc := { (appendRun r s).enc with run := none, state := .done } }) := by
  cases i <;> simp only [isEncOp, Bool.false_eq_true] at hi <;> simp only [exec] at h
  · cases h; exact .inl ⟨rfl, .inl rfl⟩
  · rw [execEncStart_eq] at h
    cases h
    split
    · next hb => exact .inl ⟨rfl, .inr (.inr (.inl ⟨rfl, hb⟩))⟩
    · next hb =>
      split
      · next hc => exact .inr (.inl ⟨rfl, hb, hc, rfl⟩)
      · next hc => exact .inr (.inr (.inl ⟨rfl, hb, hc, rfl⟩))
  · rw [execEncClear_eq] at h
    cases h
    split
    · next hb => exact .inr (.inr (.inr (.inl ⟨rfl, hb, rfl⟩)))
    · next hb => exact .inl ⟨rfl, .inr (.inr (.inr ⟨rfl, not_or.1 hb⟩))⟩
  · next c => cases h; exact .inl ⟨rfl, .inr (.inl ⟨c, rfl⟩)⟩
  · exact .inr (.inr (.inr (.inr (.inl ⟨rfl, execEOpen_next h⟩))))
  · obtain ⟨r, h⟩ := execEExtend_next h
    exact .inr (.inr (.inr (.inr (.inr (.inl ⟨r, rfl, h⟩)))))
  · obtain ⟨r, h⟩ := execEClose_next h
    exact .inr (.inr (.inr (.inr (.inr (.inr (.inl ⟨r, rfl, h⟩))))))
  · obtain ⟨r, h⟩ := execEFlush_next h
    exact .inr (.inr (.inr (.inr (.inr (.inr (.inr ⟨r, rfl, h⟩))))))
  · cases h

/-- Everything an operation of DEC can do. -/
theorem exec_dec_cases {i : Instr} {s t : State} (hi : isEncOp i = false) (h : exec i s = .next t) :
    (t = s ∧ (i = .decNop ∨ (∃ c, i = .decRsvd c) ∨ (i = .decStart ∧ s.dec.state = .busy) ∨
      (i = .decClear ∧ s.dec.state ≠ .done ∧ s.dec.state ≠ .err))) ∨
    (i = .decStart ∧ s.dec.state ≠ .busy ∧ s.dec.cfgWidth * s.dec.cfgHeight = 0 ∧
      t = raise .dec .malformedArtifact 0 (latchDec s)) ∨
    (i = .decStart ∧ s.dec.state ≠ .busy ∧ s.dec.cfgWidth * s.dec.cfgHeight ≠ 0 ∧ t = beginDec (latchDec s)) ∨
    (i = .decClear ∧ (s.dec.state = .done ∨ s.dec.state = .err) ∧ t = leave .dec s) ∨
    (i = .dFinish ∧ s.dec.state = .busy ∧ s.dec.ridx = s.dec.nruns ∧ s.dec.cur = s.dec.cap ∧
      t = { s with dec := { s.dec with state := .done } }) ∨
    (i = .dFinish ∧ s.dec.state = .busy ∧ s.dec.ridx = s.dec.nruns ∧ s.dec.cur ≠ s.dec.cap ∧
      t = raise .dec .lengthMismatch s.dec.nruns s) ∨
    (∃ length value, ((i = .dRun ∧ length = runLength (readDrun s s.dec.ridx) ∧ value = runValue (readDrun s s.dec.ridx)) ∨
        i = .run length value ∨ (i = .runZero value ∧ length = 0)) ∧
      runSelected s ∧ t = interpretRun length value s) := by
  cases i <;> simp only [isEncOp, Bool.true_eq_false] at hi <;> simp only [exec] at h
  · cases h; exact .inl ⟨rfl, .inl rfl⟩
  · rw [execDecStart_eq] at h
    cases h
    split
    · next hb => exact .inl ⟨rfl, .inr (.inr (.inl ⟨rfl, hb⟩))⟩
    · next hb =>
      split
      · next hc => exact .inr (.inl ⟨rfl, hb, hc, rfl⟩)
      · next hc => exact .inr (.inr (.inl ⟨rfl, hb, hc, rfl⟩))
  · rw [execDecClear_eq] at h
    cases h
    split
    · next hb => exact .inr (.inr (.inr (.inl ⟨rfl, hb, rfl⟩)))
    · next hb => exact .inl ⟨rfl, .inr (.inr (.inr ⟨rfl, not_or.1 hb⟩))⟩
  · next c => cases h; exact .inl ⟨rfl, .inr (.inl ⟨c, rfl⟩)⟩
  · exact .inr (.inr (.inr (.inr (.inr (.inr ⟨_, _, .inl ⟨rfl, rfl, rfl⟩, execDRun_next h⟩)))))
  · obtain ⟨h1, h2, ⟨h3, ht⟩ | ⟨h3, ht⟩⟩ := execDFinish_next h
    · exact .inr (.inr (.inr (.inr (.inl ⟨rfl, h1, h2, h3, ht⟩))))
    · exact .inr (.inr (.inr (.inr (.inr (.inl ⟨rfl, h1, h2, h3, ht⟩)))))
  · exact .inr (.inr (.inr (.inr (.inr (.inr ⟨_, _, .inr (.inl rfl), execRun_next h⟩)))))
  · obtain ⟨hs, ht⟩ := execRunZero_next h
    exact .inr (.inr (.inr (.inr (.inr (.inr ⟨_, _, .inr (.inr ⟨rfl, rfl⟩), hs, by rw [ht]; simp [interpretRun]⟩)))))

/-- Interpreting a run word touches nothing outside DEC, and in DEC no input. -/
theorem interpretRun_keeps (length : Nat) (value : Byte) (s : State) :
    interpretRun length value s = { s with dec := (interpretRun length value s).dec } ∧
      (interpretRun length value s).dec.drun = s.dec.drun := by
  rcases interpretRun_cases length value s with ⟨_, h⟩ | ⟨_, _, h⟩ | ⟨_, _, h⟩ <;> rw [h] <;> exact ⟨rfl, rfl⟩

/-- An operation of ENC touches nothing outside ENC (R21). -/
theorem exec_enc_keeps {i : Instr} {s t : State} (hi : isEncOp i = true) (h : exec i s = .next t) :
    t = { s with enc := t.enc } := by
  rcases exec_enc_cases hi h with ⟨ht, _⟩ | ⟨_, _, _, ht⟩ | ⟨_, _, _, ht⟩ | ⟨_, _, ht⟩ | ⟨_, _, _, _, ht⟩ |
    ⟨_, _, _, _, _, _, ht⟩ | ⟨_, _, _, _, _, _, ht⟩ | ⟨_, _, _, _, _, ht⟩ <;> rw [ht] <;> rfl

/-- An operation of DEC touches nothing outside DEC (R21). -/
theorem exec_dec_keeps {i : Instr} {s t : State} (hi : isEncOp i = false) (h : exec i s = .next t) :
    t = { s with dec := t.dec } := by
  rcases exec_dec_cases hi h with ⟨ht, _⟩ | ⟨_, _, _, ht⟩ | ⟨_, _, _, ht⟩ | ⟨_, _, ht⟩ | ⟨_, _, _, _, ht⟩ |
    ⟨_, _, _, _, ht⟩ | ⟨length, value, _, _, ht⟩
  iterate 6 · subst ht; rfl
  rw [ht]; exact (interpretRun_keeps length value s).1

end Sys2Proof.Machine
end

