-- ==== Sys2Proof/Laws/PerInstr.lean ====
section
/-! SUPPORT. A statement about every operation as syntax, one lemma per constructor: the encoder writes every don't-care bit as 0
(R108, notes/assumptions/17.md). -/

namespace Sys2Proof.Laws.DontCareBitsZero

/-- The encoder's word of `i` has its don't-care bit cleared. -/
def Statement (i : Instr) : Prop := (encode i).canonical = encode i

theorem encNop : Statement .encNop := rfl
theorem encStart : Statement .encStart := rfl
theorem encClear : Statement .encClear := rfl
theorem encRsvd (code : Byte) : Statement (.encRsvd code) := rfl
theorem eOpen : Statement .eOpen := by unfold Statement; decide
theorem eExtend : Statement .eExtend := by unfold Statement; decide
theorem eClose : Statement .eClose := by unfold Statement; decide
theorem eFlush : Statement .eFlush := by unfold Statement; decide
theorem eUnreachable : Statement .eUnreachable := by unfold Statement; decide
theorem decNop : Statement .decNop := rfl
theorem decStart : Statement .decStart := rfl
theorem decClear : Statement .decClear := rfl
theorem decRsvd (code : Byte) : Statement (.decRsvd code) := rfl
theorem dRun : Statement .dRun := rfl
theorem dFinish : Statement .dFinish := rfl
theorem run (length : Nat) (value : Byte) : Statement (.run length value) := rfl
theorem runZero (value : Byte) : Statement (.runZero value) := rfl

end Sys2Proof.Laws.DontCareBitsZero
end

