-- ==== Sys2Proof/Laws/Step.lean ====
section
/-! SUPPORT. What a step of the machine can be: a command, a HOST transaction, the selected step of a BUSY unit, or a turn that
passes. -/

namespace Sys2Proof.Machine

/-- The operation a command code stands for at a unit's port (R104). -/
def commandInstr (u : UnitId) (v : Nat) : Instr :=
  match u with
  | .enc => decodeEncCmd (BitVec.ofNat 8 v)
  | .dec => decodeDecCmd (BitVec.ofNat 8 v)

/-- The next turn is ENC's: it is its turn, or no turn is left. -/
def EncTurn (s : State) : Prop := (∃ rest, s.turns = .enc :: rest) ∨ s.turns = []

/-- The next turn is DEC's: it is its turn, or no turn is left and ENC is not BUSY. -/
def DecTurn (s : State) : Prop := (∃ rest, s.turns = .dec :: rest) ∨ (s.turns = [] ∧ s.enc.state ≠ .busy)

theorem step_command {s : State} {u : UnitId} {v : Nat} {rest : List Turn}
    (h : s.turns = .host (.regWrite u 0 v) :: rest) : step s = exec (commandInstr u v) s.advance := by
  cases u <;> simp [step, fetch, h, hostFetch, commandWord, decode, commandInstr]

theorem step_access {s : State} {op : HostOp} {rest : List Turn} (h : s.turns = .host op :: rest)
    (hop : ∀ u v, op ≠ .regWrite u 0 v) : step s = hostAccess op s.advance := by
  rcases op with ⟨u, n, v⟩ | _ | _ | _ | _
  · cases n with
    | zero => exact absurd rfl (hop u v)
    | succ n => simp [step, fetch, h, hostFetch]
  all_goals simp [step, fetch, h, hostFetch]

theorem step_enc {s : State} (h : EncTurn s) (hb : s.enc.state = .busy) : step s = exec (decodeEsel (esel s)) s.advance := by
  rcases h with ⟨rest, h⟩ | h <;> simp [step, fetch, h, encFetch, hb, decode]

theorem step_dec {s : State} (h : DecTurn s) (hb : s.dec.state = .busy) : step s = exec (decodeDsel (dsel s)) s.advance := by
  rcases h with ⟨rest, h⟩ | ⟨h, he⟩
  · simp [step, fetch, h, decFetch, hb, decode]
  · simp [step, fetch, h, he, decFetch, hb, decode]

theorem step_enc_pass {s : State} {rest : List Turn} (h : s.turns = .enc :: rest) (hb : s.enc.state ≠ .busy) :
    step s = .next s.advance := by
  simp [step, fetch, h, encFetch, hb]

theorem step_dec_pass {s : State} {rest : List Turn} (h : s.turns = .dec :: rest) (hb : s.dec.state ≠ .busy) :
    step s = .next s.advance := by
  simp [step, fetch, h, decFetch, hb]

theorem step_idle {s : State} (h : s.turns = []) (he : s.enc.state ≠ .busy) (hd : s.dec.state ≠ .busy) :
    step s = .next s.advance := by
  simp [step, fetch, h, decFetch, he, hd]

/-- The inversion of the step (R22). -/
theorem step_cases (s : State) :
    (∃ u v rest, s.turns = .host (.regWrite u 0 v) :: rest ∧ step s = exec (commandInstr u v) s.advance) ∨
    (∃ op rest, s.turns = .host op :: rest ∧ (∀ u v, op ≠ .regWrite u 0 v) ∧ step s = hostAccess op s.advance) ∨
    (EncTurn s ∧ s.enc.state = .busy ∧ step s = exec (decodeEsel (esel s)) s.advance) ∨
    (DecTurn s ∧ s.dec.state = .busy ∧ step s = exec (decodeDsel (dsel s)) s.advance) ∨
    step s = .next s.advance := by
  rcases hts : s.turns with _ | ⟨t, rest⟩
  · by_cases he : s.enc.state = .busy
    · exact .inr (.inr (.inl ⟨.inr hts, he, step_enc (.inr hts) he⟩))
    · by_cases hd : s.dec.state = .busy
      · exact .inr (.inr (.inr (.inl ⟨.inr ⟨hts, he⟩, hd, step_dec (.inr ⟨hts, he⟩) hd⟩)))
      · exact .inr (.inr (.inr (.inr (step_idle hts he hd))))
  · rcases t with op | _ | _
    · by_cases hc : ∃ u v, op = .regWrite u 0 v
      · obtain ⟨u, v, rfl⟩ := hc
        exact .inl ⟨u, v, rest, rfl, step_command hts⟩
      · have hop : ∀ u v, op ≠ .regWrite u 0 v := fun u v h => hc ⟨u, v, h⟩
        exact .inr (.inl ⟨op, rest, rfl, hop, step_access hts hop⟩)
    · by_cases he : s.enc.state = .busy
      · exact .inr (.inr (.inl ⟨.inl ⟨rest, hts⟩, he, step_enc (.inl ⟨rest, hts⟩) he⟩))
      · exact .inr (.inr (.inr (.inr (step_enc_pass hts he))))
    · by_cases hd : s.dec.state = .busy
      · exact .inr (.inr (.inr (.inl ⟨.inl ⟨rest, hts⟩, hd, step_dec (.inl ⟨rest, hts⟩) hd⟩)))
      · exact .inr (.inr (.inr (.inr (step_dec_pass hts hd))))

/-! ### The operations a step can decode -/

theorem isEncOp_commandInstr_enc (v : Nat) : isEncOp (commandInstr .enc v) = true := by
  simp only [commandInstr, decodeEncCmd]; split_ifs <;> rfl

theorem isEncOp_commandInstr_dec (v : Nat) : isEncOp (commandInstr .dec v) = false := by
  simp only [commandInstr, decodeDecCmd]; split_ifs <;> rfl

theorem isEncOp_decodeEsel (v : BitVec 3) : isEncOp (decodeEsel v) = true := by revert v; decide

theorem isEncOp_decodeDsel (v : BitVec 1) : isEncOp (decodeDsel v) = false := by revert v; decide

theorem commands_eq {s : State} {u : UnitId} {v : Nat} {rest : List Turn} (h : s.turns = .host (.regWrite u 0 v) :: rest)
    (c : Byte) : commands u c s = decide (BitVec.ofNat 8 v = c) := by
  simp [commands, h]

/-- A command at `ENC_CMD` is one of four (R104). -/
theorem commandInstr_enc_cases (v : Nat) :
    (commandInstr .enc v = .encNop ∧ BitVec.ofNat 8 v = 0x00#8) ∨ (commandInstr .enc v = .encStart ∧ BitVec.ofNat 8 v = 0x01#8) ∨
    (commandInstr .enc v = .encClear ∧ BitVec.ofNat 8 v = 0x02#8) ∨
    (commandInstr .enc v = .encRsvd (BitVec.ofNat 8 v) ∧ BitVec.ofNat 8 v ≠ 0x01#8 ∧ BitVec.ofNat 8 v ≠ 0x02#8) := by
  simp only [commandInstr, decodeEncCmd]; split_ifs <;> simp_all

/-- A command at `DEC_CMD` is one of four (R104). -/
theorem commandInstr_dec_cases (v : Nat) :
    (commandInstr .dec v = .decNop ∧ BitVec.ofNat 8 v = 0x00#8) ∨ (commandInstr .dec v = .decStart ∧ BitVec.ofNat 8 v = 0x01#8) ∨
    (commandInstr .dec v = .decClear ∧ BitVec.ofNat 8 v = 0x02#8) ∨
    (commandInstr .dec v = .decRsvd (BitVec.ofNat 8 v) ∧ BitVec.ofNat 8 v ≠ 0x01#8 ∧ BitVec.ofNat 8 v ≠ 0x02#8) := by
  simp only [commandInstr, decodeDecCmd]; split_ifs <;> simp_all

/-! ### The parts of a step that answers a next state -/

/-- A HOST transaction that is no command, inverted: a register write, a memory write or a read of one unit, or a Reset. -/
theorem step_access_cases {s t : State} {op : HostOp} {rest : List Turn} (hts : s.turns = .host op :: rest)
    (hop : ∀ u v, op ≠ .regWrite u 0 v) (h : step s = .next t) :
    op.expressible s.param = true ∧
      ((∃ u n v, op = .regWrite u n v ∧ n ≠ 0 ∧ t = regWrite u n v s.advance) ∨
       (∃ u n, op = .regRead u n ∧ t = deliver (regValue u n s.advance) s.advance) ∨
       (∃ m i v, op = .memWrite m i v ∧ t = memWrite m i v s.advance) ∨
       (∃ m i, op = .memRead m i ∧ t = deliver (memValue m i s.advance) s.advance) ∨
       (op = .reset ∧ t = hostReset s.advance)) := by
  rw [step_access hts hop] at h
  obtain ⟨he, hc⟩ := hostAccess_next h
  refine ⟨he, ?_⟩
  rcases hc with ⟨u, n, v, rfl, ht⟩ | hc
  · exact .inl ⟨u, n, v, rfl, fun hn => hop u v (by rw [hn]), ht⟩
  · exact .inr hc

/-- A HOST transaction changes neither the parameter (R23) nor the schedule. -/
theorem hostAccess_keeps {op : HostOp} {s t : State} (h : hostAccess op s = .next t) : t.param = s.param ∧ t.turns = s.turns := by
  obtain ⟨_, ⟨u, n, v, _, rfl⟩ | ⟨u, n, _, rfl⟩ | ⟨m, i, v, _, rfl⟩ | ⟨m, i, _, rfl⟩ | ⟨_, rfl⟩⟩ := hostAccess_next h
  · cases u
    · rcases encRegWrite_cases n v s with ⟨_, h⟩ | ⟨_, h⟩ | ⟨_, _, h⟩ <;> simp [regWrite, h]
    · rcases decRegWrite_cases n v s with ⟨_, h⟩ | ⟨_, h⟩ | ⟨_, h⟩ | ⟨_, _, _, h⟩ <;> simp [regWrite, h]
  · simp
  · cases m <;> simp [memWrite]
  · simp
  · simp

/-! ### Runs of several steps -/

/-- A run whose first step answers a next state goes on from there. -/
theorem run_next (M : Host.Core) {s t : M.State} {o : Host.Outcome M.State M.Fault M.Refusal} {k : Nat}
    (h : M.step s = .next t) (ht : M.run k t = o) : M.run (k + 1) s = o := by
  simp only [Host.Core.run, h]; exact ht

/-- A run whose first step faults stops there. -/
theorem run_fault (M : Host.Core) {s : M.State} {r : M.Fault} {k : Nat} (h : M.step s = .fault r) : M.run (k + 1) s = .fault r := by
  simp only [Host.Core.run, h]

/-- A run whose first step is refused stops there. -/
theorem run_refused (M : Host.Core) {s : M.State} {r : M.Refusal} {k : Nat} (h : M.step s = .refused r) :
    M.run (k + 1) s = .refused r := by
  simp only [Host.Core.run, h]

end Sys2Proof.Machine
end

