-- ==== Sys2Proof/Tests/Slice0.lean ====
section
/-! SUPPORT. The model's own tests: well-formedness refusals, words written out from the spec's encodings, single steps of the
spec's vectors (95_test_vectors.md; expected values are the spec's), and for every obligation with hypotheses a state that meets
them. -/

namespace Sys2Proof.Tests

open Sys2Proof Sys2Proof.Machine Sys2Proof.Machine.Script

/-! ### Well-formedness: an ill-formed term for each check -/

/-- Code `0x02` is `CLEAR`, not reserved (R104). -/
theorem test_wf_refuses_encRsvd_below_3 : Instr.wf Config.defaultParam (.encRsvd 0x02#8) = false := by decide
theorem test_wf_refuses_decRsvd_below_3 : Instr.wf Config.defaultParam (.decRsvd 0x00#8) = false := by decide
/-- A run word of length 0 is `RUN.ZERO` (R112). -/
theorem test_wf_refuses_run_of_length_0 : Instr.wf Config.defaultParam (.run 0 5#8) = false := by decide
/-- A length has `LEN_W` bits (R100). -/
theorem test_wf_refuses_wide_run : Instr.wf Config.defaultParam (.run 0x100000000 5#8) = false := by decide
theorem test_wf_accepts_widest_run : Instr.wf Config.defaultParam (.run 0xFFFFFFFF 2#8) = true := by decide
/-- `DEPTH = 2^LEN_W` entries (R71). -/
theorem test_expressible_refuses_wide_index :
    HostOp.expressible Config.defaultParam (.memWrite .pixmem 0x100000000 0) = false ∧
    HostOp.expressible Config.defaultParam (.memRead .outmem 0x100000000) = false ∧
    HostOp.expressible Config.defaultParam (.memRead .outmem 0xFFFFFFFF) = true := by decide
/-- A pixel has 8 bits, a run word `RUN_W` (R71). -/
theorem test_expressible_refuses_wide_value :
    HostOp.expressible Config.defaultParam (.memWrite .pixmem 0 0x100) = false ∧
    HostOp.expressible Config.defaultParam (.memWrite .drun 0 0x10000000000) = false ∧
    HostOp.expressible Config.defaultParam (.memWrite .drun 0 0xFFFFFFFFFF) = true := by decide
/-- `DIM_W = 0` cannot be built (93 U13). -/
theorem test_param_refuses_0 : Param.ofNat? 0 = none ∧ (Param.ofNat? 1).isSome = true := by decide

/-! ### Decoding: words written out from the spec's encodings -/

/-- The command codes (R104, opcode table rows `ENC.*`). -/
theorem test_decode_encCmd :
    decodeEncCmd 0b00000000#8 = .encNop ∧ decodeEncCmd 0b00000001#8 = .encStart ∧ decodeEncCmd 0b00000010#8 = .encClear ∧
    decodeEncCmd 0b00000011#8 = .encRsvd 0x03#8 ∧ decodeEncCmd 0b11111111#8 = .encRsvd 0xFF#8 := by decide
/-- The command codes (R104, opcode table rows `DEC.*`). -/
theorem test_decode_decCmd :
    decodeDecCmd 0b00000000#8 = .decNop ∧ decodeDecCmd 0b00000001#8 = .decStart ∧ decodeDecCmd 0b00000010#8 = .decClear ∧
    decodeDecCmd 0b00000011#8 = .decRsvd 0x03#8 ∧ decodeDecCmd 0b11111111#8 = .decRsvd 0xFF#8 := by decide
/-- The encoder step map (R109): `00x`, `011`, `010`, `11x`, `10x`. -/
theorem test_decode_esel :
    decodeEsel 0b000#3 = .eOpen ∧ decodeEsel 0b001#3 = .eOpen ∧ decodeEsel 0b011#3 = .eExtend ∧ decodeEsel 0b010#3 = .eClose ∧
    decodeEsel 0b110#3 = .eFlush ∧ decodeEsel 0b111#3 = .eFlush ∧ decodeEsel 0b100#3 = .eUnreachable ∧
    decodeEsel 0b101#3 = .eUnreachable := by decide
/-- The decoder step map (R110). -/
theorem test_decode_dsel : decodeDsel 0b0#1 = .dRun ∧ decodeDsel 0b1#1 = .dFinish := by decide
/-- V-W1, V-W3, V-W5, V-W7. -/
theorem test_decode_run :
    decodeRunWord 0x000000030A = .run 3 10#8 ∧ decodeRunWord 0x00000001FF = .run 1 255#8 ∧
    decodeRunWord 0x0000010000 = .run 256 0#8 ∧ decodeRunWord 0xFFFFFFFF02 = .run 4294967295 2#8 := by decide
/-- V-W8. -/
theorem test_decode_runZero : decodeRunWord 0x0000000009 = .runZero 9#8 ∧ decodeRunWord 0x00000000FF = .runZero 255#8 := by decide
/-- V-W1, V-W6, and V-W9 with `DIM_W = 4`. -/
theorem test_pack :
    pack 3 10#8 = 0x000000030A ∧ pack 4294836225 255#8 = 0xFFFE0001FF ∧ pack 6 7#8 = 0x0607 ∧ Param.runW ⟨4, by decide⟩ = 16 := by
  decide
/-- A number of more than `RUN_W` bits is no run word. -/
theorem test_decode_rejects_wide_runWord : (decode Config.defaultParam (.runWord 0x10000000000)).toOption = none := by decide
/-- The rows of spec/opcode_table.json by width: commands, ESEL, DSEL, RUNWORD. -/
theorem test_decodeTableWord :
    decodeTableWord 8 0x01 = some .encStart ∧ decodeTableWord 8 0x20 = some (.encRsvd 0x20#8) ∧
    decodeTableWord 3 0b010 = some .eClose ∧ decodeTableWord 1 1 = some .dFinish ∧
    decodeTableWord 40 0x0000000114 = some (.run 1 20#8) ∧ decodeTableWord 3 8 = none := by decide

/-- A row of the opcode table for a format of `n` bits: mask, match and mnemonic. -/
structure Row where
  mask : Nat
  value : Nat
  mnemonic : String
deriving DecidableEq, Repr

/-- The rows of format CMD at one port, transcribed from spec/opcode_table.json. -/
def cmdRows : List Row :=
  [⟨0xFF, 0x00, "NOP"⟩, ⟨0xFF, 0x01, "START"⟩, ⟨0xFF, 0x02, "CLEAR"⟩, ⟨0xFF, 0x03, "RSVD"⟩, ⟨0xFC, 0x04, "RSVD"⟩,
   ⟨0xF8, 0x08, "RSVD"⟩, ⟨0xF0, 0x10, "RSVD"⟩, ⟨0xE0, 0x20, "RSVD"⟩, ⟨0xC0, 0x40, "RSVD"⟩, ⟨0x80, 0x80, "RSVD"⟩]

/-- The rows of format ESEL, transcribed from spec/opcode_table.json. -/
def eselRows : List Row :=
  [⟨0b110, 0b000, "OPEN"⟩, ⟨0b111, 0b011, "EXTEND"⟩, ⟨0b111, 0b010, "CLOSE"⟩, ⟨0b110, 0b110, "FLUSH"⟩,
   ⟨0b110, 0b100, "UNREACHABLE"⟩]

/-- The mnemonics of the rows a word matches. -/
def matching (rows : List Row) (w : Nat) : List String :=
  (rows.filter (fun r => decide (w &&& r.mask = r.value))).map Row.mnemonic

/-- The last part of an operation's mnemonic. -/
def shortName : Instr → String
  | .encNop | .decNop => "NOP"
  | .encStart | .decStart => "START"
  | .encClear | .decClear => "CLEAR"
  | .encRsvd _ | .decRsvd _ => "RSVD"
  | .eOpen => "OPEN"
  | .eExtend => "EXTEND"
  | .eClose => "CLOSE"
  | .eFlush => "FLUSH"
  | .eUnreachable => "UNREACHABLE"
  | .dRun => "D.RUN"
  | .dFinish => "FINISH"
  | .run _ _ => "RUN"
  | .runZero _ => "RUN.ZERO"

/-- Every command word matches exactly one row of the table, and the decoder reads that row's operation. -/
theorem test_cmd_rows_agree : ∀ c : Byte,
    matching cmdRows c.toNat = [shortName (decodeEncCmd c)] ∧ matching cmdRows c.toNat = [shortName (decodeDecCmd c)] := by decide
/-- The same for the select vectors of ENC. -/
theorem test_esel_rows_agree : ∀ v : BitVec 3, matching eselRows v.toNat = [shortName (decodeEsel v)] := by decide

/-! ### States for the single-step tests -/

/-- The next state of an outcome. -/
def next? (o : Host.Outcome State Fault Refusal) : Option State :=
  match o with
  | .next t => some t
  | .fault _ => none
  | .refused _ => none

theorem exists_next {o : Host.Outcome State Fault Refusal} {P : State → Bool} (h : (next? o).any P = true) :
    ∃ t, o = .next t ∧ P t = true := by
  cases o with
  | next t => exact ⟨t, rfl, h⟩
  | fault r => cases h
  | refused r => cases h

/-- `PIXMEM` of the source's concrete scenario (S1). -/
def pixels : Memory Byte := ⟨[(0, 10#8), (1, 10#8), (2, 10#8), (3, 20#8)], []⟩

/-- ENC on a grid of `4 × 1`. -/
def encU (st : UnitState) (idx : Nat) (r : Option OpenRun) (nruns : Nat) (erun : Entries Nat) : EncUnit :=
  { state := st, err := .none, cfgWidth := 4, cfgHeight := 1, w := 4, h := 1, cap := 4, idx := idx, run := r, nruns := nruns,
    pixmem := pixels, erun := ⟨erun, []⟩ }

/-- DEC on a grid of `4 × 1`. -/
def decU (st : UnitState) (ridx nruns cur : Nat) (drun : Entries Nat) (out : Entries Byte) : DecUnit :=
  { state := st, err := .none, info := 0, cfgWidth := 4, cfgHeight := 1, cfgNruns := nruns, w := 4, h := 1, cap := 4,
    nruns := nruns, ridx := ridx, cur := cur, drun := ⟨drun, []⟩, outmem := ⟨out, []⟩ }

/-- The machine with given units and turns. -/
def mk (ts : List Turn) (e : EncUnit) (d : DecUnit) : State := { State.reset with turns := ts, enc := e, dec := d }

def enc0 : EncUnit := State.reset.enc
def dec0 : DecUnit := State.reset.dec
/-- The states of ENC in program P1. -/
def encIdle : EncUnit := encU .idle 0 none 0 []
def encE1 : EncUnit := encU .busy 0 none 0 []
def encE2 : EncUnit := encU .busy 2 (some ⟨10#8, 2⟩) 0 []
def encE3 : EncUnit := encU .busy 3 (some ⟨10#8, 3⟩) 0 []
def encE4 : EncUnit := encU .busy 4 (some ⟨20#8, 1⟩) 1 [(0, 0x30A)]
def encDone : EncUnit := encU .done 4 none 2 [(0, 0x30A), (1, 0x114)]
def encErr : EncUnit := { enc0 with state := .err, err := .emptyInput }
/-- The states of DEC in program P2. -/
def decIdle : DecUnit := decU .idle 0 2 0 [(0, 0x30A), (1, 0x114)] []
def decD1 : DecUnit := decU .busy 0 2 0 [(0, 0x30A), (1, 0x114)] []
def decD2 : DecUnit := decU .busy 1 2 3 [(0, 0x30A), (1, 0x114)] [(0, 10#8), (1, 10#8), (2, 10#8)]
def decD3 : DecUnit := decU .busy 2 2 4 [(0, 0x30A), (1, 0x114)] [(0, 10#8), (1, 10#8), (2, 10#8), (3, 20#8)]
def decDone : DecUnit := decU .done 2 2 4 [(0, 0x30A), (1, 0x114)] [(0, 10#8), (1, 10#8), (2, 10#8), (3, 20#8)]
/-- V-D10: the runs summed to 3. -/
def decShort : DecUnit := decU .busy 1 1 3 [(0, 0x30A)] [(0, 10#8), (1, 10#8), (2, 10#8)]
/-- V-D4: the second run is too long. -/
def decLong : DecUnit := decU .busy 1 2 3 [(0, 0x30A), (1, 0x202)] [(0, 10#8), (1, 10#8), (2, 10#8)]
/-- V-D9: a word of length 0 when the buffer is full. -/
def decZero : DecUnit := decU .busy 1 2 4 [(0, 0x402), (1, 0x002)] [(0, 2#8), (1, 2#8), (2, 2#8), (3, 2#8)]
def decErr : DecUnit := { dec0 with state := .err, err := .lengthMismatch, info := 1 }

/-- What the steps of ENC change. -/
structure EncView where
  idx : Nat
  cap : Nat
  run : Option OpenRun
  nruns : Nat
  state : UnitState
  err : ErrCode
deriving DecidableEq, Repr

/-- What the steps of DEC change, with `DEC_STATUS` and `DEC_ERRINFO`. -/
structure DecView where
  ridx : Nat
  nruns : Nat
  cur : Nat
  cap : Nat
  status : Byte
  info : Nat
deriving DecidableEq, Repr

/-- ENC after a step. -/
def encAfter (s : State) : Option EncView :=
  (next? (step s)).map (fun t => ⟨t.enc.idx, t.enc.cap, t.enc.run, t.enc.nruns, t.enc.state, t.enc.err⟩)

/-- `ERUN`'s listed entries after a step. -/
def erunAfter (s : State) : Option (Entries Nat) := (next? (step s)).map (fun t => t.enc.erun.cells)

/-- DEC after a step. -/
def decAfter (s : State) : Option DecView :=
  (next? (step s)).map (fun t => ⟨t.dec.ridx, t.dec.nruns, t.dec.cur, t.dec.cap, decStatus t, t.dec.info⟩)

/-- `OUTMEM`'s listed entries after a step. -/
def outAfter (s : State) : Option (Entries Byte) := (next? (step s)).map (fun t => t.dec.outmem.cells)

/-- `ENC_STATUS` after a step. -/
def encStatusAfter (s : State) : Option Byte := (next? (step s)).map encStatus

/-- `DEC_STATUS` and `DEC_ERRINFO` after a step. -/
def decStatusAfter (s : State) : Option (Byte × Nat) := (next? (step s)).map (fun t => (decStatus t, t.dec.info))

/-- What a HOST read returned. -/
def readAfter (s : State) : Option Nat := (next? (step s)).bind State.lastRead

/-! ### Commands (95_test_vectors.md section 2.2) -/

/-- V-C1. -/
theorem test_encStart_after_reset_faults : encStatusAfter (mk [CMD .enc .START] enc0 dec0) = some 0x13#8 := by decide
/-- V-C17: the product does not overflow 32 bits. -/
theorem test_encStart_exact_product :
    encAfter (mk [CMD .enc .START] { enc0 with cfgWidth := 0xFFFF, cfgHeight := 0xFFFF } dec0) =
      some ⟨0, 0xFFFE0001, none, 0, .busy, .none⟩ := by decide
/-- V-C2. -/
theorem test_encClear_leaves_err : encStatusAfter (mk [CMD .enc .CLEAR] encErr dec0) = some 0x00#8 := by decide
/-- V-C5. -/
theorem test_encClear_busy_ignored : encStatusAfter (mk [CMD .enc .CLEAR] encE2 dec0) = some 0x01#8 := by decide
/-- V-C7. -/
theorem test_encNop : encAfter (mk [CMD .enc .NOP] encDone dec0) = some ⟨4, 4, none, 2, .done, .none⟩ := by decide
/-- V-C8. -/
theorem test_encRsvd :
    encAfter (mk [WR .ENC_CMD 0x7F] encE2 dec0) = some ⟨2, 4, some ⟨10#8, 2⟩, 0, .busy, .none⟩ := by decide
/-- V-C11. -/
theorem test_decStart_after_reset_faults : decStatusAfter (mk [CMD .dec .START] enc0 dec0) = some (0x33#8, 0) := by decide
/-- Program P2's `START`. -/
theorem test_decStart_begins : decAfter (mk [CMD .dec .START] enc0 decIdle) = some ⟨0, 2, 0, 4, 0x01#8, 0⟩ := by decide
/-- V-C12. -/
theorem test_decClear_leaves_err : decStatusAfter (mk [CMD .dec .CLEAR] enc0 decErr) = some (0x00#8, 0) := by decide
theorem test_decNop : decStatusAfter (mk [CMD .dec .NOP] enc0 decErr) = some (0x23#8, 1) := by decide
/-- V-C14. -/
theorem test_decRsvd : decStatusAfter (mk [WR .DEC_CMD 0xFF] enc0 decIdle) = some (0x00#8, 0) := by decide

/-! ### Steps of the encoder (section 2.3) -/

/-- V-E1. -/
theorem test_eOpen : encAfter (mk [.enc] encE1 dec0) = some ⟨1, 4, some ⟨10#8, 1⟩, 0, .busy, .none⟩ := by decide
/-- V-E2. -/
theorem test_eExtend : encAfter (mk [.enc] encE2 dec0) = some ⟨3, 4, some ⟨10#8, 3⟩, 0, .busy, .none⟩ := by decide
/-- V-E3. -/
theorem test_eClose :
    encAfter (mk [.enc] encE3 dec0) = some ⟨4, 4, some ⟨20#8, 1⟩, 1, .busy, .none⟩ ∧
    erunAfter (mk [.enc] encE3 dec0) = some [(0, 0x000000030A)] := by decide
/-- V-E3c: 255 and 0 differ. -/
theorem test_eClose_no_wrap :
    erunAfter (mk [.enc] { encU .busy 1 (some ⟨255#8, 1⟩) 0 [] with pixmem := ⟨[(1, 0#8)], []⟩ } dec0) =
      some [(0, 0x00000001FF)] := by decide
/-- V-E3b. -/
theorem test_eFlush :
    encAfter (mk [.enc] encE4 dec0) = some ⟨4, 4, none, 2, .done, .none⟩ ∧
    erunAfter (mk [.enc] encE4 dec0) = some [(0, 0x000000030A), (1, 0x0000000114)] := by decide
/-- V-E3d. -/
theorem test_eUnreachable_stuck : (step (mk [.enc] (encU .busy 4 none 0 []) dec0)) = .fault .encStuck := rfl

/-! ### Steps of the decoder (section 2.4) -/

/-- V-D1. -/
theorem test_dRun :
    decAfter (mk [.dec] enc0 decD1) = some ⟨1, 2, 3, 4, 0x01#8, 0⟩ ∧
    outAfter (mk [.dec] enc0 decD1) = some [(0, 10#8), (1, 10#8), (2, 10#8)] := by decide
/-- V-D7: the longest word, a test over the integers. -/
theorem test_dRun_longest_word_faults :
    decAfter (mk [.dec] enc0 (decU .busy 1 2 1 [(1, 0xFFFFFFFF02)] [])) = some ⟨1, 2, 1, 4, 0x23#8, 1⟩ := by decide
/-- V-D3. -/
theorem test_dFinish : decAfter (mk [.dec] enc0 decD3) = some ⟨2, 2, 4, 4, 0x02#8, 0⟩ := by decide
/-- V-D10. -/
theorem test_dFinish_short_faults : decAfter (mk [.dec] enc0 decShort) = some ⟨1, 1, 3, 4, 0x23#8, 1⟩ := by decide
/-- V-D2: the row `RUN` handed its word, exactly the remaining capacity. -/
theorem test_run_exact :
    ((next? (exec (.run 1 20#8) (mk [] enc0 decD2))).map (fun t => (t.dec.ridx, t.dec.cur, t.dec.outmem.cells))) =
      some (2, 4, [(0, 10#8), (1, 10#8), (2, 10#8), (3, 20#8)]) := by decide
/-- V-D4: the row `RUN` past the end: nothing is written. -/
theorem test_run_overlong :
    ((next? (exec (.run 2 2#8) (mk [] enc0 decLong))).map (fun t => (decStatus t, t.dec.info, t.dec.cur, t.dec.outmem.cells))) =
      some (0x23#8, 1, 3, [(0, 10#8), (1, 10#8), (2, 10#8)]) := by decide
/-- V-D8: the row `RUN.ZERO`. -/
theorem test_runZero :
    ((next? (exec (.runZero 9#8) (mk [] enc0 (decU .busy 1 3 2 [] [])))).map (fun t => (decStatus t, t.dec.info))) =
      some (0x33#8, 1) := by decide
/-- V-D9: the zero check comes first. -/
theorem test_runZero_check_comes_first : decStatusAfter (mk [.dec] enc0 decZero) = some (0x33#8, 1) := by decide

/-! ### The HOST's ports and Reset (sections 2.2, 2.6) -/

/-- V-C9: the artifact shows the latched width. -/
theorem test_artWidth_is_latched : readAfter (mk [RD .ART_WIDTH] { encDone with cfgWidth := 9 } dec0) = some 4 := by decide
/-- V-C15. -/
theorem test_readOnly_writes_ignored :
    encAfter (mk [.host (.regWrite .enc 9 5)] encDone dec0) = some ⟨4, 4, none, 2, .done, .none⟩ ∧
    encStatusAfter (mk [WR .ENC_STATUS 0xFF] encDone dec0) = some 0x02#8 := by decide
/-- P1's `LD ERUN[1]`. -/
theorem test_load_erun : readAfter (mk [LD .erun 1] encDone dec0) = some 0x0000000114 := by decide
/-- A write to `PIXMEM` keeps the canonical form (R16). -/
theorem test_store_pixmem :
    ((next? (step (mk [ST .pixmem 1 77] encDone dec0))).map (fun t => t.enc.pixmem.cells)) =
      some [(0, 10#8), (1, 77#8), (2, 10#8), (3, 20#8)] := by decide
/-- V-R2. -/
theorem test_reset_mid_frame :
    encStatusAfter (mk [RESET] encE3 decErr) = some 0x00#8 ∧ decStatusAfter (mk [RESET] encE3 decErr) = some (0x00#8, 0) := by
  decide

/-! ### What the next step runs when a table word is placed -/

theorem test_withFetchWord :
    encStatusAfter (State.reset.withFetchWord 8 0x01) = some 0x13#8 ∧
    encAfter (State.reset.withFetchWord 3 0b010) = some ⟨2, 2, some ⟨1#8, 1⟩, 1, .busy, .none⟩ ∧
    (next? (step (State.reset.withFetchWord 3 0b100))) = none ∧
    decAfter (State.reset.withFetchWord 1 1) = some ⟨1, 1, 1, 1, 0x02#8, 0⟩ ∧
    outAfter (State.reset.withFetchWord 40 0x0000000107) = some [(0, 7#8)] := by decide

/-! ### States that meet the invariant -/

/-- A memory with its lists given is in canonical form and in range, by evaluation. -/
theorem memory_ok {α : Type} {m : Memory α} {depth : Nat} {ok : α → Prop} [DecidablePred ok]
    (h : (decide m.wf && (m.cells ++ m.stale).all (fun c => decide (c.1 < depth ∧ ok c.2))) = true) :
    m.wf ∧ m.Within depth ok := by
  simp only [Bool.and_eq_true, decide_eq_true_eq, List.all_eq_true, List.mem_append] at h
  exact ⟨h.1, fun c hc => h.2 c (.inl hc), fun c hc => h.2 c (.inr hc)⟩

theorem enc_ok {e : EncUnit} (hpix : e.pixmem = pixels ∨ e.pixmem = .empty)
    (h : decide (e.cfgWidth < 2 ^ 16 ∧ e.cfgHeight < 2 ^ 16 ∧ e.w < 2 ^ 16 ∧ e.h < 2 ^ 16 ∧ e.cap < 2 ^ 32 ∧ e.idx < 2 ^ 32 ∧
        e.nruns < 2 ^ 32) = true)
    (hlen : (e.run.all (fun r => decide (r.length < 2 ^ 32 ∧ 1 ≤ r.length ∧ r.length ≤ e.idx ∧ e.nruns < e.idx))) = true)
    (herun : (decide e.erun.wf && (e.erun.cells ++ e.erun.stale).all (fun c => decide (c.1 < 2 ^ 32 ∧ c.2 < 2 ^ 40))) = true)
    (hc : decide (e.cap = e.w * e.h ∧ ((e.err = .none ↔ e.state ≠ .err) ∧ (e.err = .none ∨ e.err = .emptyInput)) ∧
        (e.run ≠ none → e.state = .busy) ∧
        (e.state = .busy → 1 ≤ e.cap ∧ e.idx ≤ e.cap ∧ (e.run = none ↔ e.idx = 0) ∧ (e.run = none → e.nruns = 0)) ∧
        (e.state = .done → 1 ≤ e.nruns ∧ e.nruns ≤ e.cap ∧ e.idx = e.cap)) = true) :
    EncInRange Config.defaultParam e ∧ EncConsistent e := by
  simp only [decide_eq_true_eq] at h hc
  simp only [Option.all_eq_true, decide_eq_true_eq] at hlen
  obtain ⟨h1, h2, h3, h4, h5, h6, h7⟩ := h
  obtain ⟨c1, c2, c3, c4, c5⟩ := hc
  refine ⟨⟨h1, h2, h3, h4, h5, h6, h7, fun r hr => (hlen r hr).1, ?_, memory_ok herun⟩,
    ⟨c1, c2, c3, c4, fun r hr => (hlen r hr).2, c5⟩⟩
  rcases hpix with hp | hp <;> rw [hp]
  · exact memory_ok (by decide)
  · exact memory_ok (by decide)

theorem dec_ok {d : DecUnit}
    (h : decide (d.info < 2 ^ 32 ∧ d.cfgWidth < 2 ^ 16 ∧ d.cfgHeight < 2 ^ 16 ∧ d.cfgNruns < 2 ^ 32 ∧ d.w < 2 ^ 16 ∧ d.h < 2 ^ 16 ∧
        d.cap < 2 ^ 32 ∧ d.nruns < 2 ^ 32 ∧ d.ridx < 2 ^ 32 ∧ d.cur < 2 ^ 32) = true)
    (hdrun : (decide d.drun.wf && (d.drun.cells ++ d.drun.stale).all (fun c => decide (c.1 < 2 ^ 32 ∧ c.2 < 2 ^ 40))) = true)
    (hout : (decide d.outmem.wf && (d.outmem.cells ++ d.outmem.stale).all (fun c => decide (c.1 < 2 ^ 32 ∧ True))) = true)
    (hc : decide (d.cap = d.w * d.h ∧
        ((d.err = .none ↔ d.state ≠ .err) ∧ (d.err = .none ∨ d.err = .lengthMismatch ∨ d.err = .malformedArtifact)) ∧
        (d.state ≠ .err → d.info = 0) ∧
        (d.state = .busy ∨ d.state = .done → 1 ≤ d.cap ∧ d.ridx ≤ d.nruns ∧ d.cur ≤ d.cap) ∧
        (d.state = .done → d.ridx = d.nruns ∧ d.cur = d.cap)) = true) :
    DecInRange Config.defaultParam d ∧ DecConsistent d := by
  simp only [decide_eq_true_eq] at h hc
  obtain ⟨h0, h1, h2, h3, h4, h5, h6, h7, h8, h9⟩ := h
  obtain ⟨c1, c2, c3, c4, c5⟩ := hc
  exact ⟨⟨h0, h1, h2, h3, h4, h5, h6, h7, h8, h9, memory_ok hdrun, memory_ok hout⟩, ⟨c1, c2, c3, c4, c5⟩⟩

theorem inv_mk (ts : List Turn) {e : EncUnit} {d : DecUnit} (he : EncInRange Config.defaultParam e ∧ EncConsistent e)
    (hd : DecInRange Config.defaultParam d ∧ DecConsistent d) : Inv (mk ts e d) := ⟨he.1, hd.1, he.2, hd.2⟩

theorem ok_enc0 : EncInRange Config.defaultParam enc0 ∧ EncConsistent enc0 :=
  enc_ok (.inr rfl) (by decide) (by decide) (by decide) (by decide)
theorem ok_encIdle : EncInRange Config.defaultParam encIdle ∧ EncConsistent encIdle :=
  enc_ok (.inl rfl) (by decide) (by decide) (by decide) (by decide)
theorem ok_encE1 : EncInRange Config.defaultParam encE1 ∧ EncConsistent encE1 :=
  enc_ok (.inl rfl) (by decide) (by decide) (by decide) (by decide)
theorem ok_encE2 : EncInRange Config.defaultParam encE2 ∧ EncConsistent encE2 :=
  enc_ok (.inl rfl) (by decide) (by decide) (by decide) (by decide)
theorem ok_encE3 : EncInRange Config.defaultParam encE3 ∧ EncConsistent encE3 :=
  enc_ok (.inl rfl) (by decide) (by decide) (by decide) (by decide)
theorem ok_encE4 : EncInRange Config.defaultParam encE4 ∧ EncConsistent encE4 :=
  enc_ok (.inl rfl) (by decide) (by decide) (by decide) (by decide)
theorem ok_encDone : EncInRange Config.defaultParam encDone ∧ EncConsistent encDone :=
  enc_ok (.inl rfl) (by decide) (by decide) (by decide) (by decide)
theorem ok_dec0 : DecInRange Config.defaultParam dec0 ∧ DecConsistent dec0 :=
  dec_ok (by decide) (by decide) (by decide) (by decide)
theorem ok_decIdle : DecInRange Config.defaultParam decIdle ∧ DecConsistent decIdle :=
  dec_ok (by decide) (by decide) (by decide) (by decide)
theorem ok_decD1 : DecInRange Config.defaultParam decD1 ∧ DecConsistent decD1 :=
  dec_ok (by decide) (by decide) (by decide) (by decide)
theorem ok_decD3 : DecInRange Config.defaultParam decD3 ∧ DecConsistent decD3 :=
  dec_ok (by decide) (by decide) (by decide) (by decide)
theorem ok_decShort : DecInRange Config.defaultParam decShort ∧ DecConsistent decShort :=
  dec_ok (by decide) (by decide) (by decide) (by decide)
theorem ok_decDone : DecInRange Config.defaultParam decDone ∧ DecConsistent decDone :=
  dec_ok (by decide) (by decide) (by decide) (by decide)

/-! ### For every obligation with hypotheses: states and operands that meet them, each clause at the ends of its range -/

/-- A reserved code at both ends, a run word at both ends. -/
theorem witness_DecodeOfEncodeIsTheOperation :
    (Instr.encRsvd 0x03#8).wf Config.defaultParam = true ∧ (Instr.decRsvd 0xFF#8).wf Config.defaultParam = true ∧
    (Instr.run 1 0#8).wf Config.defaultParam = true ∧ (Instr.run 0xFFFFFFFF 255#8).wf Config.defaultParam = true ∧
    Instr.eUnreachable.wf Config.defaultParam = true := by decide

theorem witness_EncodeOfDecodedWordIsTheWord :
    decode Config.defaultParam (.encCmd 0x03#8) = .ok (.encRsvd 0x03#8) ∧
    decode Config.defaultParam (.esel 0b111#3) = .ok .eFlush ∧
    decode Config.defaultParam (.runWord 0xFFFFFFFFFF) = .ok (.run 0xFFFFFFFF 255#8) ∧
    decode Config.defaultParam (.runWord 0) = .ok (.runZero 0#8) := ⟨rfl, rfl, rfl, rfl⟩

theorem witness_RunWordUnpacksAndPacks :
    0 < 2 ^ Config.defaultParam.lenW ∧ 0xFFFFFFFF < 2 ^ Config.defaultParam.lenW ∧ 0xFFFFFFFFFF < 2 ^ Config.defaultParam.runW := by
  decide

theorem witness_StepRunsTheDecodedOperation :
    (fetch (mk [CMD .enc .START] enc0 dec0) = .word (.encCmd 0x01#8) ∧ decode Config.defaultParam (.encCmd 0x01#8) = .ok .encStart) ∧
    (fetch (mk [.enc] encE2 dec0) = .word (.esel 0b011#3) ∧ decode Config.defaultParam (.esel 0b011#3) = .ok .eExtend) ∧
    (fetch (mk [] enc0 decD1) = .word (.dsel 0b0#1) ∧ decode Config.defaultParam (.dsel 0b0#1) = .ok .dRun) ∧
    fetch (mk [RESET] enc0 dec0) = .access .reset ∧ fetch (mk [] enc0 dec0) = .pass := ⟨⟨rfl, rfl⟩, ⟨rfl, rfl⟩, ⟨rfl, rfl⟩, rfl, rfl⟩

theorem witness_EncoderTurnTakesTheSelectedStep :
    encIdle.state ≠ .busy ∧ encDone.state ≠ .busy ∧
    (encE4.state = .busy ∧ encE4.idx = encE4.cap ∧ encE4.run ≠ none) ∧
    (encE1.state = .busy ∧ encE1.idx ≠ encE1.cap ∧ encE1.run = none) ∧
    (encE2.state = .busy ∧ encE2.idx ≠ encE2.cap ∧ encE2.run = some ⟨10#8, 2⟩ ∧ readPixmem (mk [.enc] encE2 dec0) 2 = 10#8) ∧
    (encE3.state = .busy ∧ encE3.idx ≠ encE3.cap ∧ encE3.run = some ⟨10#8, 3⟩ ∧ readPixmem (mk [.enc] encE3 dec0) 3 ≠ 10#8) ∧
    (encU .busy 4 none 0 []).idx = (encU .busy 4 none 0 []).cap := by decide

theorem witness_DecoderTurnTakesTheSelectedStep :
    (Inv (mk [.dec] enc0 decIdle) ∧ decIdle.state ≠ .busy) ∧
    (Inv (mk [.dec] enc0 decD1) ∧ decD1.state = .busy ∧ decD1.ridx < decD1.nruns) ∧
    (Inv (mk [.dec] enc0 decD3) ∧ decD3.state = .busy ∧ decD3.ridx = decD3.nruns) :=
  ⟨⟨inv_mk _ ok_enc0 ok_decIdle, by decide⟩, ⟨inv_mk _ ok_enc0 ok_decD1, by decide⟩, ⟨inv_mk _ ok_enc0 ok_decD3, by decide⟩⟩

/-- The values `0`, `1`, `2`, `3`, `255` and `256` of a write to a command register. -/
theorem witness_CommandWriteRunsTheCommandOfItsLowByte :
    (mk [WR .ENC_CMD 256] enc0 dec0).turns = [.host (.regWrite .enc 0 256)] ∧ 256 % 256 = 0 ∧ 1 % 256 = 1 ∧ 2 % 256 = 2 ∧
    3 ≤ 3 % 256 ∧ 3 ≤ 255 % 256 ∧ (mk [WR .DEC_CMD 255] enc0 dec0).turns = [.host (.regWrite .dec 0 255)] := by decide

theorem witness_NopAndReservedCodesChangeNothing :
    (mk [WR .ENC_CMD 0x03] encE2 dec0).turns = .host (.regWrite .enc 0 0x03) :: [] ∧
    (mk [WR .DEC_CMD 0xFF] enc0 decD1).turns = .host (.regWrite .dec 0 0xFF) :: [] := by decide

theorem witness_EncStartLatchesThenFaultsOrBegins :
    (mk [CMD .enc .START] enc0 dec0).turns = .host (.regWrite .enc 0 0x01) :: [] ∧ encE2.state = .busy ∧
    (enc0.state ≠ .busy ∧ enc0.cfgWidth = 0) ∧ (encDone.state ≠ .busy ∧ encDone.cfgWidth ≠ 0 ∧ encDone.cfgHeight ≠ 0) := by decide

theorem witness_EncClearLeavesDoneAndErr :
    (mk [CMD .enc .CLEAR] enc0 dec0).turns = .host (.regWrite .enc 0 0x02) :: [] ∧ encDone.state = .done ∧ encErr.state = .err ∧
    enc0.state = .idle ∧ encE1.state = .busy := by decide

theorem witness_DecStartLatchesThenFaultsOrBegins :
    (mk [CMD .dec .START] enc0 dec0).turns = .host (.regWrite .dec 0 0x01) :: [] ∧ decD1.state = .busy ∧
    (dec0.state ≠ .busy ∧ dec0.cfgWidth = 0) ∧ (decErr.state ≠ .busy ∧ decErr.cfgHeight = 0) ∧
    (decDone.state ≠ .busy ∧ decDone.cfgWidth ≠ 0 ∧ decDone.cfgHeight ≠ 0) := by decide

theorem witness_DecClearLeavesDoneAndErr :
    (mk [CMD .dec .CLEAR] enc0 dec0).turns = .host (.regWrite .dec 0 0x02) :: [] ∧ decDone.state = .done ∧ decErr.state = .err ∧
    dec0.state = .idle ∧ decD1.state = .busy := by decide

/-- The largest dimensions. -/
theorem witness_CapacityIsTheExactProduct :
    let s := mk [] { enc0 with cfgWidth := 0xFFFF, cfgHeight := 0xFFFF } { dec0 with cfgWidth := 0xFFFF, cfgHeight := 0xFFFF }
    s.enc.cfgWidth < 2 ^ s.param.dimW ∧ s.enc.cfgHeight < 2 ^ s.param.dimW ∧ s.dec.cfgWidth < 2 ^ s.param.dimW ∧
    s.dec.cfgHeight < 2 ^ s.param.dimW ∧ s.enc.state ≠ .busy ∧ s.dec.state ≠ .busy ∧ s.param.dimW = 16 ∧
    (next? (exec .encStart s)).isSome = true ∧ (next? (exec .decStart s)).isSome = true := by decide

theorem witness_EncOpenStartsARunOfLengthOne :
    encE1.state = .busy ∧ encE1.idx < encE1.cap ∧ encE1.cap < 2 ^ Config.defaultParam.lenW ∧ encE1.run = none ∧
    Inv (mk [] encE1 dec0) := ⟨by decide, by decide, by decide, by decide, inv_mk _ ok_encE1 ok_dec0⟩

theorem witness_EncExtendLengthensTheOpenRun :
    encE2.state = .busy ∧ encE2.idx < encE2.cap ∧ encE2.cap < 2 ^ Config.defaultParam.lenW ∧ encE2.run = some ⟨10#8, 2⟩ ∧
    readPixmem (mk [] encE2 dec0) encE2.idx = 10#8 ∧ 2 ≤ encE2.idx ∧ Inv (mk [] encE2 dec0) :=
  ⟨by decide, by decide, by decide, by decide, by decide, by decide, inv_mk _ ok_encE2 ok_dec0⟩

theorem witness_EncCloseAppendsTheOpenRun :
    encE3.state = .busy ∧ encE3.idx < encE3.cap ∧ encE3.cap < 2 ^ Config.defaultParam.lenW ∧ encE3.run = some ⟨10#8, 3⟩ ∧
    readPixmem (mk [] encE3 dec0) encE3.idx ≠ 10#8 ∧ encE3.nruns < encE3.idx ∧ Inv (mk [] encE3 dec0) :=
  ⟨by decide, by decide, by decide, by decide, by decide, by decide, inv_mk _ ok_encE3 ok_dec0⟩

theorem witness_EncFlushAppendsTheFinalRun :
    encE4.state = .busy ∧ encE4.idx = encE4.cap ∧ encE4.cap < 2 ^ Config.defaultParam.lenW ∧ encE4.run = some ⟨20#8, 1⟩ ∧
    encE4.nruns < encE4.idx ∧ encE4.err = .none := by decide

theorem witness_UnreachableVectorIsStuckAndUnreached :
    ((encU .busy 4 none 0 []).state = .busy ∧ (encU .busy 4 none 0 []).idx = (encU .busy 4 none 0 []).cap) ∧
    (Inv (mk [] encE4 dec0) ∧ encE4.state = .busy) :=
  ⟨by decide, inv_mk _ ok_encE4 ok_dec0, by decide⟩

/-- A length of 0, of one more than what is left, of exactly what is left. -/
theorem witness_DecRunFillsOrFaults :
    (decZero.state = .busy ∧ decZero.ridx < decZero.nruns ∧ decZero.nruns < 2 ^ Config.defaultParam.lenW ∧ decZero.cur ≤ decZero.cap ∧
      readDrun (mk [] enc0 decZero) decZero.ridx = 0x002 ∧ 0x002 / 256 = 0) ∧
    (decLong.state = .busy ∧ decLong.ridx < decLong.nruns ∧ decLong.cur ≤ decLong.cap ∧
      readDrun (mk [] enc0 decLong) decLong.ridx = 0x202 ∧ 0x202 / 256 = 2 ∧ decLong.cap - decLong.cur < 2) ∧
    (decD2.state = .busy ∧ decD2.ridx < decD2.nruns ∧ decD2.cur ≤ decD2.cap ∧
      readDrun (mk [] enc0 decD2) decD2.ridx = 0x114 ∧ 0x114 / 256 = 1 ∧ 1 ≤ decD2.cap - decD2.cur) := by decide

theorem witness_DecFinishChecksTheSum :
    (decD3.state = .busy ∧ decD3.ridx = decD3.nruns ∧ decD3.cur = decD3.cap) ∧
    (decShort.state = .busy ∧ decShort.ridx = decShort.nruns ∧ decShort.cur ≠ decShort.cap) ∧ Inv (mk [] enc0 decShort) :=
  ⟨by decide, by decide, inv_mk _ ok_enc0 ok_decShort⟩

theorem witness_RunWordRowsAreWhatDRunInterprets :
    (decD2.state = .busy ∧ decD2.ridx < decD2.nruns ∧ decD2.nruns < 2 ^ Config.defaultParam.lenW) ∧
    decD2.cap < decD2.cur + 2 ∧ decD2.cur + 1 ≤ decD2.cap := by decide

theorem witness_DecoderFaultsArePrecise :
    decLong.state = .busy ∧ ∃ t, exec .dRun (mk [] enc0 decLong) = .next t ∧ decide (t.dec.state = .err) = true :=
  ⟨rfl, exists_next (by decide)⟩

theorem witness_DecErrorInfoLocatesTheFault :
    (∃ t, exec .dRun (mk [] enc0 decLong) = .next t ∧ decide (t.dec.state = .err ∧ t.dec.err = .lengthMismatch) = true) ∧
    (∃ t, exec .dRun (mk [] enc0 decZero) = .next t ∧ decide (t.dec.state = .err ∧ t.dec.err = .malformedArtifact) = true) ∧
    (∃ t, exec .dFinish (mk [] enc0 decShort) = .next t ∧ decide (t.dec.state = .err) = true) ∧
    (dec0.state ≠ .busy ∧ ∃ t, exec .decStart (mk [] enc0 dec0) = .next t ∧ decide (t.dec.state = .err) = true) :=
  ⟨exists_next (by decide), exists_next (by decide), exists_next (by decide), by decide, exists_next (by decide)⟩

theorem witness_ErrIsLeftOnlyByCommandOrReset :
    (encErr.state = .err ∧ decErr.state = .err) ∧
    (∀ s ∈ [mk [.enc] encErr decErr, mk [CMD .enc .NOP] encErr decErr, mk [WR .DEC_NRUNS 3] encErr decErr],
      commands .enc 0x01#8 s = false ∧ commands .enc 0x02#8 s = false ∧ commands .dec 0x01#8 s = false ∧
      commands .dec 0x02#8 s = false ∧ resetsNext s = false ∧ (next? (step s)).isSome = true) ∧
    (∀ s ∈ [mk [CMD .enc .CLEAR] encErr decErr, mk [CMD .enc .START] encErr decErr, mk [CMD .dec .CLEAR] encErr decErr,
      mk [CMD .dec .START] encErr decErr, mk [RESET] encErr decErr], (next? (step s)).isSome = true) ∧
    commands .enc 0x02#8 (mk [CMD .enc .CLEAR] encErr decErr) = true ∧ commands .enc 0x01#8 (mk [CMD .enc .START] encErr decErr) = true ∧
    commands .dec 0x02#8 (mk [CMD .dec .CLEAR] encErr decErr) = true ∧ commands .dec 0x01#8 (mk [CMD .dec .START] encErr decErr) = true ∧
    resetsNext (mk [RESET] encErr decErr) = true := by decide

/-- Every register of both maps; the images in DONE. -/
theorem witness_RegisterReadsReturnTheirRegisters :
    (∀ n ∈ [0, 1, 2, 3, 4, 5, 6], (mk [.host (.regRead .enc n)] encDone decDone).turns = .host (.regRead .enc n) :: []) ∧
    (∀ n ∈ [0, 1, 2, 3, 4, 5, 6, 7], (mk [.host (.regRead .dec n)] encDone decDone).turns = .host (.regRead .dec n) :: []) ∧
    encDone.state = .done ∧ decDone.state = .done := by decide

theorem witness_OutputRegistersAreUnspecifiedOutsideDone :
    (mk [RD .ART_WIDTH] encE2 dec0).turns = .host (.regRead .enc 4) :: [] ∧ (mk [RD .ART_NRUNS] encE2 dec0).turns = .host (.regRead .enc 6) :: [] ∧
    encE2.state ≠ .done ∧ (mk [RD .OUT_WIDTH] enc0 decD1).turns = .host (.regRead .dec 5) :: [] ∧
    (mk [RD .OUT_HEIGHT] enc0 decD1).turns = .host (.regRead .dec 6) :: [] ∧ decD1.state ≠ .done := by decide

theorem witness_ConfigurationWritesAreCutToWidth :
    (mk [WR .ENC_WIDTH 0x10000] encE2 dec0).turns = .host (.regWrite .enc 2 0x10000) :: [] ∧
    (mk [WR .ENC_HEIGHT 1] encE2 dec0).turns = .host (.regWrite .enc 3 1) :: [] ∧
    (mk [WR .DEC_WIDTH 1] enc0 decD1).turns = .host (.regWrite .dec 2 1) :: [] ∧
    (mk [WR .DEC_HEIGHT 1] enc0 decD1).turns = .host (.regWrite .dec 3 1) :: [] ∧
    (mk [WR .DEC_NRUNS 0xFFFFFFFF] enc0 decD1).turns = .host (.regWrite .dec 4 0xFFFFFFFF) :: [] := by decide

theorem witness_ReadOnlyAndUnmappedRegistersIgnoreWrites :
    (mk [WR .ENC_STATUS 0xFF] encDone dec0).turns = .host (.regWrite .enc 1 0xFF) :: [] ∧
    (mk [WR .ART_WIDTH 5] encDone dec0).turns = .host (.regWrite .enc 4 5) :: [] ∧
    (mk [WR .OUT_WIDTH 5] enc0 decDone).turns = .host (.regWrite .dec 5 5) :: [] ∧
    (mk [.host (.regRead .enc 7)] enc0 dec0).turns = .host (.regRead .enc 7) :: [] ∧
    (mk [.host (.regRead .dec 8)] enc0 dec0).turns = .host (.regRead .dec 8) :: [] := by decide

/-- The first and the last entry, the largest value. -/
theorem witness_HostMemoryWritesReachOnlyTheInputs :
    (mk [ST .pixmem 0 255] enc0 dec0).turns = .host (.memWrite .pixmem 0 255) :: [] ∧ 0 < 2 ^ Config.defaultParam.lenW ∧
    255 < 2 ^ entryWidth Config.defaultParam .pixmem ∧
    (mk [ST .drun 0xFFFFFFFF 0xFFFFFFFFFF] enc0 dec0).turns = .host (.memWrite .drun 0xFFFFFFFF 0xFFFFFFFFFF) :: [] ∧
    0xFFFFFFFF < 2 ^ Config.defaultParam.lenW ∧ 0xFFFFFFFFFF < 2 ^ entryWidth Config.defaultParam .drun ∧
    (mk [ST .outmem 0 1] enc0 dec0).turns = .host (.memWrite .outmem 0 1) :: [] := by decide

/-- Inside and outside the frame's region, at its ends. -/
theorem witness_HostMemoryReadsReturnDefinedEntries :
    (mk [LD .pixmem 3] encDone decDone).turns = .host (.memRead .pixmem 3) :: [] ∧
    (mk [LD .drun 0] encDone decDone).turns = .host (.memRead .drun 0) :: [] ∧
    ((mk [LD .erun 1] encDone decDone).turns = .host (.memRead .erun 1) :: [] ∧ encDone.state = .done ∧ 1 < encDone.nruns) ∧
    ((mk [LD .outmem 3] encDone decDone).turns = .host (.memRead .outmem 3) :: [] ∧ decDone.state = .done ∧ 3 < decDone.cap) ∧
    encDone.nruns ≤ 2 ∧ decDone.cap ≤ 4 ∧ encE4.state ≠ .done ∧ 0xFFFFFFFF < 2 ^ Config.defaultParam.lenW := by decide

theorem witness_HostReadsHaveNoSideEffect :
    (mk [LD .outmem 3] encDone decDone).turns = .host (.memRead .outmem 3) :: [] ∧
    (∃ t, step (mk [LD .outmem 3] encDone decDone) = .next t ∧ decide (t.draws = (mk [LD .outmem 3] encDone decDone).draws) = true) ∧
    (∃ t, step (mk [RD .ART_NRUNS] enc0 dec0) = .next t ∧ decide (t.draws = 1) = true) :=
  ⟨rfl, exists_next (by decide), exists_next (by decide)⟩

theorem witness_StatusWordsTakeTheReachableValues :
    (mk [WR .ENC_STATUS 0] enc0 dec0).turns = .host (.regWrite .enc 1 0) :: [] ∧
    (mk [WR .DEC_STATUS 0] enc0 dec0).turns = .host (.regWrite .dec 1 0) :: [] ∧ Inv (mk [] encDone decD1) ∧
    (busyOutput .enc (mk [] encE1 decErr) = true ∧ doneOutput .enc (mk [] encDone decErr) = true ∧
      errOutput .enc (mk [] encErr decErr) = true ∧ busyOutput .dec (mk [] enc0 decD1) = true ∧
      doneOutput .dec (mk [] enc0 decDone) = true ∧ errOutput .dec (mk [] enc0 decErr) = true) :=
  ⟨rfl, rfl, inv_mk _ ok_encDone ok_decD1, by decide⟩

theorem witness_ResetLeavesTheResetValues : (mk [RESET] encE3 decD2).turns = .host .reset :: [] := rfl

theorem witness_ResetKeepsWhatTheMemoriesHeld : (mk [RESET] encE3 decD2).turns = .host .reset :: [] := rfl

theorem witness_EveryStepKeepsTheInvariant :
    (Inv (mk [.enc] encE3 dec0) ∧ ∃ t, step (mk [.enc] encE3 dec0) = .next t ∧ true = true) ∧
    (Inv (mk [.dec] enc0 decD1) ∧ ∃ t, step (mk [.dec] enc0 decD1) = .next t ∧ true = true) :=
  ⟨⟨inv_mk _ ok_encE3 ok_dec0, exists_next (P := fun _ => true) (by decide)⟩,
    ⟨inv_mk _ ok_enc0 ok_decD1, exists_next (P := fun _ => true) (by decide)⟩⟩

theorem witness_EveryStepTakesOneTurnAndKeepsTheParameter :
    ∃ t, step (mk [.enc, .dec] encE3 dec0) = .next t ∧ decide (t.turns = [.dec]) = true := exists_next (by decide)

theorem witness_EveryExpressibleStepCompletes :
    (Inv (mk [ST .pixmem 0xFFFFFFFF 255] enc0 dec0) ∧ inexpressible (mk [ST .pixmem 0xFFFFFFFF 255] enc0 dec0) = false) ∧
    (Inv (mk [ST .pixmem 0x100000000 255] enc0 dec0) ∧ inexpressible (mk [ST .pixmem 0x100000000 255] enc0 dec0) = true) :=
  ⟨⟨inv_mk _ ok_enc0 ok_dec0, by decide⟩, ⟨inv_mk _ ok_enc0 ok_dec0, by decide⟩⟩

/-- Every operation of ENC that answers a next state does so somewhere. -/
theorem witness_EncOperationsFrame :
    ∀ c ∈ [(Instr.encNop, enc0), (.encStart, encIdle), (.encStart, enc0), (.encClear, encDone), (.encRsvd 0x03#8, encE2), (.eOpen, encE1),
      (.eExtend, encE2), (.eClose, encE3), (.eFlush, encE4)],
      isEncOp c.1 = true ∧ (next? (exec c.1 (mk [] c.2 dec0))).isSome = true := by decide

/-- Every operation of DEC that answers a next state does so somewhere. -/
theorem witness_DecOperationsFrame :
    ∀ c ∈ [(Instr.decNop, dec0), (.decStart, decIdle), (.decStart, dec0), (.decClear, decErr), (.decRsvd 0x03#8, decD1), (.dRun, decD1),
      (.dRun, decLong), (.dFinish, decD3), (.dFinish, decShort), (.run 1 5#8, decD2), (.run 2 5#8, decD2), (.runZero 5#8, decD2)],
      isEncOp c.1 = false ∧ (next? (exec c.1 (mk [] enc0 c.2))).isSome = true := by decide

theorem witness_LatchesAreConstantDuringAFrame :
    encE2.state = .busy ∧ decD1.state = .busy ∧ resetsNext (mk [WR .ENC_WIDTH 9] encE2 decD1) = false ∧
    (∃ t, step (mk [WR .ENC_WIDTH 9] encE2 decD1) = .next t ∧ decide (t.enc.cfgWidth = 9) = true) ∧
    (∃ t, step (mk [WR .DEC_NRUNS 0] encE2 decD1) = .next t ∧ decide (t.dec.cfgNruns = 0) = true) :=
  ⟨rfl, rfl, rfl, exists_next (by decide), exists_next (by decide)⟩

theorem witness_UnitsNeverWriteTheirInputs :
    (∃ t, step (mk [.enc] encE3 decD1) = .next t ∧ true = true) ∧
    (∀ op rest, (mk [.enc] encE3 decD1).turns = .host op :: rest → ∃ u v, op = .regWrite u 0 v) ∧
    (∀ op rest, (mk [CMD .enc .START] encIdle decD1).turns = .host op :: rest → ∃ u v, op = .regWrite u 0 v) :=
  ⟨exists_next (P := fun _ => true) (by decide), fun op rest h => (by cases h),
    fun op rest h => ⟨.enc, 1, by cases h; rfl⟩⟩

/-- Each of the transitions of `ENC.state` happens. -/
theorem witness_EncStateTransitions :
    encStatusAfter (mk [CMD .enc .START] encIdle dec0) = some 0x01#8 ∧ encStatusAfter (mk [CMD .enc .START] enc0 dec0) = some 0x13#8 ∧
    encStatusAfter (mk [.enc] encE4 dec0) = some 0x02#8 ∧ encStatusAfter (mk [CMD .enc .CLEAR] encDone dec0) = some 0x00#8 ∧
    encStatusAfter (mk [RESET] encE2 dec0) = some 0x00#8 := by decide

/-- Each of the transitions of `DEC.state` happens. -/
theorem witness_DecStateTransitions :
    decStatusAfter (mk [CMD .dec .START] enc0 decIdle) = some (0x01#8, 0) ∧ decStatusAfter (mk [.dec] enc0 decLong) = some (0x23#8, 1) ∧
    decStatusAfter (mk [.dec] enc0 decD3) = some (0x02#8, 0) ∧ decStatusAfter (mk [.dec] enc0 decShort) = some (0x23#8, 1) ∧
    decStatusAfter (mk [CMD .dec .CLEAR] enc0 decErr) = some (0x00#8, 0) ∧ decStatusAfter (mk [RESET] enc0 decD2) = some (0x00#8, 0) := by
  decide

theorem witness_OutputsAreStableInDone :
    encDone.state = .done ∧ decDone.state = .done ∧ resetsNext (mk [WR .ENC_WIDTH 9] encDone decDone) = false ∧
    commands .enc 0x01#8 (mk [WR .ENC_WIDTH 9] encDone decDone) = false ∧ commands .enc 0x02#8 (mk [WR .ENC_WIDTH 9] encDone decDone) = false ∧
    commands .dec 0x01#8 (mk [WR .ENC_WIDTH 9] encDone decDone) = false ∧ commands .dec 0x02#8 (mk [WR .ENC_WIDTH 9] encDone decDone) = false ∧
    (next? (step (mk [WR .ENC_WIDTH 9] encDone decDone))).isSome = true := by decide

theorem witness_UnitsShareNoState :
    (isEncOp .eClose = true ∧ ∃ t, exec .eClose (mk [] encE3 dec0) = .next t ∧ true = true) ∧
    (isEncOp .dRun = false ∧ ∃ t, exec .dRun (mk [] enc0 decD1) = .next t ∧ true = true) :=
  ⟨⟨rfl, exists_next (P := fun _ => true) (by decide)⟩, ⟨rfl, exists_next (P := fun _ => true) (by decide)⟩⟩

/-- The pixels of S1. -/
def pixS1 : List Byte := [10#8, 10#8, 10#8, 20#8]
/-- The runs of S1. -/
def runsS1 : List Run := [⟨3, 10#8⟩, ⟨1, 20#8⟩]

/-- ENC at the end of the scan of S1's frame. -/
theorem encFrame_busy : EncFrame pixS1 (mk [.enc] encE4 dec0) := by
  have hc : closedRuns (mk [.enc] encE4 dec0) = [⟨3, 10#8⟩] := by decide
  have ho : openRun (mk [.enc] encE4 dec0) = [⟨1, 20#8⟩] := by decide
  refine ⟨by decide, fun _ => by unfold PixelsAre; decide, fun _ => by rw [hc, ho]; decide, ?_, ?_, fun h => by cases h⟩
  · rw [hc]; decide
  · rw [hc, ho]; simp [NoAdjacentEqual]

/-- ENC when S1's frame has ended. -/
theorem encFrame_done : EncFrame pixS1 (mk [] encDone decIdle) := by
  have hc : closedRuns (mk [] encDone decIdle) = [⟨3, 10#8⟩, ⟨1, 20#8⟩] := by decide
  have ho : openRun (mk [] encDone decIdle) = [] := by decide
  refine ⟨by decide, fun h => (by cases h), fun h => (by cases h), ?_, ?_, fun _ => by rw [hc]; decide⟩
  · rw [hc]; decide
  · rw [hc, ho]; simp [NoAdjacentEqual]

theorem witness_EncFrameIsKeptByEveryStep :
    (encIdle.state ≠ .busy ∧ 1 ≤ encIdle.cfgWidth * encIdle.cfgHeight ∧ pixS1.length = encIdle.cfgWidth * encIdle.cfgHeight ∧
      PixelsAre pixS1 (mk [] encIdle dec0)) ∧
    (Inv (mk [.enc] encE4 dec0) ∧ EncFrame pixS1 (mk [.enc] encE4 dec0) ∧ encE4.state = .busy ∧
      breaksDuty .enc (mk [.enc] encE4 dec0) = false ∧ resetsNext (mk [.enc] encE4 dec0) = false ∧
      ∃ t, step (mk [.enc] encE4 dec0) = .next t ∧ decide (t.enc.state = .done) = true) :=
  ⟨⟨by decide, by decide, by decide, by unfold PixelsAre; decide⟩,
    inv_mk _ ok_encE4 ok_dec0, encFrame_busy, rfl, rfl, rfl, exists_next (by decide)⟩

/-- DEC after the first run of S1's artifact. -/
theorem decFrame_busy : DecFrame runsS1 (mk [.dec] enc0 decD2) :=
  ⟨by decide, fun _ => by unfold DrunIs; decide, by decide, by decide, by unfold OutmemIs; decide⟩

/-- DEC when S1's artifact is decoded. -/
theorem decFrame_done : DecFrame runsS1 (mk [] enc0 decDone) :=
  ⟨by decide, fun _ => by unfold DrunIs; decide, by decide, by decide, by unfold OutmemIs; decide⟩

theorem ok_decD2 : DecInRange Config.defaultParam decD2 ∧ DecConsistent decD2 :=
  dec_ok (by decide) (by decide) (by decide) (by decide)

theorem witness_DecFrameIsKeptByEveryStep :
    (decIdle.state ≠ .busy ∧ 1 ≤ decIdle.cfgWidth * decIdle.cfgHeight ∧ runsS1.length = decIdle.cfgNruns ∧
      DrunIs runsS1 (mk [] enc0 decIdle)) ∧
    (Inv (mk [.dec] enc0 decD2) ∧ DecFrame runsS1 (mk [.dec] enc0 decD2) ∧ decD2.state = .busy ∧
      breaksDuty .dec (mk [.dec] enc0 decD2) = false ∧ resetsNext (mk [.dec] enc0 decD2) = false ∧
      ∃ t, step (mk [.dec] enc0 decD2) = .next t ∧ decide (t.dec.state ≠ .err) = true) :=
  ⟨⟨by decide, by decide, by decide, by unfold DrunIs; decide⟩,
    inv_mk _ ok_enc0 ok_decD2, decFrame_busy, rfl, rfl, rfl, exists_next (by decide)⟩

theorem witness_EncStepsCountDownToDone :
    (Inv (mk [.enc] encE4 dec0) ∧ encE4.state = .busy ∧ resetsNext (mk [.enc] encE4 dec0) = false ∧
      fetch (mk [.enc] encE4 dec0) = .word (.esel (esel (mk [.enc] encE4 dec0))) ∧
      ∃ t, step (mk [.enc] encE4 dec0) = .next t ∧ decide (encStepsLeft t = 0) = true) ∧
    (Inv (mk [.dec] encE2 decD1) ∧ fetch (mk [.dec] encE2 decD1) ≠ .word (.esel (esel (mk [.dec] encE2 decD1)))) :=
  ⟨⟨inv_mk _ ok_encE4 ok_dec0, rfl, rfl, by decide, exists_next (by decide)⟩, inv_mk _ ok_encE2 ok_decD1, by decide⟩

/-- A step that finishes, a step that consumes a run, a step that faults, a step of another agent. -/
theorem witness_DecStepsCountDownToTheEnd :
    (Inv (mk [.dec] enc0 decD3) ∧ decD3.state = .busy ∧ resetsNext (mk [.dec] enc0 decD3) = false ∧
      fetch (mk [.dec] enc0 decD3) = .word (.dsel (dsel (mk [.dec] enc0 decD3))) ∧
      ∃ t, step (mk [.dec] enc0 decD3) = .next t ∧ decide (decStepsLeft t = 0 ∧ t.dec.state = .done) = true) ∧
    (Inv (mk [.dec] enc0 decD1) ∧ decD1.state = .busy ∧
      ∃ t, step (mk [.dec] enc0 decD1) = .next t ∧ decide (decStepsLeft t = 2 ∧ t.dec.state ≠ .err) = true) ∧
    (Inv (mk [.dec] enc0 decShort) ∧ decShort.state = .busy ∧
      ∃ t, step (mk [.dec] enc0 decShort) = .next t ∧ decide (decStepsLeft t = 0 ∧ t.dec.state = .err) = true) ∧
    (Inv (mk [WR .DEC_NRUNS 9] enc0 decD1) ∧ resetsNext (mk [WR .DEC_NRUNS 9] enc0 decD1) = false ∧
      fetch (mk [WR .DEC_NRUNS 9] enc0 decD1) ≠ .word (.dsel (dsel (mk [WR .DEC_NRUNS 9] enc0 decD1))) ∧
      ∃ t, step (mk [WR .DEC_NRUNS 9] enc0 decD1) = .next t ∧ decide (decStepsLeft t = 3) = true) :=
  ⟨⟨inv_mk _ ok_enc0 ok_decD3, rfl, rfl, by decide, exists_next (by decide)⟩,
    ⟨inv_mk _ ok_enc0 ok_decD1, rfl, exists_next (by decide)⟩, ⟨inv_mk _ ok_enc0 ok_decShort, rfl, exists_next (by decide)⟩,
    inv_mk _ ok_enc0 ok_decD1, rfl, by decide, exists_next (by decide)⟩

/-- A schedule with turns of both units and HOST transactions. -/
theorem witness_EncoderComputesEncode :
    Inv (mk [] encIdle dec0) ∧ encIdle.state ≠ .busy ∧ pixS1.length = encIdle.cfgWidth * encIdle.cfgHeight ∧
    PixelsAre pixS1 (mk [] encIdle dec0) ∧
    (∀ t ∈ [.enc, .dec, .enc, RD .ENC_STATUS, .enc, ST .pixmem 4 7, .enc, WR .ENC_WIDTH 9, .enc],
      encQuiet Config.defaultParam (encIdle.cfgWidth * encIdle.cfgHeight) t = true) ∧
    (∃ a, encodeFn encIdle.cfgWidth encIdle.cfgHeight pixS1 = .ok a) ∧
    (Inv (mk [] enc0 dec0) ∧ ([] : List Byte).length = enc0.cfgWidth * enc0.cfgHeight ∧ PixelsAre [] (mk [] enc0 dec0)) :=
  ⟨inv_mk _ ok_encIdle ok_dec0, by decide, by decide, by unfold PixelsAre; decide, by decide, ⟨_, rfl⟩,
    inv_mk _ ok_enc0 ok_dec0, by decide, by unfold PixelsAre; decide⟩

theorem witness_DecoderComputesDecode :
    Inv (mk [] enc0 decIdle) ∧ decIdle.state ≠ .busy ∧ runsS1.length = decIdle.cfgNruns ∧ DrunIs runsS1 (mk [] enc0 decIdle) ∧
    (∀ t ∈ [.dec, ST .drun 2 0x105, .dec, WR .DEC_NRUNS 0, .enc, .dec], decQuiet Config.defaultParam runsS1.length t = true) ∧
    runsS1.length + 1 ≤ List.count .dec [.dec, ST .drun 2 0x105, .dec, WR .DEC_NRUNS 0, .enc, .dec] ∧
    decodeFn decIdle.cfgWidth decIdle.cfgHeight runsS1 = .ok pixS1 :=
  ⟨inv_mk _ ok_enc0 ok_decIdle, by decide, by decide, by unfold DrunIs; decide, by decide, by decide, rfl⟩

/-- A schedule of exactly `ART_NRUNS + 1` turns of DEC, with a new frame of ENC begun and other HOST transactions between. -/
theorem witness_RoundTripReproducesTheGrid :
    (pixS1.length = 4 * 1 ∧ encodeFn 4 1 pixS1 = .ok ⟨4, 1, runsS1⟩) ∧
    (Inv (mk [] encDone decIdle) ∧ encDone.state = .done ∧ EncFrame pixS1 (mk [] encDone decIdle) ∧ decIdle.state ≠ .busy ∧
      decIdle.cfgWidth = encDone.w ∧ decIdle.cfgHeight = encDone.h ∧ decIdle.cfgNruns = encDone.nruns ∧
      ∀ k, k < encDone.nruns → readDrun (mk [] encDone decIdle) k = readErun (mk [] encDone decIdle) k) ∧
    (∀ t ∈ [.dec, CMD .enc .START, .enc, .dec, ST .drun 2 0x105, RD .DEC_STATUS, ST .pixmem 0 77, .dec],
      decQuiet Config.defaultParam encDone.nruns t = true) ∧
    encDone.nruns + 1 ≤ List.count .dec [.dec, CMD .enc .START, .enc, .dec, ST .drun 2 0x105, RD .DEC_STATUS, ST .pixmem 0 77, .dec] :=
  ⟨⟨rfl, rfl⟩, ⟨inv_mk _ ok_encDone ok_decIdle, rfl, encFrame_done, by decide, rfl, rfl, rfl, by decide⟩, by decide, by decide⟩

theorem witness_EncodeGivesTheUniqueMaximalRuns :
    pixS1 ≠ [] ∧ expand runsS1 = pixS1 ∧ (∀ r ∈ runsS1, 1 ≤ r.length) ∧ NoAdjacentEqual runsS1 :=
  ⟨by decide, by decide, by decide, by simp [NoAdjacentEqual, runsS1]⟩

theorem witness_EncodeConservesLengthsAndNeverMerges : pixS1.length = 4 * 1 ∧ encodeFn 4 1 pixS1 = .ok ⟨4, 1, runsS1⟩ := ⟨rfl, rfl⟩

/-- V-E4's uniform grid, P5's alternating one. -/
theorem witness_UniformIsOneRunAndAlternatingIsUnitRuns :
    1 ≤ 6 ∧ encodeRuns (List.replicate 6 7#8) = [⟨6, 7#8⟩] ∧ [0#8, 255#8, 0#8, 255#8].IsChain (fun a b => a ≠ b) :=
  ⟨by decide, by decide, by simp⟩

/-- ENC when S2's frame, one pixel of 255, has ended. -/
def encOne : EncUnit := { enc0 with state := .done, w := 1, h := 1, cap := 1, idx := 1, nruns := 1, erun := ⟨[(0, 0x1FF)], []⟩ }

theorem ok_encOne : EncInRange Config.defaultParam encOne ∧ EncConsistent encOne :=
  enc_ok (.inr rfl) (by decide) (by decide) (by decide) (by decide)

theorem encFrame_one : EncFrame [255#8] (mk [] encOne dec0) := by
  have hc : closedRuns (mk [] encOne dec0) = [⟨1, 255#8⟩] := by decide
  have ho : openRun (mk [] encOne dec0) = [] := by decide
  refine ⟨by decide, fun h => (by cases h), fun h => (by cases h), ?_, ?_, fun _ => by rw [hc]; decide⟩
  · rw [hc]; decide
  · rw [hc, ho]; simp [NoAdjacentEqual]

theorem witness_RunCountIsOneMoreThanTheChanges :
    (Inv (mk [] encDone decIdle) ∧ encDone.state = .done ∧ EncFrame pixS1 (mk [] encDone decIdle)) ∧
    (Inv (mk [] encOne dec0) ∧ encOne.state = .done ∧ EncFrame [255#8] (mk [] encOne dec0) ∧ ∀ p ∈ [255#8], p = 255#8) :=
  ⟨⟨inv_mk _ ok_encDone ok_decIdle, rfl, encFrame_done⟩, inv_mk _ ok_encOne ok_dec0, rfl, encFrame_one, by decide⟩

/-- The last pixel of the grid. -/
theorem witness_ReconstructedGridIsRowMajor :
    Inv (mk [] enc0 decDone) ∧ decDone.state = .done ∧ DecFrame runsS1 (mk [] enc0 decDone) ∧ 0 < decDone.h ∧ 3 < decDone.w :=
  ⟨inv_mk _ ok_enc0 ok_decDone, rfl, decFrame_done, by decide, by decide⟩

end Sys2Proof.Tests
end

section
/-! What a register transaction and a Reset answer at their turn, and what the ports show of the two units (10_state.md sections 5
and 6). -/

namespace Sys2Proof.Machine

/-! ### Turns of the HOST -/

/-- Taking the turn `t` leaves the rest of the schedule. -/
theorem advance_eq {s : State} {t : Turn} {rest : List Turn} (h : s.turns = t :: rest) : s.advance = { s with turns := rest } := by
  simp [State.advance, h]

/-- A register write that is no command is expressible whatever its value (R50). -/
theorem step_regWrite {s : State} {u : UnitId} {n v : Nat} {rest : List Turn} (h : s.turns = .host (.regWrite u n v) :: rest)
    (hn : n ≠ 0) : step s = .next (regWrite u n v s.advance) := by
  rw [step_access h (fun _ _ hop => hn (by cases hop; rfl))]
  rfl

theorem step_regRead {s : State} {u : UnitId} {n : Nat} {rest : List Turn} (h : s.turns = .host (.regRead u n) :: rest) :
    step s = .next (deliver (regValue u n s.advance) s.advance) := by
  rw [step_access h (fun _ _ hop => by cases hop)]
  rfl

theorem step_reset {s : State} {rest : List Turn} (h : s.turns = .host .reset :: rest) : step s = .next (hostReset s.advance) := by
  rw [step_access h (fun _ _ hop => by cases hop)]
  rfl

/-- Only the two configuration registers of ENC take a value (R41, R59). -/
theorem step_regWrite_enc_ignored {s : State} {n v : Nat} {rest : List Turn} (h : s.turns = .host (.regWrite .enc n v) :: rest)
    (hn : n = 1 ∨ 4 ≤ n) : step s = .next { s with turns := rest } := by
  rw [step_regWrite h (by omega), ← advance_eq h]
  rcases encRegWrite_cases n v s.advance with ⟨h2, _⟩ | ⟨h3, _⟩ | ⟨_, _, hw⟩
  · omega
  · omega
  · rw [regWrite, hw]

/-- Only the three configuration registers of DEC take a value (R49, R59). -/
theorem step_regWrite_dec_ignored {s : State} {n v : Nat} {rest : List Turn} (h : s.turns = .host (.regWrite .dec n v) :: rest)
    (hn : n = 1 ∨ 5 ≤ n) : step s = .next { s with turns := rest } := by
  rw [step_regWrite h (by omega), ← advance_eq h]
  rcases decRegWrite_cases n v s.advance with ⟨h2, _⟩ | ⟨h3, _⟩ | ⟨h4, _⟩ | ⟨_, _, _, hw⟩
  · omega
  · omega
  · omega
  · rw [regWrite, hw]

/-- Every read hands back a value, given by the rules or drawn (R50). -/
theorem deliver_lastRead_some (r : ReadValue) (s : State) : ∃ x, (deliver r s).lastRead = some x := by
  cases r with
  | defined v => exact ⟨v, rfl⟩
  | unspecified width => exact ⟨drawn width s, rfl⟩

/-- A register read, of whatever number, hands back a value and changes neither unit (R50, R82). -/
theorem step_regRead_returns {s : State} {u : UnitId} {n : Nat} {rest : List Turn} (h : s.turns = .host (.regRead u n) :: rest) :
    ∃ x t, step s = .next t ∧ t.lastRead = some x ∧ t.enc = s.enc ∧ t.dec = s.dec ∧ t.turns = rest := by
  obtain ⟨x, hx⟩ := deliver_lastRead_some (regValue u n s.advance) s.advance
  exact ⟨x, _, step_regRead h, hx, by simp, by simp, by simp [h]⟩

/-! ### The status words and the level outputs -/

/-- The fields of the status word do not overlap (R53). -/
theorem statusWord_toNat (st : UnitState) (e : ErrCode) : (statusWord st e).toNat = 16 * e.code.toNat + st.code.toNat := by
  cases st <;> cases e <;> rfl

theorem statusWord_mod_four (st : UnitState) (e : ErrCode) : (statusWord st e).toNat % 4 = st.code.toNat := by
  have := st.code.isLt
  rw [statusWord_toNat]; omega

theorem statusWord_div_four_mod_four (st : UnitState) (e : ErrCode) : (statusWord st e).toNat / 4 % 4 = 0 := by
  have := st.code.isLt
  rw [statusWord_toNat]; omega

theorem statusWord_div_sixteen (st : UnitState) (e : ErrCode) : (statusWord st e).toNat / 16 = e.code.toNat := by
  have := st.code.isLt
  rw [statusWord_toNat]; omega

/-- Outside ERR there is no error code (R32, R43), so the status word is the state's code alone. -/
theorem statusWord_none_mem {st : UnitState} (h : st ≠ .err) : statusWord st .none ∈ [0x00#8, 0x01#8, 0x02#8] := by
  cases st with
  | err => exact absurd rfl h
  | _ => decide

/-- The reachable values of `ENC_STATUS`: in ERR the one code is `EmptyInputError` (R32, R53). -/
theorem EncConsistent.statusWord_mem {e : EncUnit} (h : EncConsistent e) :
    statusWord e.state e.err ∈ [0x00#8, 0x01#8, 0x02#8, 0x13#8] := by
  obtain ⟨hiff, herr | herr⟩ := h.err_state
  · rw [herr]
    exact List.mem_append_left [0x13#8] (statusWord_none_mem (hiff.1 herr))
  · have hst : e.state = .err := by simpa [herr] using hiff
    rw [herr, hst]; decide

/-- The reachable values of `DEC_STATUS`: in ERR one of two codes (R43, R53). -/
theorem DecConsistent.statusWord_mem {d : DecUnit} (h : DecConsistent d) :
    statusWord d.state d.err ∈ [0x00#8, 0x01#8, 0x02#8, 0x23#8, 0x33#8] := by
  obtain ⟨hiff, herr | herr | herr⟩ := h.err_state
  · rw [herr]
    exact List.mem_append_left [0x23#8, 0x33#8] (statusWord_none_mem (hiff.1 herr))
  all_goals
    have hst : d.state = .err := by simpa [herr] using hiff
    rw [herr, hst]; decide

theorem busyOutput_iff (u : UnitId) (s : State) : busyOutput u s = true ↔ unitState u s = .busy := decide_eq_true_iff

theorem doneOutput_iff (u : UnitId) (s : State) : doneOutput u s = true ↔ unitState u s = .done := decide_eq_true_iff

theorem errOutput_iff (u : UnitId) (s : State) : errOutput u s = true ↔ unitState u s = .err := decide_eq_true_iff

/-! ### A START of an empty grid -/

/-- An `ENC.START` with a capacity of 0 faults (R131). -/
theorem exec_encStart_empty {s : State} (hb : s.enc.state ≠ .busy) (hc : s.enc.cfgWidth * s.enc.cfgHeight = 0) :
    exec .encStart s = .next (raise .enc .emptyInput 0 (latchEnc s)) := by
  rw [exec, execEncStart_eq, if_neg hb, if_pos hc]

/-- A `DEC.START` with a capacity of 0 faults (R161). -/
theorem exec_decStart_empty {s : State} (hb : s.dec.state ≠ .busy) (hc : s.dec.cfgWidth * s.dec.cfgHeight = 0) :
    exec .decStart s = .next (raise .dec .malformedArtifact 0 (latchDec s)) := by
  rw [exec, execDecStart_eq, if_neg hb, if_pos hc]

/-! ### The obligations -/

/-- Settles O33: the fields from the word's value, the reachable values from the clauses of the invariant on the error codes. -/
theorem statusWordsTakeTheReachableValues : Obligations.StatusWordsTakeTheReachableValues := by
  unfold Obligations.StatusWordsTakeTheReachableValues
  intro s
  refine ⟨?encState, statusWord_div_four_mod_four _ _, ?encErr, fun rest v h => step_regWrite_enc_ignored h (.inl rfl),
    ?decState, statusWord_div_four_mod_four _ _, ?decErr, fun rest v h => step_regWrite_dec_ignored h (.inl rfl),
    fun hinv => ⟨hinv.enc.statusWord_mem, hinv.dec.statusWord_mem⟩,
    busyOutput_iff .enc s, doneOutput_iff .enc s, errOutput_iff .enc s,
    busyOutput_iff .dec s, doneOutput_iff .dec s, errOutput_iff .dec s⟩
  case encState => rw [encStatus, statusWord_mod_four]; cases s.enc.state <;> rfl
  case encErr => rw [encStatus, statusWord_div_sixteen]; cases s.enc.err <;> rfl
  case decState => rw [decStatus, statusWord_mod_four]; cases s.dec.state <;> rfl
  case decErr => rw [decStatus, statusWord_div_sixteen]; cases s.dec.err <;> rfl

/-- Settles O29: a write to a number that is no configuration register's does nothing, and every register read hands back a value. -/
theorem readOnlyAndUnmappedRegistersIgnoreWrites : Obligations.ReadOnlyAndUnmappedRegistersIgnoreWrites := by
  unfold Obligations.ReadOnlyAndUnmappedRegistersIgnoreWrites
  intro s rest n v
  exact ⟨step_regWrite_enc_ignored, step_regWrite_dec_ignored, fun h _ => step_regRead_returns h, fun h _ => step_regRead_returns h⟩

/-- Settles O34: the reset values are those of `EncUnit.afterReset` and `DecUnit.afterReset`; with both dimensions 0 the capacity
is 0, so a START faults. -/
theorem resetLeavesTheResetValues : Obligations.ResetLeavesTheResetValues := by
  unfold Obligations.ResetLeavesTheResetValues
  intro s rest h
  have henc : ∃ u, exec .encStart (hostReset s.advance) = .next u ∧ u.enc.state = .err ∧ u.enc.err = .emptyInput :=
    ⟨_, exec_encStart_empty (by simp [EncUnit.afterReset]) (by simp [EncUnit.afterReset]), rfl, rfl⟩
  have hdec : ∃ u, exec .decStart (hostReset s.advance) = .next u ∧ u.dec.state = .err ∧ u.dec.err = .malformedArtifact :=
    ⟨_, exec_decStart_empty (by simp [DecUnit.afterReset]) (by simp [DecUnit.afterReset]), rfl, rfl⟩
  exact ⟨hostReset s.advance, step_reset h, rfl, by simp [h], rfl, rfl, rfl, rfl, rfl, rfl, rfl, rfl, rfl, rfl, rfl, henc, hdec⟩

end Sys2Proof.Machine
end

section
/-! The encodings at work: what the decoder reads from a run word, which states have the select vector without a step, and the
command codes that have no effect (30_encoding.md sections 1, 3 and 4). -/

namespace Sys2Proof

/-- Every word of `RUN_W` bits is a run word (R107). -/
theorem decode_runWord {p : Param} {r : Nat} (h : r < 2 ^ p.runW) : decode p (.runWord r) = .ok (decodeRunWord r) := if_pos h

/-- The value is the low byte of the word (R107). -/
theorem runValue_toNat (r : Nat) : (runValue r).toNat = r % 2 ^ 8 := BitVec.toNat_ofNat r 8

namespace Machine

/-! ### The select vector without a step -/

/-- `ESEL = 10x` is exactly "all pixels scanned and no run open" (R108, R114). -/
theorem decodeEsel_esel_eq_eUnreachable_iff (s : State) :
    decodeEsel (esel s) = .eUnreachable ↔ s.enc.idx = s.enc.cap ∧ s.enc.run = none := by
  rw [decodeEsel_esel]
  by_cases hend : s.enc.idx = s.enc.cap
  · by_cases hrun : s.enc.run = none <;> simp [hend, hrun]
  · cases hrun : s.enc.run with
    | none => simp [hend]
    | some r => by_cases heq : scannedPixel s = r.value <;> simp [hend, heq]

/-- A BUSY encoder without an open run has scanned nothing yet, and its grid is not empty (R202 (a), (e)). -/
theorem EncConsistent.idx_lt_cap_of_run_none {e : EncUnit} (h : EncConsistent e) (hb : e.state = .busy) (hrun : e.run = none) :
    e.idx < e.cap := by
  obtain ⟨hcap, _, hiff, _⟩ := h.busy hb
  have hidx : e.idx = 0 := hiff.1 hrun
  omega

/-! ### Commands without effect -/

/-- Of the command codes only those of START and CLEAR have an effect (R104, R113, R130, R160). -/
theorem exec_commandInstr_without_effect {v : Nat} (h1 : v % 256 ≠ 1) (h2 : v % 256 ≠ 2) (u : UnitId) (s : State) :
    exec (commandInstr u v) s = .next s := by
  have hstart : BitVec.ofNat 8 v ≠ 0x01#8 := fun hv => h1 (congrArg BitVec.toNat hv)
  have hclear : BitVec.ofNat 8 v ≠ 0x02#8 := fun hv => h2 (congrArg BitVec.toNat hv)
  cases u with
  | enc =>
    obtain ⟨hi, _⟩ | ⟨_, hv⟩ | ⟨_, hv⟩ | ⟨hi, _⟩ := commandInstr_enc_cases v
    · rw [hi]; rfl
    · exact absurd hv hstart
    · exact absurd hv hclear
    · rw [hi]; rfl
  | dec =>
    obtain ⟨hi, _⟩ | ⟨_, hv⟩ | ⟨_, hv⟩ | ⟨hi, _⟩ := commandInstr_dec_cases v
    · rw [hi]; rfl
    · exact absurd hv hstart
    · exact absurd hv hclear
    · rw [hi]; rfl

/-- The write of such a code to a command register only takes its turn. -/
theorem step_command_without_effect {s : State} {u : UnitId} {v : Nat} {rest : List Turn}
    (h : s.turns = .host (.regWrite u 0 v) :: rest) (h1 : v % 256 ≠ 1) (h2 : v % 256 ≠ 2) :
    step s = .next { s with turns := rest } := by
  rw [step_command h, exec_commandInstr_without_effect h1 h2, advance_eq h]

/-! ### The obligations -/

/-- Settles O4: the laws of `pack`, `runLength` and `runValue`, and the decoder's split on the length. -/
theorem runWordUnpacksAndPacks : Obligations.RunWordUnpacksAndPacks := by
  unfold Obligations.RunWordUnpacksAndPacks
  intro p length r value hlength hr
  exact ⟨rfl, runValue_toNat r, runLength_lt hr, pack_lt hlength, runLength_pack length value, runValue_pack length value,
    pack_unpack r, decode_runWord hr⟩

/-- Settles O19: the vector means that the scan has ended with no run open, which the invariant excludes. -/
theorem unreachableVectorIsStuckAndUnreached : Obligations.UnreachableVectorIsStuckAndUnreached := by
  unfold Obligations.UnreachableVectorIsStuckAndUnreached
  intro s
  refine ⟨rfl, fun _ hend hrun => (decodeEsel_esel_eq_eUnreachable_iff s).2 ⟨hend, hrun⟩, fun hinv hb hsel => ?_⟩
  obtain ⟨hend, hrun⟩ := (decodeEsel_esel_eq_eUnreachable_iff s).1 hsel
  exact (hinv.enc.idx_lt_cap_of_run_none hb hrun).ne hend

/-- Settles O9: the meanings of these codes answer the state they are given, and the step runs nothing else. -/
theorem nopAndReservedCodesChangeNothing : Obligations.NopAndReservedCodesChangeNothing := by
  unfold Obligations.NopAndReservedCodesChangeNothing
  exact ⟨fun _ _ => ⟨rfl, rfl, rfl, rfl⟩,
    fun _ _ _ _ h hc => step_command_without_effect h (by omega) (by omega)⟩

end Machine

end Sys2Proof
end

section
/-! The commands of the encoder unit: what `ENC.START` and `ENC.CLEAR` answer in each state of the unit (40_encoder.md
section 1). The faulting START is `exec_encStart_empty`. -/

namespace Sys2Proof.Machine

/-- A write to a command register runs the operation of its code, the turn taken. -/
theorem step_command_turns {s : State} {u : UnitId} {v : Nat} {rest : List Turn}
    (h : s.turns = .host (.regWrite u 0 v) :: rest) : step s = exec (commandInstr u v) { s with turns := rest } := by
  rw [step_command h, advance_eq h]

theorem exec_encStart_busy {s : State} (hb : s.enc.state = .busy) : exec .encStart s = .next s := by
  rw [exec, execEncStart_eq, if_pos hb]

/-- An `ENC.START` with a capacity other than 0 begins a frame (R131). -/
theorem exec_encStart_begins {s : State} (hb : s.enc.state ≠ .busy) (hc : s.enc.cfgWidth * s.enc.cfgHeight ≠ 0) :
    exec .encStart s = .next (beginEnc (latchEnc s)) := by
  rw [exec, execEncStart_eq, if_neg hb, if_neg hc]

theorem exec_encClear_leaves {s : State} (h : s.enc.state = .done ∨ s.enc.state = .err) :
    exec .encClear s = .next (leave .enc s) := by
  rw [exec, execEncClear_eq, if_pos h]

theorem exec_encClear_ignored {s : State} (h : ¬(s.enc.state = .done ∨ s.enc.state = .err)) : exec .encClear s = .next s := by
  rw [exec, execEncClear_eq, if_neg h]

/-! ### The obligations -/

/-- Settles O10: the capacity is 0 exactly when a dimension is, and the product of the largest dimensions is a capacity. -/
theorem encStartLatchesThenFaultsOrBegins : Obligations.EncStartLatchesThenFaultsOrBegins := by
  unfold Obligations.EncStartLatchesThenFaultsOrBegins
  intro s
  refine ⟨fun _ h => step_command_turns h, exec_encStart_busy, fun hb h0 => ?faults,
    fun hb hw hh => exec_encStart_begins hb (Nat.mul_ne_zero hw hh), capacity_lt ?largest ?largest⟩
  case faults =>
    have hc : s.enc.cfgWidth * s.enc.cfgHeight = 0 := Nat.mul_eq_zero.2 h0
    rw [exec_encStart_empty hb hc, raise, latchEnc, hc]
  case largest => exact Nat.sub_one_lt (Nat.two_pow_pos _).ne'

/-- Settles O11: CLEAR leaves exactly DONE and ERR, and IDLE and BUSY are neither. -/
theorem encClearLeavesDoneAndErr : Obligations.EncClearLeavesDoneAndErr := by
  unfold Obligations.EncClearLeavesDoneAndErr
  intro s
  refine ⟨fun _ h => step_command_turns h, exec_encClear_leaves, fun h => exec_encClear_ignored ?_⟩
  rcases h with h | h <;> simp [h]

end Sys2Proof.Machine
end

section
/-! The commands of the decoder unit: what `DEC.START` and `DEC.CLEAR` answer in each state of the unit (41_decoder.md
section 1). The faulting START is `exec_decStart_empty`; the write of a command is `step_command_turns`. -/

namespace Sys2Proof.Machine

theorem exec_decStart_busy {s : State} (hb : s.dec.state = .busy) : exec .decStart s = .next s := by
  rw [exec, execDecStart_eq, if_pos hb]

/-- A `DEC.START` with a capacity other than 0 begins a frame, whatever the run count (R161). -/
theorem exec_decStart_begins {s : State} (hb : s.dec.state ≠ .busy) (hc : s.dec.cfgWidth * s.dec.cfgHeight ≠ 0) :
    exec .decStart s = .next (beginDec (latchDec s)) := by
  rw [exec, execDecStart_eq, if_neg hb, if_neg hc]

theorem exec_decClear_leaves {s : State} (h : s.dec.state = .done ∨ s.dec.state = .err) :
    exec .decClear s = .next (leave .dec s) := by
  rw [exec, execDecClear_eq, if_pos h]

theorem exec_decClear_ignored {s : State} (h : ¬(s.dec.state = .done ∨ s.dec.state = .err)) : exec .decClear s = .next s := by
  rw [exec, execDecClear_eq, if_neg h]

/-! ### The obligations -/

/-- Settles O12: the latched capacity, the product of the dimensions, is 0 exactly when a dimension is. -/
theorem decStartLatchesThenFaultsOrBegins : Obligations.DecStartLatchesThenFaultsOrBegins := by
  unfold Obligations.DecStartLatchesThenFaultsOrBegins
  intro s
  refine ⟨fun _ h => step_command_turns h, exec_decStart_busy, fun hb h0 => ?faults,
    fun hb hw hh => exec_decStart_begins hb (Nat.mul_ne_zero hw hh)⟩
  case faults =>
    have hc : s.dec.cfgWidth * s.dec.cfgHeight = 0 := Nat.mul_eq_zero.2 h0
    rw [exec_decStart_empty hb hc, raise, latchDec, hc]

/-- Settles O13: CLEAR leaves exactly DONE and ERR, and IDLE and BUSY are neither. -/
theorem decClearLeavesDoneAndErr : Obligations.DecClearLeavesDoneAndErr := by
  unfold Obligations.DecClearLeavesDoneAndErr
  intro s
  refine ⟨fun _ h => step_command_turns h, exec_decClear_leaves, fun h => exec_decClear_ignored ?_⟩
  rcases h with h | h <;> simp [h]

end Sys2Proof.Machine
end

section
/-! Runs and pixels: what `expand` gives of runs put one after another, when runs are maximal, and that `encode` gives maximal runs
that expand to the pixels, which `decode` takes back (42_codec_contract.md; R15, R200, R201). -/

namespace Sys2Proof.Machine

/-! ### Expanding runs -/

@[simp] theorem expand_nil : expand [] = [] := rfl

@[simp] theorem expand_cons (r : Run) (rs : List Run) : expand (r :: rs) = List.replicate r.length r.value ++ expand rs := rfl

@[simp] theorem expand_append (as bs : List Run) : expand (as ++ bs) = expand as ++ expand bs := by
  induction as with
  | nil => rfl
  | cons r rs ih => simp [ih]

/-- Runs expand to as many pixels as their lengths sum to (R207). -/
theorem length_expand (rs : List Run) : (expand rs).length = sumLengths rs := by
  induction rs with
  | nil => rfl
  | cons r rs ih => simp [sumLengths, ih]

theorem sumLengths_append (as bs : List Run) : sumLengths (as ++ bs) = sumLengths as + sumLengths bs := by
  simp [← length_expand]

/-! ### MaximalRuns runs -/

/-- Runs that cannot be joined or dropped: none is empty, and neighbours differ in their value (R200, R208). -/
structure MaximalRuns (rs : List Run) : Prop where
  positive : ∀ r ∈ rs, 1 ≤ r.length
  distinct : NoAdjacentEqual rs

/-- Whether neighbours differ depends on the values only. -/
theorem noAdjacentEqual_iff_map (rs : List Run) : NoAdjacentEqual rs ↔ (rs.map Run.value).IsChain (· ≠ ·) := by
  rw [NoAdjacentEqual, List.isChain_map]

theorem maximalRuns_singleton {n : Nat} (hn : 1 ≤ n) (v : Byte) : MaximalRuns [⟨n, v⟩] :=
  ⟨by simpa using hn, List.isChain_singleton _⟩

theorem MaximalRuns.tail {r : Run} {rs : List Run} (h : MaximalRuns (r :: rs)) : MaximalRuns rs :=
  ⟨fun x hx => h.positive x (List.mem_cons_of_mem r hx), List.IsChain.tail h.distinct⟩

/-- The last run may grow (R136). -/
theorem MaximalRuns.lengthen_last {rs : List Run} {n : Nat} {v : Byte} (h : MaximalRuns (rs ++ [⟨n, v⟩])) :
    MaximalRuns (rs ++ [⟨n + 1, v⟩]) := by
  refine ⟨fun r hr => ?positive, ?distinct⟩
  case positive =>
    obtain hr | hr := List.mem_append.1 hr
    · exact h.positive r (List.mem_append_left _ hr)
    · rw [List.mem_singleton.1 hr]; exact Nat.le_add_left 1 n
  case distinct => simpa [noAdjacentEqual_iff_map] using (noAdjacentEqual_iff_map _).1 h.distinct

/-- A run of another value may follow (R137). -/
theorem MaximalRuns.append_new {rs : List Run} {n : Nat} {v p : Byte} (h : MaximalRuns (rs ++ [⟨n, v⟩])) (hp : p ≠ v) :
    MaximalRuns (rs ++ [⟨n, v⟩] ++ [⟨1, p⟩]) := by
  refine ⟨fun r hr => ?positive, ?distinct⟩
  case positive =>
    obtain hr | hr := List.mem_append.1 hr
    · exact h.positive r hr
    · rw [List.mem_singleton.1 hr]
  case distinct => exact List.IsChain.append h.distinct (List.isChain_singleton _) (by simpa using hp.symm)

/-! ### The loop of `encode` -/

theorem encodeLoop_cons_same (v : Byte) (n : Nat) (rs : List Run) (ps : List Byte) :
    encodeLoop v n rs (v :: ps) = encodeLoop v (n + 1) rs ps := by
  simp [encodeLoop]

theorem encodeLoop_cons_ne {v p : Byte} (hp : p ≠ v) (n : Nat) (rs : List Run) (ps : List Byte) :
    encodeLoop v n rs (p :: ps) = encodeLoop p 1 (rs ++ [⟨n, v⟩]) ps := by
  simp [encodeLoop, hp]

/-- The first pixel is compared with itself, so the loop begins with a run of length 1 (R135). -/
theorem encodeRuns_cons (p : Byte) (ps : List Byte) : encodeRuns (p :: ps) = encodeLoop p 1 [] ps :=
  encodeLoop_cons_same p 0 [] ps

/-- Closed runs, open run and pixels still to come: together they stay the pixels (R202). -/
theorem expand_encodeLoop (ps : List Byte) (v : Byte) (n : Nat) (rs : List Run) :
    expand (encodeLoop v n rs ps) = expand rs ++ (List.replicate n v ++ ps) := by
  induction ps generalizing v n rs with
  | nil => simp [encodeLoop]
  | cons p ps ih =>
    by_cases hp : p = v
    · subst hp
      rw [encodeLoop_cons_same, ih, List.replicate_succ']
      simp
    · rw [encodeLoop_cons_ne hp, ih]
      simp

theorem maximalRuns_encodeLoop (ps : List Byte) {v : Byte} {n : Nat} {rs : List Run} (h : MaximalRuns (rs ++ [⟨n, v⟩])) :
    MaximalRuns (encodeLoop v n rs ps) := by
  induction ps generalizing v n rs with
  | nil => exact h
  | cons p ps ih =>
    by_cases hp : p = v
    · subst hp
      rw [encodeLoop_cons_same]
      exact ih h.lengthen_last
    · rw [encodeLoop_cons_ne hp]
      exact ih (h.append_new hp)

theorem expand_encodeRuns (pix : List Byte) : expand (encodeRuns pix) = pix := by
  cases pix with
  | nil => rfl
  | cons p ps => simp [encodeRuns_cons, expand_encodeLoop]

theorem maximalRuns_encodeRuns (pix : List Byte) : MaximalRuns (encodeRuns pix) := by
  cases pix with
  | nil => exact ⟨by simp [encodeRuns], List.isChain_nil⟩
  | cons p ps =>
    rw [encodeRuns_cons]
    exact maximalRuns_encodeLoop ps (maximalRuns_singleton le_rfl p)

/-- `encode` accepts exactly the grids with a pixel (R200). -/
theorem encodeFn_ok_iff {w h : Nat} {pix : List Byte} {a : Artifact} :
    encodeFn w h pix = .ok a ↔ w * h ≠ 0 ∧ a = ⟨w, h, encodeRuns pix⟩ := by
  unfold encodeFn
  split
  · next h0 => simp [h0]
  · next h0 => simp [h0, eq_comm]

/-! ### The loop of `decode` -/

/-- Non-empty runs that fill the buffer exactly are written behind what it holds (R201). -/
theorem decodeLoop_ok {cap : Nat} {rs : List Run} (hpos : ∀ r ∈ rs, 1 ≤ r.length) {buf : List Byte}
    (hsum : buf.length + sumLengths rs = cap) (i : Nat) : decodeLoop cap i buf rs = .ok (buf ++ expand rs) := by
  induction rs generalizing buf i with
  | nil => simpa [decodeLoop, sumLengths] using hsum
  | cons r rs ih =>
    obtain ⟨hr, hrs⟩ := List.forall_mem_cons.1 hpos
    rw [sumLengths] at hsum
    have hbuf : (buf ++ List.replicate r.length r.value).length + sumLengths rs = cap := by simp; omega
    rw [decodeLoop, if_neg (by omega), if_neg (by omega), ih hrs hbuf, expand_cons, List.append_assoc]

/-- `decode` of non-empty runs whose lengths sum to the capacity is their expansion. -/
theorem decodeFn_ok {w h : Nat} {rs : List Run} (h0 : w * h ≠ 0) (hpos : ∀ r ∈ rs, 1 ≤ r.length) (hsum : sumLengths rs = w * h) :
    decodeFn w h rs = .ok (expand rs) := by
  rw [decodeFn, if_neg h0, decodeLoop_ok hpos (by simpa using hsum), List.nil_append]

/-- The round trip as functions (R206). -/
theorem decodeFn_encodeFn {w h : Nat} {pix : List Byte} {a : Artifact} (hpix : pix.length = w * h) (ha : encodeFn w h pix = .ok a) :
    a.width = w ∧ a.height = h ∧ decodeFn a.width a.height a.runs = .ok pix := by
  obtain ⟨h0, rfl⟩ := encodeFn_ok_iff.1 ha
  have hsum : sumLengths (encodeRuns pix) = w * h := by rw [← length_expand, expand_encodeRuns, hpix]
  refine ⟨rfl, rfl, ?_⟩
  rw [decodeFn_ok h0 (maximalRuns_encodeRuns pix).positive hsum, expand_encodeRuns]

/-! ### The obligation -/

/-- Settles O56: the runs of `encode` are maximal and expand to the pixels, whose number is the sum of their lengths. -/
theorem encodeConservesLengthsAndNeverMerges : Obligations.EncodeConservesLengthsAndNeverMerges := by
  unfold Obligations.EncodeConservesLengthsAndNeverMerges
  intro w h pix a hpix ha
  obtain ⟨_, rfl⟩ := encodeFn_ok_iff.1 ha
  exact ⟨by rw [← length_expand, expand_encodeRuns, hpix], (maximalRuns_encodeRuns pix).distinct⟩

end Sys2Proof.Machine
end

section
/-! Counting changes: maximal runs are one more than the changes of value in their expansion (42_codec_contract.md; R211). -/

namespace Sys2Proof.Machine

/-! ### Changes within and between runs -/

@[simp] theorem changes_cons_same (v : Byte) (l : List Byte) : changes (v :: v :: l) = changes (v :: l) := by
  simp [changes]

theorem changes_cons_ne {a b : Byte} (h : a ≠ b) (l : List Byte) : changes (a :: b :: l) = 1 + changes (b :: l) := by
  simp [changes, h]

/-- Within a run nothing changes. -/
theorem changes_replicate_append (n : Nat) (v : Byte) (l : List Byte) :
    changes (List.replicate (n + 1) v ++ l) = changes (v :: l) := by
  induction n with
  | zero => rfl
  | succ n ih => rw [← ih]; simp [List.replicate_succ]

/-- A run that is not empty shows its first pixel. -/
theorem expand_cons_of_pos {r : Run} (h : 1 ≤ r.length) (rs : List Run) : ∃ l, expand (r :: rs) = r.value :: l := by
  obtain ⟨n, hn⟩ := Nat.exists_eq_add_of_le' h
  exact ⟨List.replicate n r.value ++ expand rs, by simp [hn, List.replicate_succ]⟩

/-- Each run after the first brings one change (R211). -/
theorem length_eq_succ_changes_expand {rs : List Run} (h : MaximalRuns rs) (hne : rs ≠ []) :
    rs.length = 1 + changes (expand rs) := by
  induction rs with
  | nil => exact absurd rfl hne
  | cons r rest ih =>
    obtain ⟨n, hn⟩ := Nat.exists_eq_add_of_le' (h.positive r List.mem_cons_self)
    rw [expand_cons, hn, changes_replicate_append]
    cases rest with
    | nil => rfl
    | cons q qs =>
      have hne : r.value ≠ q.value := (List.isChain_cons_cons.1 h.distinct).1
      obtain ⟨l, hl⟩ := expand_cons_of_pos (h.tail.positive q List.mem_cons_self) qs
      rw [List.length_cons, ih h.tail (List.cons_ne_nil q qs), hl, changes_cons_ne hne]
      omega

/-- Pixels all equal do not change. -/
theorem changes_of_forall_eq {pix : List Byte} {v : Byte} (h : ∀ p ∈ pix, p = v) : changes pix = 0 := by
  rw [List.eq_replicate_of_mem h]
  cases pix.length with
  | zero => rfl
  | succ n => simpa [changes] using changes_replicate_append n v []

/-! ### The runs of an encoder that is DONE -/

@[simp] theorem length_closedRuns (s : State) : (closedRuns s).length = s.enc.nruns := by simp [closedRuns]

/-- In DONE no run is open (R38). -/
theorem openRun_of_done {s : State} (henc : EncConsistent s.enc) (hd : s.enc.state = .done) : openRun s = [] := by
  have hrun : s.enc.run = none := by
    by_contra hopen
    have hb := henc.open_busy hopen
    simp [hd] at hb
  simp [openRun, hrun]

/-- In DONE of a frame the run memory holds maximal runs (R202). -/
theorem EncFrame.maximalRuns {s : State} {pix : List Byte} (hf : EncFrame pix s) (henc : EncConsistent s.enc)
    (hd : s.enc.state = .done) : MaximalRuns (closedRuns s) := by
  have hdistinct := hf.maximal
  rw [openRun_of_done henc hd, List.append_nil] at hdistinct
  exact ⟨hf.positive, hdistinct⟩

/-! ### The obligation -/

/-- Settles O58: the runs in DONE are maximal, there is one at least, and they expand to the pixels. -/
theorem runCountIsOneMoreThanTheChanges : Obligations.RunCountIsOneMoreThanTheChanges := by
  unfold Obligations.RunCountIsOneMoreThanTheChanges
  intro s pix hinv hd hf
  obtain ⟨hpos, hcap, _⟩ := hinv.enc.done hd
  have hcount : s.enc.nruns = 1 + changes pix := by
    have hne : closedRuns s ≠ [] := List.ne_nil_of_length_pos (by rw [length_closedRuns]; exact hpos)
    rw [← length_closedRuns, length_eq_succ_changes_expand (hf.maximalRuns hinv.enc hd) hne, hf.whole hd]
  refine ⟨hcount, hpos, hcap, fun v huniform => ?_⟩
  rw [hcount, changes_of_forall_eq huniform]

end Sys2Proof.Machine
end

section
/-! The capacity that a START latches (10_state.md; R191). -/

namespace Sys2Proof.Machine

/-- The square of the largest dimension, with the subtraction exact since `DIM_W` is at least 1. -/
theorem sq_maxDimension (p : Param) : (2 ^ p.dimW - 1) ^ 2 = 2 ^ p.lenW - 2 ^ (p.dimW + 1) + 1 := by
  obtain ⟨m, hm⟩ : ∃ m, 2 ^ p.dimW = m + 2 := Nat.exists_eq_add_of_le' (Nat.le_self_pow (by have := p.pos; omega) 2)
  have hsq : (m + 2) * (m + 2) = (m + 2) * 2 + (m * m + 2 * m) := by ring
  rw [Param.lenW, two_mul, pow_add, pow_succ 2 p.dimW, hm, hsq, Nat.add_sub_cancel_left, show m + 2 - 1 = m + 1 from rfl]
  ring

/-- A product of two dimensions is at most the square of the largest. -/
theorem capacity_le {p : Param} {w h : Nat} (hw : w < 2 ^ p.dimW) (hh : h < 2 ^ p.dimW) :
    w * h ≤ 2 ^ p.lenW - 2 ^ (p.dimW + 1) + 1 := by
  rw [← sq_maxDimension, sq]
  exact Nat.mul_le_mul (Nat.le_sub_one_of_lt hw) (Nat.le_sub_one_of_lt hh)

/-- An accepted `ENC.START` latches the product, whether it faults or begins (R131). -/
theorem exec_encStart_cap {s t : State} (hb : s.enc.state ≠ .busy) (h : exec .encStart s = .next t) :
    t.enc.cap = s.enc.cfgWidth * s.enc.cfgHeight := by
  by_cases hc : s.enc.cfgWidth * s.enc.cfgHeight = 0
  · rw [exec_encStart_empty hb hc] at h
    cases h; rfl
  · rw [exec_encStart_begins hb hc] at h
    cases h; rfl

/-- An accepted `DEC.START` latches the product, whether it faults or begins (R161). -/
theorem exec_decStart_cap {s t : State} (hb : s.dec.state ≠ .busy) (h : exec .decStart s = .next t) :
    t.dec.cap = s.dec.cfgWidth * s.dec.cfgHeight := by
  by_cases hc : s.dec.cfgWidth * s.dec.cfgHeight = 0
  · rw [exec_decStart_empty hb hc] at h
    cases h; rfl
  · rw [exec_decStart_begins hb hc] at h
    cases h; rfl

/-! ### The obligation -/

/-- Settles O14: each START latches the product of its two dimensions, which the square of the largest dimension bounds. -/
theorem capacityIsTheExactProduct : Obligations.CapacityIsTheExactProduct := by
  unfold Obligations.CapacityIsTheExactProduct
  intro s t hew heh hdw hdh
  refine ⟨fun hb h => ?enc, fun hb h => ?dec, sq_maxDimension s.param, fun h16 => ?default⟩
  case enc =>
    rw [exec_encStart_cap hb h]
    exact ⟨rfl, capacity_le hew heh, capacity_lt hew heh, Nat.mul_eq_zero⟩
  case dec =>
    rw [exec_decStart_cap hb h]
    exact ⟨rfl, capacity_le hdw hdh, capacity_lt hdw hdh, Nat.mul_eq_zero⟩
  case default => rw [Param.lenW, h16]; rfl

end Sys2Proof.Machine
end

section
/-! The round trip in the machine: DEC decodes the artifact it was started on through every turn that leaves its frame alone
(41_decoder.md section 3; R203, R206, R270). -/

namespace Sys2Proof.Machine

/-! ### A step takes one turn -/

/-- A step takes the first turn and keeps the parameter (R22, R23). -/
theorem step_keeps {s t : State} (h : step s = .next t) : t.param = s.param ∧ t.turns = s.turns.tail := by
  have hexec : ∀ i, exec i s.advance = .next t → t.param = s.param ∧ t.turns = s.turns.tail := fun i hi => by
    cases hu : isEncOp i with
    | true => rw [exec_enc_keeps hu hi]; exact ⟨rfl, rfl⟩
    | false => rw [exec_dec_keeps hu hi]; exact ⟨rfl, rfl⟩
  rcases step_cases s with ⟨_, _, _, _, hs⟩ | ⟨_, _, _, _, hs⟩ | ⟨_, _, hs⟩ | ⟨_, _, hs⟩ | hs <;> rw [hs] at h
  · exact hexec _ h
  · exact hostAccess_keeps h
  · exact hexec _ h
  · exact hexec _ h
  · cases h; exact ⟨rfl, rfl⟩

/-! ### ENC always has a step -/

/-- ENC is not at the select vector without a step (R114). -/
def EncNotStuck (e : EncUnit) : Prop := e.state = .busy → e.run = none → e.idx ≠ e.cap

theorem EncConsistent.notStuck {e : EncUnit} (h : EncConsistent e) : EncNotStuck e :=
  fun hb hrun => (h.idx_lt_cap_of_run_none hb hrun).ne

/-- Every operation of ENC keeps it so: a START begins before the end, a step leaves a run open or ends the frame. -/
theorem exec_enc_notStuck {i : Instr} {s t : State} (hi : isEncOp i = true) (h : exec i s = .next t) (hs : EncNotStuck s.enc) :
    EncNotStuck t.enc := by
  rcases exec_enc_cases hi h with ⟨rfl, _⟩ | ⟨_, _, _, rfl⟩ | ⟨_, _, hc, rfl⟩ | ⟨_, _, rfl⟩ | ⟨_, _, _, _, rfl⟩ |
    ⟨_, _, _, _, _, _, rfl⟩ | ⟨_, _, _, _, _, _, rfl⟩ | ⟨_, _, _, _, _, rfl⟩
  · exact hs
  · simp [EncNotStuck]
  · exact fun _ _ => Ne.symm hc
  all_goals simp [EncNotStuck]

/-- A command at `ENC_CMD` is always answered (R130 to R133). -/
theorem exec_commandInstr_enc_answers (v : Nat) (s : State) : ∃ t, exec (commandInstr .enc v) s = .next t := by
  rcases commandInstr_enc_cases v with ⟨hi, _⟩ | ⟨hi, _⟩ | ⟨hi, _⟩ | ⟨hi, _⟩ <;> rw [hi]
  · exact ⟨_, rfl⟩
  · exact ⟨_, execEncStart_eq s⟩
  · exact ⟨_, execEncClear_eq s⟩
  · exact ⟨_, rfl⟩

/-- The step that the select vector selects is always answered, unless it is the vector without one (R134). -/
theorem exec_decodeEsel_answers {s : State} (hb : s.enc.state = .busy) (hs : EncNotStuck s.enc) :
    ∃ t, exec (decodeEsel (esel s)) s = .next t := by
  rw [decodeEsel_esel]
  cases hrun : s.enc.run with
  | none =>
    have hend : s.enc.idx ≠ s.enc.cap := hs hb hrun
    simp [hend, exec, execEOpen, hb, hrun]
  | some r =>
    by_cases hend : s.enc.idx = s.enc.cap
    · simp [hend, exec, execEFlush, hb, hrun]
    · by_cases heq : scannedPixel s = r.value
      · simp [hend, heq, exec, execEExtend, hb, hrun]
      · simp [hend, heq, exec, execEClose, hb, hrun]

/-! ### Turns that leave DEC's frame alone -/

/-- From `s` to `t` a frame of DEC over `DRUN[0 : n]` was left alone: of DEC only the configuration registers and entries of
`DRUN` from `n` on may have changed (R94, R270). -/
structure LeavesDecFrame (n : Nat) (s t : State) : Prop where
  param : t.param = s.param
  resets : t.resets = s.resets
  dec : t.dec = { s.dec with
    cfgWidth := t.dec.cfgWidth, cfgHeight := t.dec.cfgHeight, cfgNruns := t.dec.cfgNruns, drun := t.dec.drun }
  drun : ∀ k, k < n → readDrun t k = readDrun s k

/-- What changes nothing of DEC leaves its frame alone. -/
theorem LeavesDecFrame.of_dec_eq {n : Nat} {s t : State} (hp : t.param = s.param) (hr : t.resets = s.resets)
    (hd : t.dec = s.dec) : LeavesDecFrame n s t :=
  ⟨hp, hr, by rw [hd], fun k _ => by simp [readDrun, hp, hr, hd]⟩

/-- What a quiet HOST transaction is (R270). -/
theorem decQuiet_host {p : Param} {n : Nat} {op : HostOp} (h : decQuiet p n (.host op) = true) :
    op.expressible p = true ∧ op ≠ .reset ∧ (∀ i v, op = .memWrite .drun i v → n ≤ i) ∧
      (∀ v, op = .regWrite .dec 0 v → v % 256 ≠ 1 ∧ v % 256 ≠ 2) := by
  rcases op with ⟨u, k, v⟩ | ⟨u, k⟩ | ⟨m, i, v⟩ | ⟨m, i⟩ | _
  · rcases u with _ | _ <;> rcases k with _ | k <;> simp_all [decQuiet, HostOp.expressible]
  · simp [HostOp.expressible]
  · cases m <;> simp_all [decQuiet]
  · simp_all [decQuiet]
  · simp [decQuiet] at h

/-- An expressible HOST transaction is answered (R20). -/
theorem hostAccess_answers {op : HostOp} {s : State} (h : op.expressible s.param = true) : ∃ t, hostAccess op s = .next t := by
  cases op <;> simp [hostAccess, h]

/-- A quiet HOST transaction leaves DEC's frame alone; what it may change of ENC is no counter and no state. -/
theorem hostAccess_leaves {n : Nat} {op : HostOp} {s t : State} (hq : decQuiet s.param n (.host op) = true)
    (h : hostAccess op s = .next t) (hs : EncNotStuck s.enc) : EncNotStuck t.enc ∧ LeavesDecFrame n s t := by
  obtain ⟨_, hreset, hdrun, _⟩ := decQuiet_host hq
  obtain ⟨_, ⟨u, k, v, rfl, rfl⟩ | ⟨u, k, rfl, rfl⟩ | ⟨m, i, v, rfl, rfl⟩ | ⟨m, i, rfl, rfl⟩ | ⟨rfl, _⟩⟩ := hostAccess_next h
  · cases u with
    | enc =>
      rw [regWrite]
      rcases encRegWrite_cases k v s with ⟨_, hw⟩ | ⟨_, hw⟩ | ⟨_, _, hw⟩ <;> rw [hw] <;> exact ⟨hs, .of_dec_eq rfl rfl rfl⟩
    | dec =>
      rw [regWrite]
      rcases decRegWrite_cases k v s with ⟨_, hw⟩ | ⟨_, hw⟩ | ⟨_, hw⟩ | ⟨_, _, _, hw⟩ <;> rw [hw] <;>
        exact ⟨hs, rfl, rfl, rfl, fun _ _ => rfl⟩
  · exact ⟨by simpa using hs, .of_dec_eq (by simp) (by simp) (by simp)⟩
  · cases m with
    | drun =>
      have hi : n ≤ i := hdrun i v rfl
      exact ⟨hs, rfl, rfl, rfl, fun k hk => by
        simp only [readDrun, memWrite, Memory.read_write]
        rw [if_neg (by omega)]⟩
    | pixmem => exact ⟨hs, .of_dec_eq rfl rfl rfl⟩
    | erun => exact ⟨hs, .of_dec_eq rfl rfl rfl⟩
    | outmem => exact ⟨hs, .of_dec_eq rfl rfl rfl⟩
  · exact ⟨by simpa using hs, .of_dec_eq (by simp) (by simp) (by simp)⟩
  · exact absurd rfl hreset

/-- A quiet turn of ENC or the HOST is answered and leaves DEC's frame alone. -/
theorem step_quiet {n : Nat} {s : State} {turn : Turn} {rest : List Turn} (hts : s.turns = turn :: rest)
    (hq : decQuiet s.param n turn = true) (hne : turn ≠ .dec) (hs : EncNotStuck s.enc) :
    ∃ t, step s = .next t ∧ EncNotStuck t.enc ∧ LeavesDecFrame n s t := by
  have hpass : EncNotStuck s.advance.enc ∧ LeavesDecFrame n s s.advance := ⟨hs, .of_dec_eq rfl rfl rfl⟩
  have hexec : ∀ {i t}, isEncOp i = true → exec i s.advance = .next t → EncNotStuck t.enc ∧ LeavesDecFrame n s t :=
    fun hi h => ⟨exec_enc_notStuck hi h hs, by rw [exec_enc_keeps hi h]; exact .of_dec_eq rfl rfl rfl⟩
  cases turn with
  | dec => exact absurd rfl hne
  | enc =>
    by_cases hb : s.enc.state = .busy
    · obtain ⟨t, ht⟩ := exec_decodeEsel_answers (s := s.advance) hb hs
      exact ⟨t, (step_enc (.inl ⟨rest, hts⟩) hb).trans ht, hexec (isEncOp_decodeEsel _) ht⟩
    · exact ⟨_, step_enc_pass hts hb, hpass⟩
  | host op =>
    obtain ⟨hexpr, _, _, hcmd⟩ := decQuiet_host hq
    by_cases hc : ∃ u v, op = .regWrite u 0 v
    · obtain ⟨u, v, rfl⟩ := hc
      cases u with
      | enc =>
        obtain ⟨t, ht⟩ := exec_commandInstr_enc_answers v s.advance
        exact ⟨t, (step_command hts).trans ht, hexec (isEncOp_commandInstr_enc v) ht⟩
      | dec =>
        obtain ⟨h1, h2⟩ := hcmd v rfl
        exact ⟨_, (step_command hts).trans (exec_commandInstr_without_effect h1 h2 .dec _), hpass⟩
    · obtain ⟨t, ht⟩ := hostAccess_answers (s := s.advance) hexpr
      obtain ⟨hst, hparam, hresets, hdec, hdrun⟩ := hostAccess_leaves (s := s.advance) hq ht hs
      exact ⟨t, (step_access hts (fun u v h => hc ⟨u, v, h⟩)).trans ht, hst, hparam, hresets, hdec, hdrun⟩

/-! ### DEC on the way through an artifact -/

/-- DEC is in a frame on the artifact `a`, whose runs are non-empty and fill the grid exactly: it is consuming them, or is DONE
with all of them consumed (R203). -/
structure Decoding (a : Artifact) (s : State) : Prop where
  frame : DecFrame a.runs s
  positive : ∀ r ∈ a.runs, 1 ≤ r.length
  fills : sumLengths a.runs = s.dec.cap
  narrow : a.runs.length < 2 ^ s.param.lenW
  width : s.dec.w = a.width
  height : s.dec.h = a.height
  phase : (s.dec.state = .busy ∧ s.dec.ridx ≤ a.runs.length) ∨ (s.dec.state = .done ∧ s.dec.ridx = a.runs.length)

/-- An accepted START on an artifact that DEC's inputs hold begins to decode it (R161). -/
theorem decoding_begin {a : Artifact} {s : State} (hruns : DrunIs a.runs s) (hn : a.runs.length = s.dec.cfgNruns)
    (hpos : ∀ r ∈ a.runs, 1 ≤ r.length) (hfills : sumLengths a.runs = s.dec.cfgWidth * s.dec.cfgHeight)
    (hnarrow : a.runs.length < 2 ^ s.param.lenW) (hw : s.dec.cfgWidth = a.width) (hh : s.dec.cfgHeight = a.height) :
    Decoding a (beginDec (latchDec s)) where
  frame := ⟨hn, fun _ => hruns, rfl, by simp, fun i hi => by simp at hi⟩
  positive := hpos
  fills := hfills
  narrow := hnarrow
  width := hw
  height := hh
  phase := .inl ⟨rfl, Nat.zero_le _⟩

/-- What leaves the frame alone keeps the decoding and its steps left. -/
theorem Decoding.of_leaves {a : Artifact} {s t : State} (h : Decoding a s) (hl : LeavesDecFrame a.runs.length s t) :
    Decoding a t ∧ decStepsLeft t = decStepsLeft s := by
  obtain ⟨hparam, hresets, hdec, hdrun⟩ := hl
  have hout : ∀ i, readOutmem t i = readOutmem s i := fun i => by rw [readOutmem, hdec, hresets]; rfl
  have hframe : DecFrame a.runs t :=
    { size := by rw [hdec]; exact h.frame.size
      input := fun hb k hk => by rw [hdrun k hk]; exact h.frame.input (by rwa [hdec] at hb) k hk
      cursor := by rw [hdec]; exact h.frame.cursor
      positive := by rw [hdec]; exact h.frame.positive
      filled := fun i hi => by rw [hdec] at hi ⊢; rw [hout]; exact h.frame.filled i hi }
  exact ⟨{ frame := hframe
           positive := h.positive
           fills := by rw [hdec]; exact h.fills
           narrow := by rw [hparam]; exact h.narrow
           width := by rw [hdec]; exact h.width
           height := by rw [hdec]; exact h.height
           phase := by rw [hdec]; exact h.phase },
    by rw [decStepsLeft, hdec]; rfl⟩

/-! ### DEC's own turns -/

theorem sumLengths_take_succ {rs : List Run} {k : Nat} (hk : k < rs.length) :
    sumLengths (rs.take (k + 1)) = sumLengths (rs.take k) + rs[k].length := by
  rw [List.take_succ_eq_append_getElem hk, sumLengths_append]; rfl

theorem sumLengths_take_le (rs : List Run) (k : Nat) : sumLengths (rs.take k) ≤ sumLengths rs := by
  have h := sumLengths_append (rs.take k) (rs.drop k)
  rw [List.take_append_drop] at h
  omega

@[simp] theorem readOutmem_fillRun (length : Nat) (value : Byte) (s : State) (i : Nat) :
    readOutmem (fillRun length value s) i = if s.dec.cur ≤ i ∧ i < s.dec.cur + length then value else readOutmem s i :=
  Memory.read_fill ..

/-- A filled run stands behind the pixels written before it (R165). -/
theorem OutmemIs.fillRun {buf : List Byte} {s : State} (h : OutmemIs buf s) (hcur : s.dec.cur = buf.length) (r : Run) :
    OutmemIs (buf ++ List.replicate r.length r.value) (fillRun r.length r.value s) := by
  intro i hi
  rw [List.length_append, List.length_replicate] at hi
  rw [readOutmem_fillRun, hcur]
  by_cases hlt : i < buf.length
  · rw [if_neg (by omega), List.getElem?_append_left hlt]
    exact h i hlt
  · rw [if_pos (by omega), List.getElem?_append_right (by omega), List.getElem?_replicate, if_pos (by omega)]

/-- A BUSY frame with runs left takes a `D.RUN`, which fills the next run: it is not empty and fits (R165, R203). -/
theorem Decoding.exec_dRun {a : Artifact} {s : State} (h : Decoding a s) (hb : s.dec.state = .busy)
    (hlt : s.dec.ridx < a.runs.length) :
    exec .dRun s = .next (fillRun a.runs[s.dec.ridx].length a.runs[s.dec.ridx].value s) := by
  have hword : a.runs[s.dec.ridx] = unpackRun (fetchedRunWord s) := by
    have hget := h.frame.input hb _ hlt
    rwa [List.getElem?_eq_getElem hlt, Option.some_inj] at hget
  have hsel : runSelected s := ⟨hb, by have := h.frame.size; omega⟩
  have hpos : 1 ≤ a.runs[s.dec.ridx].length := h.positive _ (List.getElem_mem hlt)
  have hfits : s.dec.cur + a.runs[s.dec.ridx].length ≤ s.dec.cap := by
    rw [h.frame.cursor, ← sumLengths_take_succ hlt, ← h.fills]
    exact sumLengths_take_le _ _
  have hrun : exec .dRun s = .next (interpretRun a.runs[s.dec.ridx].length a.runs[s.dec.ridx].value s) := by
    rw [exec, execDRun, if_pos hsel, hword]; rfl
  obtain ⟨h0, _⟩ | ⟨_, hover, _⟩ | ⟨_, _, hfill⟩ := interpretRun_cases a.runs[s.dec.ridx].length a.runs[s.dec.ridx].value s
  · omega
  · omega
  · rw [hrun, hfill]

/-- The filled run is one run further on the way. -/
theorem Decoding.fillRun {a : Artifact} {s : State} (h : Decoding a s) (hb : s.dec.state = .busy)
    (hlt : s.dec.ridx < a.runs.length) :
    Decoding a (fillRun a.runs[s.dec.ridx].length a.runs[s.dec.ridx].value s) := by
  have hridx : inc s.param s.dec.ridx = s.dec.ridx + 1 := inc_eq (Nat.lt_of_le_of_lt hlt h.narrow)
  have hcur : s.dec.cur = (expand (a.runs.take s.dec.ridx)).length := by rw [length_expand]; exact h.frame.cursor
  have hframe : DecFrame a.runs (Machine.fillRun a.runs[s.dec.ridx].length a.runs[s.dec.ridx].value s) :=
    { size := h.frame.size
      input := h.frame.input
      cursor := by
        rw [fillRun_dec, hridx, sumLengths_take_succ hlt, h.frame.cursor]
      positive := fun r hr => h.positive r (List.mem_of_mem_take hr)
      filled := by
        rw [fillRun_dec, hridx, List.take_succ_eq_append_getElem hlt, expand_append, expand_cons, expand_nil, List.append_nil]
        exact h.frame.filled.fillRun hcur _ }
  exact { h with
    frame := hframe
    phase := .inl ⟨hb, by rw [fillRun_dec, hridx]; exact hlt⟩ }

/-- With all runs consumed the buffer is full. -/
theorem Decoding.cur_eq_cap {a : Artifact} {s : State} (h : Decoding a s) (hend : s.dec.ridx = a.runs.length) :
    s.dec.cur = s.dec.cap := by
  rw [h.frame.cursor, hend, List.take_length, h.fills]

/-- A BUSY frame with no run left takes the `D.FINISH` that ends in DONE (R166). -/
theorem Decoding.finish {a : Artifact} {s : State} (h : Decoding a s) (hb : s.dec.state = .busy)
    (hend : s.dec.ridx = a.runs.length) :
    exec .dFinish s = .next { s with dec := { s.dec with state := .done } } ∧
      Decoding a { s with dec := { s.dec with state := .done } } := by
  refine ⟨?_, { h with
    frame := { h.frame with input := fun hbusy => by cases hbusy }
    phase := .inr ⟨rfl, hend⟩ }⟩
  rw [exec, execDFinish, if_pos ⟨hb, hend.trans h.frame.size⟩, if_pos (h.cur_eq_cap hend)]

/-- The selected step of DEC takes the frame exactly one step nearer to DONE (R164, R170). -/
theorem Decoding.exec_dsel {a : Artifact} {s : State} (h : Decoding a s) (hb : s.dec.state = .busy) :
    ∃ t, exec (decodeDsel (dsel s)) s = .next t ∧ t.enc = s.enc ∧ Decoding a t ∧ decStepsLeft s = decStepsLeft t + 1 := by
  have hsize := h.frame.size
  rw [decodeDsel_dsel, ← hsize]
  obtain ⟨_, hle⟩ | ⟨hd, _⟩ := h.phase
  case inr => simp [hd] at hb
  by_cases hend : s.dec.ridx = a.runs.length
  · obtain ⟨hexec, hdone⟩ := h.finish hb hend
    rw [if_pos hend]
    refine ⟨_, hexec, rfl, hdone, ?_⟩
    simp [decStepsLeft, hb, hend, hsize]
  · have hlt : s.dec.ridx < a.runs.length := Nat.lt_of_le_of_ne hle hend
    have hridx : inc s.param s.dec.ridx = s.dec.ridx + 1 := inc_eq (Nat.lt_of_le_of_lt hlt h.narrow)
    rw [if_neg hend]
    refine ⟨_, h.exec_dRun hb hlt, rfl, h.fillRun hb hlt, ?_⟩
    simp only [decStepsLeft, hb, fillRun_dec, hridx, ← hsize, if_true]
    omega

/-- A turn of DEC takes one of the steps left, or passes when none is. -/
theorem Decoding.step_dec {a : Artifact} {s : State} (h : Decoding a s) {rest : List Turn} (hts : s.turns = .dec :: rest) :
    ∃ t, step s = .next t ∧ t.enc = s.enc ∧ Decoding a t ∧ decStepsLeft t = decStepsLeft s - 1 := by
  have hadv : Decoding a s.advance := (h.of_leaves (t := s.advance) (.of_dec_eq rfl rfl rfl)).1
  by_cases hb : s.dec.state = .busy
  · obtain ⟨t, ht, henc, hdecoding, hleft⟩ := hadv.exec_dsel hb
    exact ⟨t, (Machine.step_dec (.inl ⟨rest, hts⟩) hb).trans ht, henc, hdecoding, (Nat.sub_eq_of_eq_add hleft).symm⟩
  · exact ⟨s.advance, step_dec_pass hts hb, rfl, hadv, by simp [decStepsLeft, hb]⟩

/-! ### The whole schedule -/

/-- Over any list of quiet turns the decoding goes on, each turn of DEC taking one of the steps left (R206, R270). -/
theorem Decoding.run_quiet {a : Artifact} {s : State} (h : Decoding a s) (hs : EncNotStuck s.enc) {ts rest : List Turn}
    (hts : s.turns = ts ++ rest) (hq : ∀ turn ∈ ts, decQuiet s.param a.runs.length turn = true) :
    ∃ t, Host.Core.run core ts.length s = .next t ∧ t.turns = rest ∧ Decoding a t ∧
      decStepsLeft t = decStepsLeft s - ts.count .dec := by
  induction ts generalizing s with
  | nil => exact ⟨s, rfl, hts, h, rfl⟩
  | cons turn ts ih =>
    obtain ⟨hq, hqs⟩ := List.forall_mem_cons.1 hq
    have hstep : ∃ u, step s = .next u ∧ EncNotStuck u.enc ∧ Decoding a u ∧
        decStepsLeft u = decStepsLeft s - [turn].count .dec := by
      by_cases hdec : turn = .dec
      · subst hdec
        obtain ⟨u, hu, henc, hdecoding, hleft⟩ := h.step_dec hts
        exact ⟨u, hu, henc ▸ hs, hdecoding, hleft⟩
      · obtain ⟨u, hu, hstuck, hleaves⟩ := step_quiet hts hq hdec hs
        obtain ⟨hdecoding, hleft⟩ := h.of_leaves hleaves
        exact ⟨u, hu, hstuck, hdecoding, by rw [hleft, List.count_singleton]; simp [hdec]⟩
    obtain ⟨u, hu, hstuck, hdecoding, hleft⟩ := hstep
    obtain ⟨hparam, hturns⟩ := step_keeps hu
    obtain ⟨t, hrun, hrest, ht, hcount⟩ :=
      ih hdecoding hstuck (by rw [hturns, hts]; rfl) (by rw [hparam]; exact hqs)
    refine ⟨t, run_next core hu hrun, hrest, ht, ?_⟩
    rw [hcount, hleft, Nat.sub_sub, ← List.count_append, List.singleton_append]

/-- With no step left the frame is DONE and the buffer holds the expanded runs (R203 (e)). -/
theorem Decoding.done_of_no_steps {a : Artifact} {s : State} (h : Decoding a s) (h0 : decStepsLeft s = 0) :
    s.dec.state = .done ∧ OutmemIs (expand a.runs) s := by
  obtain ⟨hb, _⟩ | ⟨hd, hend⟩ := h.phase
  · simp [decStepsLeft, hb] at h0
  · have hfilled := h.frame.filled
    rw [hend, List.take_length] at hfilled
    exact ⟨hd, hfilled⟩

/-- The artifact of a DONE encoder, copied into DEC's inputs, is begun by a START (R206). -/
theorem decoding_artifactOf {s : State} {pix : List Byte} (hinv : Inv s) (hd : s.enc.state = .done) (hf : EncFrame pix s)
    (hw : s.dec.cfgWidth = s.enc.w) (hh : s.dec.cfgHeight = s.enc.h) (hn : s.dec.cfgNruns = s.enc.nruns)
    (hcopy : ∀ k, k < s.enc.nruns → readDrun s k = readErun s k) :
    Decoding (artifactOf s) (beginDec (latchDec s)) := by
  have hlen : (closedRuns s).length = s.enc.nruns := length_closedRuns s
  refine decoding_begin (fun k hk => ?runs) (hlen.trans hn.symm) hf.positive ?fills
    (by rw [artifactOf, hlen]; exact hinv.encRange.nruns) hw hh
  case runs =>
    have hk : k < s.enc.nruns := hlen ▸ hk
    simp [artifactOf, closedRuns, hk, hcopy k hk]
  case fills =>
    rw [← length_expand, artifactOf, hf.whole hd, hf.size, hinv.enc.cap_eq, hw, hh]

/-! ### The obligation -/

/-- Settles O54: as functions, `decode` takes the maximal runs back to their expansion; in the machine, the START begins the decoding
of the artifact and every quiet turn keeps it, until DEC's turns have used up its steps. -/
theorem roundTripReproducesTheGrid : Obligations.RoundTripReproducesTheGrid := by
  unfold Obligations.RoundTripReproducesTheGrid
  refine ⟨fun w h pix a => decodeFn_encodeFn, ?_⟩
  intro s pix ts hinv hd hf hb hw hh hn hcopy hq hcount
  obtain ⟨hpos, hcap, _⟩ := hinv.enc.done hd
  have hgrid : s.dec.cfgWidth * s.dec.cfgHeight ≠ 0 := by
    rw [hw, hh, ← hinv.enc.cap_eq]; omega
  have hstart : step (s.withTurns (.host (.regWrite .dec 0 0x01) :: ts)) = .next (beginDec (latchDec (s.withTurns ts))) := by
    rw [step_command (withTurns_turns s _), advance_withTurns_cons]
    exact exec_decStart_begins hb hgrid
  have hbegin : Decoding (artifactOf s) (beginDec (latchDec (s.withTurns ts))) :=
    ((decoding_artifactOf hinv hd hf hw hh hn hcopy).of_leaves (t := beginDec (latchDec (s.withTurns ts)))
      (.of_dec_eq rfl rfl rfl)).1
  have hlen : (artifactOf s).runs.length = s.enc.nruns := length_closedRuns s
  obtain ⟨t, hrun, hturns, hdecoding, hleft⟩ := hbegin.run_quiet hinv.enc.notStuck rfl (by rw [hlen]; exact hq)
  have hnone : decStepsLeft t = 0 := by
    have hsteps : decStepsLeft (beginDec (latchDec (s.withTurns ts))) = s.enc.nruns + 1 := by simp [decStepsLeft, hn]
    omega
  obtain ⟨hdone, hout⟩ := hdecoding.done_of_no_steps hnone
  have hwhole : expand (artifactOf s).runs = pix := hf.whole hd
  refine ⟨t, run_next core hstart hrun, hturns, hdone, hdecoding.width, hdecoding.height, ?cap, hwhole ▸ hout⟩
  case cap => rw [← hdecoding.fills, ← length_expand, hwhole]

end Sys2Proof.Machine
end

section
/-! The decoder and the encoder of words are inverse on every format (30_encoding.md sections 1, 3 and 4). -/

namespace Sys2Proof

/-! ### Command codes -/

/-- A code from `0x03` on is none of the three commands (R104). -/
theorem ne_command_codes {c : Byte} (h : 3 ≤ c.toNat) : c ≠ 0x00#8 ∧ c ≠ 0x01#8 ∧ c ≠ 0x02#8 := by
  refine ⟨?_, ?_, ?_⟩ <;> rintro rfl <;> simp at h

theorem three_le_toNat {c : Byte} (h0 : c ≠ 0x00#8) (h1 : c ≠ 0x01#8) (h2 : c ≠ 0x02#8) : 3 ≤ c.toNat := by
  by_contra hlt
  have : c.toNat = 0 ∨ c.toNat = 1 ∨ c.toNat = 2 := by omega
  rcases this with hc | hc | hc
  · exact h0 (BitVec.eq_of_toNat_eq hc)
  · exact h1 (BitVec.eq_of_toNat_eq hc)
  · exact h2 (BitVec.eq_of_toNat_eq hc)

theorem decodeEncCmd_reserved {c : Byte} (h : 3 ≤ c.toNat) : decodeEncCmd c = .encRsvd c := by
  obtain ⟨h0, h1, h2⟩ := ne_command_codes h
  rw [decodeEncCmd, if_neg h0, if_neg h1, if_neg h2]

theorem decodeDecCmd_reserved {c : Byte} (h : 3 ≤ c.toNat) : decodeDecCmd c = .decRsvd c := by
  obtain ⟨h0, h1, h2⟩ := ne_command_codes h
  rw [decodeDecCmd, if_neg h0, if_neg h1, if_neg h2]

/-- What `ENC_CMD` decodes is well formed and encodes to the code written. -/
theorem encode_decodeEncCmd (p : Param) (c : Byte) : (decodeEncCmd c).wf p = true ∧ encode (decodeEncCmd c) = .encCmd c := by
  unfold decodeEncCmd
  split_ifs with h0 h1 h2
  · exact ⟨rfl, by rw [h0]; rfl⟩
  · exact ⟨rfl, by rw [h1]; rfl⟩
  · exact ⟨rfl, by rw [h2]; rfl⟩
  · exact ⟨decide_eq_true (three_le_toNat h0 h1 h2), rfl⟩

/-- What `DEC_CMD` decodes is well formed and encodes to the code written. -/
theorem encode_decodeDecCmd (p : Param) (c : Byte) : (decodeDecCmd c).wf p = true ∧ encode (decodeDecCmd c) = .decCmd c := by
  unfold decodeDecCmd
  split_ifs with h0 h1 h2
  · exact ⟨rfl, by rw [h0]; rfl⟩
  · exact ⟨rfl, by rw [h1]; rfl⟩
  · exact ⟨rfl, by rw [h2]; rfl⟩
  · exact ⟨decide_eq_true (three_le_toNat h0 h1 h2), rfl⟩

/-! ### Select vectors -/

/-- The step of a select vector encodes to the vector with its don't-care bit cleared (R108, R109). -/
theorem encode_decodeEsel (p : Param) (v : BitVec 3) :
    (decodeEsel v).wf p = true ∧ encode (decodeEsel v) = (CodeWord.esel v).canonical := by
  have hcanonical : ∀ v : BitVec 3, encode (decodeEsel v) = (CodeWord.esel v).canonical := by decide
  refine ⟨?_, hcanonical v⟩
  unfold decodeEsel
  split_ifs <;> rfl

theorem encode_decodeDsel (p : Param) (v : BitVec 1) : (decodeDsel v).wf p = true ∧ encode (decodeDsel v) = .dsel v := by
  have hbit : ∀ v : BitVec 1, v ≠ 0b0#1 → v = 0b1#1 := by decide
  unfold decodeDsel
  split_ifs with h0
  · exact ⟨rfl, by rw [h0]; rfl⟩
  · exact ⟨rfl, by rw [hbit v h0]; rfl⟩

/-! ### Run words -/

theorem decodeRunWord_pack {length : Nat} (value : Byte) (h : length ≠ 0) : decodeRunWord (pack length value) = .run length value := by
  rw [decodeRunWord, runLength_pack, runValue_pack, if_neg h]

theorem decodeRunWord_pack_zero (value : Byte) : decodeRunWord (pack 0 value) = .runZero value := by
  rw [decodeRunWord, runLength_pack, runValue_pack, if_pos rfl]

theorem encode_decodeRunWord {p : Param} {r : Nat} (hr : r < 2 ^ p.runW) :
    (decodeRunWord r).wf p = true ∧ encode (decodeRunWord r) = .runWord r := by
  unfold decodeRunWord
  split
  · next h0 => exact ⟨rfl, by rw [encode, ← h0, pack_unpack]⟩
  · next h0 => exact ⟨decide_eq_true ⟨Nat.one_le_iff_ne_zero.2 h0, runLength_lt hr⟩, by rw [encode, pack_unpack]⟩

/-! ### The obligations -/

/-- Settles O1: the operations without an operand by evaluation; the operand of a reserved code is no command's, and the length and
value of a run word are unpacked again. -/
theorem decodeOfEncodeIsTheOperation : Obligations.DecodeOfEncodeIsTheOperation := by
  unfold Obligations.DecodeOfEncodeIsTheOperation
  intro p i hwf
  cases i with
  | encRsvd code => exact congrArg Except.ok (decodeEncCmd_reserved (of_decide_eq_true hwf))
  | decRsvd code => exact congrArg Except.ok (decodeDecCmd_reserved (of_decide_eq_true hwf))
  | run length value =>
    obtain ⟨hpos, hlt⟩ : 1 ≤ length ∧ length < 2 ^ p.lenW := of_decide_eq_true hwf
    rw [encode, decode_runWord (pack_lt hlt), decodeRunWord_pack value (Nat.one_le_iff_ne_zero.1 hpos)]
  | runZero value => rw [encode, decode_runWord (pack_lt (by positivity)), decodeRunWord_pack_zero]
  | _ => rfl

/-- Settles O2: format by format, the decoder's answer is well formed and encodes to the word. -/
theorem encodeOfDecodedWordIsTheWord : Obligations.EncodeOfDecodedWordIsTheWord := by
  unfold Obligations.EncodeOfDecodedWordIsTheWord
  intro p c i h
  cases c with
  | encCmd code => cases h; exact encode_decodeEncCmd p code
  | decCmd code => cases h; exact encode_decodeDecCmd p code
  | esel v => cases h; exact encode_decodeEsel p v
  | dsel v => cases h; exact encode_decodeDsel p v
  | runWord r =>
    rw [decode] at h
    split at h
    · next hr => cases h; exact encode_decodeRunWord hr
    · cases h

/-- Settles O3, by evaluation of the decoder on the ten words. -/
theorem tableWordsDecodeToTheirOperations : Obligations.TableWordsDecodeToTheirOperations := by
  unfold Obligations.TableWordsDecodeToTheirOperations
  decide

end Sys2Proof
end

section
/-! Which operation a turn runs: the command of a code, the step a select vector selects (10_state.md section 1, 40_encoder.md
section 2, 41_decoder.md section 2). -/

namespace Sys2Proof.Machine

/-! ### The command of a code -/

/-- The low byte of the value written is the code (R102). -/
theorem commandInstr_of_code {v : Nat} {c : Byte} (h : v % 256 = c.toNat) :
    commandInstr .enc v = decodeEncCmd c ∧ commandInstr .dec v = decodeDecCmd c := by
  have hc : BitVec.ofNat 8 v = c := BitVec.eq_of_toNat_eq (by rw [BitVec.toNat_ofNat]; exact h)
  rw [commandInstr, commandInstr, hc]
  exact ⟨rfl, rfl⟩

theorem three_le_code {v : Nat} (h : 3 ≤ v % 256) : 3 ≤ (BitVec.ofNat 8 v).toNat := by
  rw [BitVec.toNat_ofNat]; exact h

/-! ### The step a select vector selects -/

/-- With all pixels scanned the open run is flushed (R109). -/
theorem decodeEsel_eFlush {s : State} (hend : s.enc.idx = s.enc.cap) (hrun : s.enc.run ≠ none) : decodeEsel (esel s) = .eFlush := by
  rw [decodeEsel_esel, if_pos hend, if_neg hrun]

theorem decodeEsel_eOpen {s : State} (hend : s.enc.idx ≠ s.enc.cap) (hrun : s.enc.run = none) : decodeEsel (esel s) = .eOpen := by
  rw [decodeEsel_esel, if_neg hend, hrun]

/-- With a run open, a pixel equal to its value lengthens it (R109). -/
theorem decodeEsel_eExtend {s : State} {r : OpenRun} (hend : s.enc.idx ≠ s.enc.cap) (hrun : s.enc.run = some r)
    (heq : scannedPixel s = r.value) : decodeEsel (esel s) = .eExtend := by
  rw [decodeEsel_esel, if_neg hend, hrun]
  exact if_pos heq

/-- With a run open, a pixel of another value closes it (R109). -/
theorem decodeEsel_eClose {s : State} {r : OpenRun} (hend : s.enc.idx ≠ s.enc.cap) (hrun : s.enc.run = some r)
    (hne : scannedPixel s ≠ r.value) : decodeEsel (esel s) = .eClose := by
  rw [decodeEsel_esel, if_neg hend, hrun]
  exact if_neg hne

/-! ### The obligations -/

/-- Settles O5: by the branches of `step`. -/
theorem stepRunsTheDecodedOperation : Obligations.StepRunsTheDecodedOperation := by
  unfold Obligations.StepRunsTheDecodedOperation
  intro s
  refine ⟨fun c i hfetch hdecode => ?_, fun op hfetch => ?_, fun hfetch => ?_⟩
  · simp only [step, hfetch, hdecode]; rfl
  · simp only [step, hfetch]; rfl
  · simp only [step, hfetch]; rfl

/-- Settles O6: the step map on the select vector of the state, case by case. -/
theorem encoderTurnTakesTheSelectedStep : Obligations.EncoderTurnTakesTheSelectedStep := by
  unfold Obligations.EncoderTurnTakesTheSelectedStep
  intro s rest hts
  refine ⟨step_enc_pass hts, fun hb => ?_⟩
  rw [step_enc (.inl ⟨rest, hts⟩) hb]
  refine ⟨fun hend hrun => ?flush, fun hend hrun => ?stuck, fun hend hrun => ?opens, fun r hend hrun => ?scans⟩
  case flush => rw [decodeEsel_eFlush hend hrun]
  case stuck => rw [(decodeEsel_esel_eq_eUnreachable_iff s).2 ⟨hend, hrun⟩]; rfl
  case opens => rw [decodeEsel_eOpen hend hrun]
  case scans =>
    exact ⟨fun heq => by rw [decodeEsel_eExtend hend hrun heq], fun hne => by rw [decodeEsel_eClose hend hrun hne]⟩

/-- Settles O7: the run index is in order by the invariant, and the step map on the select bit decides. -/
theorem decoderTurnTakesTheSelectedStep : Obligations.DecoderTurnTakesTheSelectedStep := by
  unfold Obligations.DecoderTurnTakesTheSelectedStep
  intro s rest hinv hts
  refine ⟨step_dec_pass hts, fun hb => ?_⟩
  obtain ⟨_, hle, _⟩ := hinv.dec.frame (.inl hb)
  rw [step_dec (.inl ⟨rest, hts⟩) hb, decodeDsel_dsel]
  exact ⟨hle, fun hlt => by rw [if_neg hlt.ne], fun heq => by rw [if_pos heq]⟩

/-- Settles O8: the low byte names the command, at each of the two ports. -/
theorem commandWriteRunsTheCommandOfItsLowByte : Obligations.CommandWriteRunsTheCommandOfItsLowByte := by
  unfold Obligations.CommandWriteRunsTheCommandOfItsLowByte
  intro s rest v
  refine ⟨fun hts => ?enc, fun hts => ?dec⟩ <;> rw [step_command hts]
  case enc =>
    exact ⟨fun h => by rw [(commandInstr_of_code (c := 0x00#8) h).1]; rfl,
      fun h => by rw [(commandInstr_of_code (c := 0x01#8) h).1]; rfl,
      fun h => by rw [(commandInstr_of_code (c := 0x02#8) h).1]; rfl,
      fun h => by rw [commandInstr, decodeEncCmd_reserved (three_le_code h)]⟩
  case dec =>
    exact ⟨fun h => by rw [(commandInstr_of_code (c := 0x00#8) h).2]; rfl,
      fun h => by rw [(commandInstr_of_code (c := 0x01#8) h).2]; rfl,
      fun h => by rw [(commandInstr_of_code (c := 0x02#8) h).2]; rfl,
      fun h => by rw [commandInstr, decodeDecCmd_reserved (three_le_code h)]⟩

/-- Settles O38: an operation keeps what is not its unit's, and a HOST transaction keeps the parameter and the schedule. -/
theorem everyStepTakesOneTurnAndKeepsTheParameter : Obligations.EveryStepTakesOneTurnAndKeepsTheParameter := by
  unfold Obligations.EveryStepTakesOneTurnAndKeepsTheParameter
  intro s t
  exact step_keeps

end Sys2Proof.Machine
end

section
/-! The steps of the encoder unit: what each answers in a state that selects it (40_encoder.md section 3). -/

namespace Sys2Proof.Machine

/-! ### Appending a run -/

/-- The appended run word stands at the old run count, every other entry of `ERUN` is as before (R137, R138). -/
@[simp] theorem readErun_appendRun (r : OpenRun) (s : State) (k : Nat) :
    readErun (appendRun r s) k = if k = s.enc.nruns then pack r.length r.value else readErun s k :=
  Memory.read_write ..

/-! ### The answers of the steps -/

theorem exec_eOpen {s : State} (hb : s.enc.state = .busy) (hend : s.enc.idx ≠ s.enc.cap) (hrun : s.enc.run = none) :
    exec .eOpen s = .next { s with enc := { s.enc with
      run := some { value := scannedPixel s, length := 1 }, idx := inc s.param s.enc.idx } } :=
  if_pos ⟨hb, hend, hrun⟩

theorem exec_eExtend {s : State} {r : OpenRun} (hb : s.enc.state = .busy) (hend : s.enc.idx ≠ s.enc.cap)
    (hrun : s.enc.run = some r) (heq : scannedPixel s = r.value) :
    exec .eExtend s = .next { s with enc := { s.enc with
      run := some { r with length := inc s.param r.length }, idx := inc s.param s.enc.idx } } := by
  rw [exec, execEExtend, hrun]
  exact if_pos ⟨hb, hend, heq⟩

theorem exec_eClose {s : State} {r : OpenRun} (hb : s.enc.state = .busy) (hend : s.enc.idx ≠ s.enc.cap)
    (hrun : s.enc.run = some r) (hne : scannedPixel s ≠ r.value) :
    exec .eClose s = .next { appendRun r s with enc := { (appendRun r s).enc with
      run := some { value := scannedPixel s, length := 1 }, idx := inc s.param s.enc.idx } } := by
  rw [exec, execEClose, hrun]
  exact if_pos ⟨hb, hend, hne⟩

theorem exec_eFlush {s : State} {r : OpenRun} (hb : s.enc.state = .busy) (hend : s.enc.idx = s.enc.cap)
    (hrun : s.enc.run = some r) :
    exec .eFlush s = .next { appendRun r s with enc := { (appendRun r s).enc with run := none, state := .done } } := by
  rw [exec, execEFlush, hrun]
  exact if_pos ⟨hb, hend⟩

/-! ### The obligations -/

/-- Settles O15: below the capacity the index does not wrap; by the invariant a frame without an open run is at its beginning. -/
theorem encOpenStartsARunOfLengthOne : Obligations.EncOpenStartsARunOfLengthOne := by
  unfold Obligations.EncOpenStartsARunOfLengthOne
  intro s hb hlt hcap hrun
  have hidx : inc s.param s.enc.idx = s.enc.idx + 1 := inc_eq (by omega)
  refine ⟨decodeEsel_eOpen hlt.ne hrun, ?_, fun hinv => ?_⟩
  · rw [exec_eOpen hb hlt.ne hrun, hidx]; rfl
  · obtain ⟨_, _, hiff, hnruns⟩ := hinv.enc.busy hb
    exact ⟨hiff.1 hrun, hnruns hrun⟩

/-- Settles O16: the open run is no longer than the part scanned, so that neither register wraps. -/
theorem encExtendLengthensTheOpenRun : Obligations.EncExtendLengthensTheOpenRun := by
  unfold Obligations.EncExtendLengthensTheOpenRun
  intro s r hb hlt hcap hrun heq
  refine ⟨fun hlen => ?_, fun hinv => ?_⟩
  · have hidx : inc s.param s.enc.idx = s.enc.idx + 1 := inc_eq (by omega)
    have hlength : inc s.param r.length = r.length + 1 := inc_eq (by omega)
    rw [exec_eExtend hb hlt.ne hrun heq, hidx, hlength]
  · obtain ⟨_, hlen, _⟩ := hinv.enc.opened r hrun
    exact hlen

/-- Settles O17: the answer of `E.CLOSE`, with neither counter wrapping, and the read of the appended entry. -/
theorem encCloseAppendsTheOpenRun : Obligations.EncCloseAppendsTheOpenRun := by
  unfold Obligations.EncCloseAppendsTheOpenRun
  intro s r hb hlt hcap hrun hne hnruns
  have hidx : inc s.param s.enc.idx = s.enc.idx + 1 := inc_eq (by omega)
  have hcount : inc s.param s.enc.nruns = s.enc.nruns + 1 := inc_eq (by omega)
  refine ⟨_, exec_eClose hb hlt.ne hrun hne, ?_, readErun_appendRun r s, fun hinv => ?_⟩
  · simp only [appendRun, hidx, hcount]; rfl
  · obtain ⟨hpos, _⟩ := hinv.enc.opened r hrun
    exact hpos

/-- Settles O18: the answer of `E.FLUSH`, and the status word of DONE. -/
theorem encFlushAppendsTheFinalRun : Obligations.EncFlushAppendsTheFinalRun := by
  unfold Obligations.EncFlushAppendsTheFinalRun
  intro s r hb hend hcap hrun hnruns
  have hcount : inc s.param s.enc.nruns = s.enc.nruns + 1 := inc_eq (by omega)
  refine ⟨_, exec_eFlush hb hend hrun, ?_, readErun_appendRun r s, fun herr => ⟨?_, rfl⟩⟩
  · simp only [appendRun, hcount]
  · show statusWord .done s.enc.err = 0x02#8
    rw [herr]; decide

end Sys2Proof.Machine
end

section
/-! The steps of the decoder unit: what each answers in a state that selects it, and what a fault leaves (41_decoder.md section 3,
60_exceptions.md section 3). -/

namespace Sys2Proof.Machine

/-! ### The three outcomes of a run word -/

theorem interpretRun_zero (value : Byte) (s : State) :
    interpretRun 0 value s = raise .dec .malformedArtifact s.dec.ridx s := if_pos rfl

/-- A run past the capacity is a fault (R165). -/
theorem interpretRun_overlong {length : Nat} {s : State} (h0 : length ≠ 0) (h : s.dec.cap < s.dec.cur + length) (value : Byte) :
    interpretRun length value s = raise .dec .lengthMismatch s.dec.ridx s := by
  rw [interpretRun, if_neg h0, if_pos ((overflows_iff h0).2 h)]

/-- A run that fits is filled in (R165). -/
theorem interpretRun_fits {length : Nat} {s : State} (h0 : length ≠ 0) (h : s.dec.cur + length ≤ s.dec.cap) (value : Byte) :
    interpretRun length value s = fillRun length value s := by
  rw [interpretRun, if_neg h0, if_neg (mt (overflows_iff h0).1 (by omega))]

/-- The filled run, with the run index not wrapping: of the state nothing else changes. -/
theorem fillRun_eq {s : State} (hridx : s.dec.ridx + 1 < 2 ^ s.param.lenW) (length : Nat) (value : Byte) :
    fillRun length value s = { s with dec := { s.dec with
      outmem := (fillRun length value s).dec.outmem, cur := s.dec.cur + length, ridx := s.dec.ridx + 1 } } := by
  rw [fillRun, inc_eq hridx]

/-- Interpreting a run word ends in ERR exactly by taking a fault, from a state that is BUSY (R165). -/
theorem interpretRun_err {length : Nat} {value : Byte} {s : State} (hb : s.dec.state = .busy)
    (h : (interpretRun length value s).dec.state = .err) :
    (length = 0 ∧ interpretRun length value s = raise .dec .malformedArtifact s.dec.ridx s) ∨
    (s.dec.cap - s.dec.cur < length ∧ interpretRun length value s = raise .dec .lengthMismatch s.dec.ridx s) := by
  obtain hzero | ⟨_, hover, ht⟩ | ⟨_, _, ht⟩ := interpretRun_cases length value s
  · exact .inl hzero
  · exact .inr ⟨by omega, ht⟩
  · rw [ht, fillRun_dec] at h
    exact absurd (hb.symm.trans h) (by decide)

/-! ### The answers of the steps and of the run word rows -/

theorem exec_dRun {s : State} (h : runSelected s) :
    exec .dRun s = .next (interpretRun (runLength (readDrun s s.dec.ridx)) (runValue (readDrun s s.dec.ridx)) s) :=
  if_pos h

theorem exec_run {s : State} (h : runSelected s) (length : Nat) (value : Byte) :
    exec (.run length value) s = .next (interpretRun length value s) :=
  if_pos h

theorem exec_runZero {s : State} (h : runSelected s) (value : Byte) :
    exec (.runZero value) s = .next (raise .dec .malformedArtifact s.dec.ridx s) := by
  rw [exec, execRunZero, if_pos h, interpretRun_zero]

theorem exec_dFinish_full {s : State} (hb : s.dec.state = .busy) (hend : s.dec.ridx = s.dec.nruns) (hfull : s.dec.cur = s.dec.cap) :
    exec .dFinish s = .next { s with dec := { s.dec with state := .done } } := by
  rw [exec, execDFinish, if_pos ⟨hb, hend⟩, if_pos hfull]

theorem exec_dFinish_short {s : State} (hb : s.dec.state = .busy) (hend : s.dec.ridx = s.dec.nruns) (hne : s.dec.cur ≠ s.dec.cap) :
    exec .dFinish s = .next (raise .dec .lengthMismatch s.dec.nruns s) := by
  rw [exec, execDFinish, if_pos ⟨hb, hend⟩, if_neg hne]

/-- `D.RUN` is the row of the word it fetches, selected or not (R110). -/
theorem exec_dRun_eq_row (s : State) : exec .dRun s = exec (decodeRunWord (readDrun s s.dec.ridx)) s := by
  rw [decodeRunWord]
  split
  · next h0 => rw [exec, execDRun, fetchedRunWord, h0]; rfl
  · rfl

/-! ### The obligations -/

/-- Settles O20: the three outcomes of the fetched word. -/
theorem decRunFillsOrFaults : Obligations.DecRunFillsOrFaults := by
  unfold Obligations.DecRunFillsOrFaults
  intro s r length value hb hlt hnruns hcur hr hlength hvalue
  have hexec : exec .dRun s = .next (interpretRun length value s) := by
    have hv : value = runValue r := BitVec.eq_of_toNat_eq (hvalue.trans (runValue_toNat r).symm)
    rw [exec_dRun ⟨hb, hlt.ne⟩, ← hr, hlength, hv]; rfl
  rw [hexec]
  refine ⟨fun h0 => ?zero, fun h0 hover => ?overlong, fun h0 hfits => ?fits⟩
  case zero => rw [h0, interpretRun_zero]; rfl
  case overlong => rw [interpretRun_overlong h0 (by omega)]; rfl
  case fits =>
    rw [interpretRun_fits h0 (by omega)]
    exact ⟨_, rfl, fillRun_eq (by omega) length value, readOutmem_fillRun length value s⟩

/-- Settles O21: the two outcomes of `D.FINISH`; the invariant bounds the cursor by the capacity. -/
theorem decFinishChecksTheSum : Obligations.DecFinishChecksTheSum := by
  unfold Obligations.DecFinishChecksTheSum
  intro s hb hend
  refine ⟨exec_dFinish_full hb hend, exec_dFinish_short hb hend, fun hinv hne => ?_⟩
  obtain ⟨_, _, hcur⟩ := hinv.dec.frame (.inl hb)
  exact Nat.lt_of_le_of_ne hcur hne

/-- Settles O22: `D.RUN` is the row of its word, and a row has the three outcomes of a run word. -/
theorem runWordRowsAreWhatDRunInterprets : Obligations.RunWordRowsAreWhatDRunInterprets := by
  unfold Obligations.RunWordRowsAreWhatDRunInterprets
  intro s
  refine ⟨exec_dRun_eq_row s, fun length value hb hlt hnruns => ?_⟩
  have hsel : runSelected s := ⟨hb, hlt.ne⟩
  refine ⟨exec_runZero hsel value, fun hpos hover => ?overlong, fun hpos hfits => ?fits⟩ <;> rw [exec_run hsel]
  case overlong => rw [interpretRun_overlong (by omega) hover]; rfl
  case fits =>
    rw [interpretRun_fits (by omega) hfits]
    exact ⟨_, rfl, fillRun_eq (by omega) length value, readOutmem_fillRun length value s⟩

/-- Settles O23: of the operations of a BUSY decoder only a run word and `D.FINISH` can end in ERR, both by `raise`. -/
theorem decoderFaultsArePrecise : Obligations.DecoderFaultsArePrecise := by
  unfold Obligations.DecoderFaultsArePrecise
  intro i s t hb h herr
  have hbusy : s.dec.state ≠ .err := by rw [hb]; decide
  cases hu : isEncOp i with
  | true =>
    rw [exec_enc_keeps hu h] at herr
    exact absurd herr hbusy
  | false =>
    rcases exec_dec_cases hu h with ⟨rfl, _⟩ | ⟨_, hnb, _⟩ | ⟨_, hnb, _⟩ | ⟨_, hde, _⟩ | ⟨_, _, _, _, rfl⟩ | ⟨_, _, _, _, rfl⟩ |
      ⟨length, value, _, _, rfl⟩
    · exact absurd herr hbusy
    · exact absurd hb hnb
    · exact absurd hb hnb
    · simp [hb] at hde
    · cases herr
    · exact ⟨rfl, .inl rfl⟩
    · obtain ⟨_, ht⟩ | ⟨_, ht⟩ := interpretRun_err hb herr <;> rw [ht]
      · exact ⟨rfl, .inr rfl⟩
      · exact ⟨rfl, .inl rfl⟩

/-- Settles O24: the inversion of each of the three operations that raise. -/
theorem decErrorInfoLocatesTheFault : Obligations.DecErrorInfoLocatesTheFault := by
  unfold Obligations.DecErrorInfoLocatesTheFault
  intro s t
  refine ⟨fun h herr => ?run, fun h herr => ?finish, fun hb h herr => ?start⟩
  case run =>
    obtain ⟨hsel, rfl⟩ := execDRun_next h
    obtain ⟨h0, ht⟩ | ⟨hover, ht⟩ := interpretRun_err hsel.1 herr <;> rw [ht]
    · exact ⟨rfl, rfl, .inl ⟨rfl, h0⟩⟩
    · exact ⟨rfl, rfl, .inr ⟨rfl, hover⟩⟩
  case finish =>
    obtain ⟨_, _, ⟨_, rfl⟩ | ⟨hne, rfl⟩⟩ := execDFinish_next h
    · cases herr
    · exact ⟨rfl, rfl, hne⟩
  case start =>
    by_cases hc : s.dec.cfgWidth * s.dec.cfgHeight = 0
    · rw [exec_decStart_empty hb hc] at h
      cases h
      exact ⟨rfl, rfl, hc⟩
    · rw [exec_decStart_begins hb hc] at h
      cases h
      cases herr

end Sys2Proof.Machine
end

section
/-! The HOST's ports: what register and memory accesses answer at their turn, which memory entries a write reaches, and what a Reset
leaves of the memories (10_state.md section 5, 20_memory.md sections 1 and 3, 70_reset_and_hazards.md section 1). -/

namespace Sys2Proof.Machine

/-! ### Memory accesses the port can carry -/

theorem step_memWrite {s : State} {m : MemId} {i v : Nat} {rest : List Turn} (hts : s.turns = .host (.memWrite m i v) :: rest)
    (hi : i < 2 ^ s.param.lenW) (hv : v < 2 ^ entryWidth s.param m) : step s = .next (memWrite m i v s.advance) := by
  rw [step_access hts (fun _ _ hop => by cases hop)]
  exact if_pos (decide_eq_true ⟨hi, hv⟩)

theorem step_memRead {s : State} {m : MemId} {i : Nat} {rest : List Turn} (hts : s.turns = .host (.memRead m i) :: rest)
    (hi : i < 2 ^ s.param.lenW) : step s = .next (deliver (memValue m i s.advance) s.advance) := by
  rw [step_access hts (fun _ _ hop => by cases hop)]
  exact if_pos (decide_eq_true hi)

/-! ### What a memory write reaches -/

/-- A HOST write reaches one entry of `PIXMEM` or `DRUN` (R74). -/
@[simp] theorem readPixmem_memWrite (m : MemId) (i v : Nat) (s : State) (a : Nat) :
    readPixmem (memWrite m i v s) a = if m = .pixmem ∧ a = i then BitVec.ofNat 8 v else readPixmem s a := by
  cases m <;> simp [readPixmem, memWrite]

@[simp] theorem readDrun_memWrite (m : MemId) (i v : Nat) (s : State) (a : Nat) :
    readDrun (memWrite m i v s) a = if m = .drun ∧ a = i then v else readDrun s a := by
  cases m <;> simp [readDrun, memWrite]

@[simp] theorem readErun_memWrite (m : MemId) (i v : Nat) (s : State) (a : Nat) : readErun (memWrite m i v s) a = readErun s a := by
  cases m <;> rfl

@[simp] theorem readOutmem_memWrite (m : MemId) (i v : Nat) (s : State) (a : Nat) :
    readOutmem (memWrite m i v s) a = readOutmem s a := by
  cases m <;> rfl

/-- Beside the two input memories a HOST write changes nothing. -/
theorem memWrite_eq (m : MemId) (i v : Nat) (s : State) :
    memWrite m i v s = { s with
      enc := { s.enc with pixmem := (memWrite m i v s).enc.pixmem }, dec := { s.dec with drun := (memWrite m i v s).dec.drun } } := by
  cases m <;> rfl

/-! ### What a read returns -/

/-- A read of what the rules give a value changes nothing but the turn and the value handed back (R82). -/
theorem deliver_defined {s : State} {turn : Turn} {rest : List Turn} (hts : s.turns = turn :: rest) (v : Nat) :
    deliver (.defined v) s.advance = { s with turns := rest, lastRead := some v } := by
  rw [advance_eq hts]; rfl

/-- An unspecified value is drawn and cut to the width of what is read. -/
theorem deliver_unspecified {s : State} {turn : Turn} {rest : List Turn} (hts : s.turns = turn :: rest) (width : Nat) :
    ∃ x, x < 2 ^ width ∧
      deliver (.unspecified (some width)) s.advance = { s with turns := rest, lastRead := some x, draws := s.draws + 1 } := by
  refine ⟨Config.unspecifiedRead s.draws % 2 ^ width, Nat.mod_lt _ (Nat.two_pow_pos _), ?_⟩
  rw [advance_eq hts]; rfl

theorem step_regRead_defined {s : State} {u : UnitId} {n v : Nat} {rest : List Turn} (hts : s.turns = .host (.regRead u n) :: rest)
    (hv : regValue u n s.advance = .defined v) : step s = .next { s with turns := rest, lastRead := some v } := by
  rw [step_regRead hts, hv, deliver_defined hts]

theorem step_regRead_unspecified {s : State} {u : UnitId} {n width : Nat} {rest : List Turn}
    (hts : s.turns = .host (.regRead u n) :: rest) (hv : regValue u n s.advance = .unspecified (some width)) :
    ∃ x, x < 2 ^ width ∧ step s = .next { s with turns := rest, lastRead := some x, draws := s.draws + 1 } := by
  obtain ⟨x, hx, hd⟩ := deliver_unspecified hts width
  exact ⟨x, hx, by rw [step_regRead hts, hv, hd]⟩

/-- The value of a register is a function of the units. -/
theorem regValue_congr {s t : State} (hp : t.param = s.param) (he : t.enc = s.enc) (hd : t.dec = s.dec) (u : UnitId) (n : Nat) :
    regValue u n t = regValue u n s := by
  cases u
  · simp only [regValue, encRegValue, encStatus, hp, he]
  · simp only [regValue, decRegValue, decStatus, hp, hd]

/-- The value of an entry is a function of the units and the count of Resets. -/
theorem memValue_congr {s t : State} (hp : t.param = s.param) (hr : t.resets = s.resets) (he : t.enc = s.enc) (hd : t.dec = s.dec)
    (m : MemId) (i : Nat) : memValue m i t = memValue m i s := by
  cases m <;> simp only [memValue, readPixmem, readErun, readDrun, readOutmem, hp, hr, he, hd]

/-- What was read without a draw reads the same again, in whatever state. -/
theorem deliver_again {r : ReadValue} {s : State} (h : (deliver r s).draws = s.draws) (t : State) :
    (deliver r t).lastRead = (deliver r s).lastRead := by
  cases r with
  | defined v => rfl
  | unspecified width => exact absurd h (Nat.succ_ne_self _)

/-! ### The obligations -/

/-- Settles O26: register by register, the value of the two maps. -/
theorem registerReadsReturnTheirRegisters : Obligations.RegisterReadsReturnTheirRegisters := by
  unfold Obligations.RegisterReadsReturnTheirRegisters
  intro s rest n v
  refine ⟨fun hts h => step_regRead_defined hts ?enc, fun hts h => step_regRead_defined hts ?dec⟩
  case enc =>
    obtain ⟨rfl, rfl⟩ | ⟨rfl, rfl⟩ | ⟨rfl, rfl⟩ | ⟨rfl, rfl⟩ | ⟨hd, ⟨rfl, rfl⟩ | ⟨rfl, rfl⟩ | ⟨rfl, rfl⟩⟩ := h
    iterate 4 · rfl
    all_goals exact if_pos hd
  case dec =>
    obtain ⟨rfl, rfl⟩ | ⟨rfl, rfl⟩ | ⟨rfl, rfl⟩ | ⟨rfl, rfl⟩ | ⟨rfl, rfl⟩ | ⟨hd, ⟨rfl, rfl⟩ | ⟨rfl, rfl⟩⟩ | ⟨rfl, rfl⟩ := h
    iterate 5 · rfl
    · exact if_pos hd
    · exact if_pos hd
    · rfl

/-- Settles O27: outside DONE the maps give these registers an unspecified value of their width. -/
theorem outputRegistersAreUnspecifiedOutsideDone : Obligations.OutputRegistersAreUnspecifiedOutsideDone := by
  unfold Obligations.OutputRegistersAreUnspecifiedOutsideDone
  intro s rest n
  refine ⟨fun hts hd hn => ?enc, fun hts hd hn => ?dec⟩
  case enc => obtain rfl | rfl | rfl := hn <;> exact step_regRead_unspecified hts (if_neg hd)
  case dec => obtain rfl | rfl := hn <;> exact step_regRead_unspecified hts (if_neg hd)

/-- Settles O28: the configuration registers of the two maps. -/
theorem configurationWritesAreCutToWidth : Obligations.ConfigurationWritesAreCutToWidth := by
  unfold Obligations.ConfigurationWritesAreCutToWidth
  intro s rest v
  refine ⟨fun hts => ?_, fun hts => ?_, fun hts => ?_, fun hts => ?_, fun hts => ?_⟩ <;>
    rw [step_regWrite hts (by decide), advance_eq hts] <;> rfl

/-- Settles O30: what a write reaches, memory by memory; a value of 8 bits is the pixel itself. -/
theorem hostMemoryWritesReachOnlyTheInputs : Obligations.HostMemoryWritesReachOnlyTheInputs := by
  unfold Obligations.HostMemoryWritesReachOnlyTheInputs
  intro s rest m i v hts hi hv
  refine ⟨_, step_memWrite hts hi hv, ?frame, fun a => ?pixmem, readDrun_memWrite m i v s.advance, readErun_memWrite m i v s.advance,
    readOutmem_memWrite m i v s.advance⟩
  case frame =>
    rw [advance_eq hts]
    exact memWrite_eq m i v _
  case pixmem =>
    rw [readPixmem_memWrite, readPixmem_advance]
    split
    · next h =>
      have hbyte : v < 2 ^ 8 := by rwa [h.1] at hv
      rw [BitVec.toNat_ofNat, Nat.mod_eq_of_lt hbyte]
    · rfl

/-- Settles O31: the branches of `memValue`, defined inside the frame's region in DONE and unspecified elsewhere. -/
theorem hostMemoryReadsReturnDefinedEntries : Obligations.HostMemoryReadsReturnDefinedEntries := by
  unfold Obligations.HostMemoryReadsReturnDefinedEntries
  intro s rest m i hts hi
  rw [step_memRead hts hi]
  refine ⟨?pixmem, ?drun, ?erun, ?outmem, ?undefined⟩
  case pixmem => rintro rfl; exact congrArg _ (deliver_defined hts _)
  case drun => rintro rfl; exact congrArg _ (deliver_defined hts _)
  case erun =>
    rintro rfl hd hlt
    rw [memValue, if_pos ⟨hd, hlt⟩]
    exact congrArg _ (deliver_defined hts _)
  case outmem =>
    rintro rfl hd hlt
    rw [memValue, if_pos ⟨hd, hlt⟩]
    exact congrArg _ (deliver_defined hts _)
  case undefined =>
    rintro (⟨rfl, hout⟩ | ⟨rfl, hout⟩) <;> rw [memValue, if_neg (fun hin => hout.elim (· hin.1) (Nat.not_le_of_lt hin.2))]
    · obtain ⟨x, hx, hdel⟩ := deliver_unspecified hts s.param.runW
      exact ⟨x, hx, congrArg _ hdel⟩
    · obtain ⟨x, hx, hdel⟩ := deliver_unspecified hts 8
      exact ⟨x, hx, congrArg _ hdel⟩

/-- Settles O32: a read only delivers a value, which is a function of what no read changes. -/
theorem hostReadsHaveNoSideEffect : Obligations.HostReadsHaveNoSideEffect := by
  unfold Obligations.HostReadsHaveNoSideEffect
  rintro s t rest op hts (⟨u, n, rfl⟩ | ⟨m, i, rfl⟩) h
  · rw [step_regRead hts] at h
    cases h
    refine ⟨by simp, by simp, by simp, by simp, by simp [hts], fun hdraws => ⟨_, step_regRead rfl, ?_⟩⟩
    rw [regValue_congr (s := s.advance) (by simp) (by simp) (by simp)]
    exact deliver_again hdraws _
  · have hi : i < 2 ^ s.param.lenW := by
      obtain ⟨hexpr, _⟩ := step_access_cases hts (fun _ _ hop => by cases hop) h
      exact of_decide_eq_true hexpr
    rw [step_memRead hts hi] at h
    cases h
    refine ⟨by simp, by simp, by simp, by simp, by simp [hts], fun hdraws => ⟨_, step_memRead rfl (by simpa using hi), ?_⟩⟩
    rw [memValue_congr (s := s.advance) (by simp) (by simp) (by simp) (by simp)]
    exact deliver_again hdraws _

/-- Settles O35: a Reset lists what every entry held under `stale`, the latest writes over the older content. -/
theorem resetKeepsWhatTheMemoriesHeld : Obligations.ResetKeepsWhatTheMemoriesHeld := by
  unfold Obligations.ResetKeepsWhatTheMemoriesHeld
  intro s rest i hts
  refine ⟨_, step_reset hts, ?_, ?_, ?_, ?_⟩ <;> rw [← Entries.lookup_overlay] <;> rfl

end Sys2Proof.Machine
end

section
/-! What an operation of a unit leaves unchanged, and that it is a function of its own unit (40_encoder.md, 41_decoder.md; R21, R84,
R90). -/

namespace Sys2Proof.Machine

/-! ### The frame of an operation of ENC -/

/-- An operation of ENC never writes what ENC reads (R84). -/
theorem exec_enc_inputs {i : Instr} {s t : State} (hi : isEncOp i = true) (h : exec i s = .next t) :
    t.enc.pixmem = s.enc.pixmem ∧ t.enc.cfgWidth = s.enc.cfgWidth ∧ t.enc.cfgHeight = s.enc.cfgHeight := by
  rcases exec_enc_cases hi h with ⟨rfl, _⟩ | ⟨_, _, _, rfl⟩ | ⟨_, _, _, rfl⟩ | ⟨_, _, rfl⟩ | ⟨_, _, _, _, rfl⟩ |
    ⟨_, _, _, _, _, _, rfl⟩ | ⟨_, _, _, _, _, _, rfl⟩ | ⟨_, _, _, _, _, rfl⟩ <;> exact ⟨rfl, rfl, rfl⟩

/-- Which operations may change which register of ENC. -/
theorem exec_enc_registers {i : Instr} {s t : State} (hi : isEncOp i = true) (h : exec i s = .next t) :
    (i ≠ .encStart → t.enc.w = s.enc.w ∧ t.enc.h = s.enc.h ∧ t.enc.cap = s.enc.cap) ∧
    (i ∉ [.encStart, .eOpen, .eExtend, .eClose] → t.enc.idx = s.enc.idx) ∧
    (i ∉ [.encStart, .eOpen, .eExtend, .eClose, .eFlush] → t.enc.run = s.enc.run) ∧
    (i ∉ [.encStart, .eClose, .eFlush] → t.enc.nruns = s.enc.nruns) ∧
    (i ∉ [.encStart, .encClear] → t.enc.err = s.enc.err) ∧
    (i ∉ [.encStart, .encClear, .eFlush] → t.enc.state = s.enc.state) := by
  rcases exec_enc_cases hi h with ⟨rfl, _⟩ | ⟨rfl, _, _, rfl⟩ | ⟨rfl, _, _, rfl⟩ | ⟨rfl, _, rfl⟩ | ⟨rfl, _, _, _, rfl⟩ |
    ⟨_, rfl, _, _, _, _, rfl⟩ | ⟨_, rfl, _, _, _, _, rfl⟩ | ⟨_, rfl, _, _, _, rfl⟩ <;> simp

/-- Of `ERUN` only `E.CLOSE` and `E.FLUSH` write, the entry at the run count. -/
theorem exec_enc_readErun {i : Instr} {s t : State} (hi : isEncOp i = true) (h : exec i s = .next t) {a : Nat}
    (ha : i = .eClose ∨ i = .eFlush → a ≠ s.enc.nruns) : readErun t a = readErun s a := by
  rcases exec_enc_cases hi h with ⟨rfl, _⟩ | ⟨_, _, _, rfl⟩ | ⟨_, _, _, rfl⟩ | ⟨_, _, rfl⟩ | ⟨_, _, _, _, rfl⟩ |
    ⟨_, _, _, _, _, _, rfl⟩ | ⟨r, hi, _, _, _, _, rfl⟩ | ⟨r, hi, _, _, _, rfl⟩
  iterate 6 · rfl
  · exact (readErun_appendRun r s a).trans (if_neg (ha (.inl hi)))
  · exact (readErun_appendRun r s a).trans (if_neg (ha (.inr hi)))

/-! ### The frame of an operation of DEC -/

/-- An operation of DEC never writes what DEC reads (R84). -/
theorem exec_dec_inputs {i : Instr} {s t : State} (hi : isEncOp i = false) (h : exec i s = .next t) :
    t.dec.drun = s.dec.drun ∧ t.dec.cfgWidth = s.dec.cfgWidth ∧ t.dec.cfgHeight = s.dec.cfgHeight ∧
      t.dec.cfgNruns = s.dec.cfgNruns := by
  rcases exec_dec_cases hi h with ⟨rfl, _⟩ | ⟨_, _, _, rfl⟩ | ⟨_, _, _, rfl⟩ | ⟨_, _, rfl⟩ | ⟨_, _, _, _, rfl⟩ |
    ⟨_, _, _, _, rfl⟩ | ⟨length, value, _, _, rfl⟩
  iterate 6 · exact ⟨rfl, rfl, rfl, rfl⟩
  rcases interpretRun_cases length value s with ⟨_, ht⟩ | ⟨_, _, ht⟩ | ⟨_, _, ht⟩ <;> rw [ht] <;> exact ⟨rfl, rfl, rfl, rfl⟩

/-- Which operations may change which register of DEC. -/
theorem exec_dec_registers {i : Instr} {s t : State} (hi : isEncOp i = false) (h : exec i s = .next t) :
    (i ≠ .decStart → t.dec.w = s.dec.w ∧ t.dec.h = s.dec.h ∧ t.dec.cap = s.dec.cap ∧ t.dec.nruns = s.dec.nruns) ∧
    (i = .decNop ∨ i = .decClear ∨ i = .dFinish ∨ (∃ c, i = .decRsvd c) ∨ (∃ v, i = .runZero v) →
      t.dec.ridx = s.dec.ridx ∧ t.dec.cur = s.dec.cur) ∧
    (i = .decNop ∨ (∃ c, i = .decRsvd c) → t.dec.state = s.dec.state ∧ t.dec.err = s.dec.err ∧ t.dec.info = s.dec.info) ∧
    (i ≠ .decStart → i ≠ .decClear → t.dec.state ≠ .err → t.dec.err = s.dec.err ∧ t.dec.info = s.dec.info) := by
  rcases exec_dec_cases hi h with ⟨rfl, _⟩ | ⟨rfl, _, _, rfl⟩ | ⟨rfl, _, _, rfl⟩ | ⟨rfl, _, rfl⟩ | ⟨rfl, _, _, _, rfl⟩ |
    ⟨rfl, _, _, _, rfl⟩ | ⟨length, value, hrow, _, rfl⟩
  iterate 6 · simp
  rcases interpretRun_cases length value s with ⟨_, ht⟩ | ⟨_, _, ht⟩ | ⟨h0, _, ht⟩ <;> rw [ht] <;>
    rcases hrow with ⟨rfl, _⟩ | rfl | ⟨rfl, hz⟩
  case inr.inr.inr.inr => exact absurd hz h0
  all_goals simp

/-- Of `OUTMEM` only a run word writes, the entries of its run behind the cursor, and none when it faults. -/
theorem exec_dec_readOutmem {i : Instr} {s t : State} (hi : isEncOp i = false) (h : exec i s = .next t) {a : Nat}
    (hrun : i = .dRun → ¬(s.dec.cur ≤ a ∧ a < s.dec.cur + runLength (readDrun s s.dec.ridx)))
    (hrow : ∀ length value, i = .run length value → ¬(s.dec.cur ≤ a ∧ a < s.dec.cur + length)) :
    readOutmem t a = readOutmem s a := by
  rcases exec_dec_cases hi h with ⟨rfl, _⟩ | ⟨_, _, _, rfl⟩ | ⟨_, _, _, rfl⟩ | ⟨_, _, rfl⟩ | ⟨_, _, _, _, rfl⟩ |
    ⟨_, _, _, _, rfl⟩ | ⟨length, value, hword, _, rfl⟩
  iterate 6 · rfl
  rcases interpretRun_cases length value s with ⟨_, ht⟩ | ⟨_, _, ht⟩ | ⟨h0, _, ht⟩ <;> rw [ht]
  · rfl
  · rfl
  · rw [readOutmem_fillRun, if_neg]
    rcases hword with ⟨hi, rfl, _⟩ | hi | ⟨_, hz⟩
    · exact hrun hi
    · exact hrow length value hi
    · exact absurd hz h0

/-- An operation that ends in ERR has written no entry of `OUTMEM` (R227). -/
theorem exec_dec_readOutmem_err {i : Instr} {s t : State} (hi : isEncOp i = false) (h : exec i s = .next t)
    (herr : t.dec.state = .err) (a : Nat) : readOutmem t a = readOutmem s a := by
  rcases exec_dec_cases hi h with ⟨rfl, _⟩ | ⟨_, _, _, rfl⟩ | ⟨_, _, _, rfl⟩ | ⟨_, _, rfl⟩ | ⟨_, _, _, _, rfl⟩ |
    ⟨_, _, _, _, rfl⟩ | ⟨length, value, _, hsel, rfl⟩
  iterate 6 · rfl
  obtain ⟨_, ht⟩ | ⟨_, ht⟩ := interpretRun_err hsel.1 herr <;> rw [ht] <;> rfl

/-! ### An operation is a function of its unit -/

/-- The answer of an operation of ENC depends on ENC, the parameter and the count of Resets alone (R21). -/
theorem exec_enc_elsewhere {i : Instr} {s t u : State} (hi : isEncOp i = true) (h : exec i s = .next t)
    (hp : u.param = s.param) (hr : u.resets = s.resets) (he : u.enc = s.enc) : exec i u = .next { u with enc := t.enc } := by
  obtain ⟨d, ts, lr, n, rfl⟩ : ∃ d ts lr n, u = { s with dec := d, turns := ts, lastRead := lr, draws := n } :=
    ⟨u.dec, u.turns, u.lastRead, u.draws, by rw [← hp, ← hr, ← he]⟩
  rcases exec_enc_cases hi h with ⟨rfl, rfl | ⟨_, rfl⟩ | ⟨rfl, hb⟩ | ⟨rfl, hnd, hne⟩⟩ | ⟨rfl, hb, hc, rfl⟩ | ⟨rfl, hb, hc, rfl⟩ |
    ⟨rfl, hde, rfl⟩ | ⟨rfl, hb, hend, hrun, rfl⟩ | ⟨r, rfl, hrun, hb, hend, heq, rfl⟩ | ⟨r, rfl, hrun, hb, hend, hne, rfl⟩ |
    ⟨r, rfl, hrun, hb, hend, rfl⟩
  · rfl
  · rfl
  · exact exec_encStart_busy hb
  · exact exec_encClear_ignored (not_or.2 ⟨hnd, hne⟩)
  · exact exec_encStart_empty hb hc
  · exact exec_encStart_begins hb hc
  · exact exec_encClear_leaves hde
  · exact exec_eOpen hb hend hrun
  · exact exec_eExtend hb hend hrun heq
  · exact exec_eClose hb hend hrun hne
  · exact exec_eFlush hb hend hrun

/-- A run word is interpreted alike beside any other content of ENC. -/
theorem interpretRun_elsewhere {s u : State} (hp : u.param = s.param) (hd : u.dec = s.dec) (length : Nat) (value : Byte) :
    interpretRun length value u = { u with dec := (interpretRun length value s).dec } := by
  rcases interpretRun_cases length value s with ⟨rfl, ht⟩ | ⟨h0, hover, ht⟩ | ⟨h0, hfits, ht⟩ <;> rw [ht]
  · rw [interpretRun_zero, raise, hd]; rfl
  · rw [interpretRun_overlong h0 (by rwa [hd]), raise, hd]; rfl
  · rw [interpretRun_fits h0 (by rwa [hd]), fillRun, hd, hp]; rfl

/-- The answer of an operation of DEC depends on DEC, the parameter and the count of Resets alone (R21). -/
theorem exec_dec_elsewhere {i : Instr} {s t u : State} (hi : isEncOp i = false) (h : exec i s = .next t)
    (hp : u.param = s.param) (hr : u.resets = s.resets) (hd : u.dec = s.dec) : exec i u = .next { u with dec := t.dec } := by
  obtain ⟨e, ts, lr, n, rfl⟩ : ∃ e ts lr n, u = { s with enc := e, turns := ts, lastRead := lr, draws := n } :=
    ⟨u.enc, u.turns, u.lastRead, u.draws, by rw [← hp, ← hr, ← hd]⟩
  rcases exec_dec_cases hi h with ⟨rfl, rfl | ⟨_, rfl⟩ | ⟨rfl, hb⟩ | ⟨rfl, hnd, hne⟩⟩ | ⟨rfl, hb, hc, rfl⟩ | ⟨rfl, hb, hc, rfl⟩ |
    ⟨rfl, hde, rfl⟩ | ⟨rfl, hb, hend, hfull, rfl⟩ | ⟨rfl, hb, hend, hne, rfl⟩ | ⟨length, value, hword, hsel, rfl⟩
  · rfl
  · rfl
  · exact exec_decStart_busy hb
  · exact exec_decClear_ignored (not_or.2 ⟨hnd, hne⟩)
  · exact exec_decStart_empty hb hc
  · exact exec_decStart_begins hb hc
  · exact exec_decClear_leaves hde
  · exact exec_dFinish_full hb hend hfull
  · exact exec_dFinish_short hb hend hne
  · rw [← interpretRun_elsewhere hp hd]
    rcases hword with ⟨rfl, rfl, rfl⟩ | rfl | ⟨rfl, rfl⟩ <;> exact if_pos hsel

/-! ### A turn of a unit is a function of the unit -/

/-- The selected step of a BUSY decoder is always answered (R164). -/
theorem exec_decodeDsel_answers {s : State} (hb : s.dec.state = .busy) : ∃ t, exec (decodeDsel (dsel s)) s = .next t := by
  rw [decodeDsel_dsel]
  by_cases hend : s.dec.ridx = s.dec.nruns
  · rw [if_pos hend]
    by_cases hfull : s.dec.cur = s.dec.cap
    · exact ⟨_, exec_dFinish_full hb hend hfull⟩
    · exact ⟨_, exec_dFinish_short hb hend hfull⟩
  · rw [if_neg hend]
    exact ⟨_, exec_dRun ⟨hb, hend⟩⟩

/-- A turn of DEC brings DEC from its present content to one other, whatever stands beside it. -/
theorem decTurn_answers (s : State) : ∃ d, ∀ (u : State) (rest : List Turn), u.param = s.param → u.resets = s.resets →
    u.dec = s.dec → u.turns = .dec :: rest → step u = .next { u.advance with dec := d } := by
  by_cases hb : s.dec.state = .busy
  · obtain ⟨t, ht⟩ := exec_decodeDsel_answers hb
    refine ⟨t.dec, fun u rest hp hr hd hts => ?_⟩
    rw [step_dec (.inl ⟨rest, hts⟩) (by rw [hd]; exact hb), dsel, hd]
    exact exec_dec_elsewhere (isEncOp_decodeDsel _) ht hp hr hd
  · refine ⟨s.dec, fun u rest hp hr hd hts => ?_⟩
    rw [step_dec_pass hts (by rw [hd]; exact hb), ← hd]; rfl

/-- The select vector depends on ENC and the count of Resets alone. -/
theorem esel_congr {s u : State} (hr : u.resets = s.resets) (he : u.enc = s.enc) : esel u = esel s := by
  rw [esel, encEnd, encOpen, encEq, encEnd, scannedPixel, readPixmem, hr, he]; rfl

/-- A turn of ENC brings ENC from its present content to one other, or the machine is stuck at it, whatever stands beside ENC. -/
theorem encTurn_answers_or_stuck (s : State) :
    (∃ e, ∀ (u : State) (rest : List Turn), u.param = s.param → u.resets = s.resets → u.enc = s.enc →
      u.turns = .enc :: rest → step u = .next { u.advance with enc := e }) ∨
    (∀ (u : State) (rest : List Turn), u.resets = s.resets → u.enc = s.enc → u.turns = .enc :: rest → step u = .fault .encStuck) := by
  by_cases hb : s.enc.state = .busy
  · by_cases hstuck : s.enc.idx = s.enc.cap ∧ s.enc.run = none
    · refine .inr fun u rest hr he hts => ?_
      rw [step_enc (.inl ⟨rest, hts⟩) (by rw [he]; exact hb), esel_congr hr he,
        (decodeEsel_esel_eq_eUnreachable_iff s).2 hstuck]
      rfl
    · obtain ⟨t, ht⟩ := exec_decodeEsel_answers hb (fun _ hrun hend => hstuck ⟨hend, hrun⟩)
      refine .inl ⟨t.enc, fun u rest hp hr he hts => ?_⟩
      rw [step_enc (.inl ⟨rest, hts⟩) (by rw [he]; exact hb), esel_congr hr he]
      exact exec_enc_elsewhere (isEncOp_decodeEsel _) ht hp hr he
  · refine .inl ⟨s.enc, fun u rest hp hr he hts => ?_⟩
    rw [step_enc_pass hts (by rw [he]; exact hb), ← he]; rfl

/-! ### The obligations -/

/-- Settles O40: the frame of the other unit, of the inputs, of the registers and of `ERUN`. -/
theorem encOperationsFrame : Obligations.EncOperationsFrame := by
  unfold Obligations.EncOperationsFrame
  intro i s t hi h
  have hkeeps := exec_enc_keeps hi h
  obtain ⟨hpix, hw, hh⟩ := exec_enc_inputs hi h
  obtain ⟨hlatches, hidx, hrun, hnruns, herr, hstate⟩ := exec_enc_registers hi h
  have hread : ∀ a, readPixmem t a = readPixmem s a := fun a => by rw [hkeeps, readPixmem, readPixmem, hpix]
  exact ⟨by rw [hkeeps], by rw [hkeeps], by rw [hkeeps], by rw [hkeeps], by rw [hkeeps], by rw [hkeeps], hw, hh, hread,
    hlatches, hidx, hrun, hnruns, herr, hstate, fun a => exec_enc_readErun hi h⟩

/-- Settles O41: the frame of the other unit, of the inputs, of the registers and of `OUTMEM`. -/
theorem decOperationsFrame : Obligations.DecOperationsFrame := by
  unfold Obligations.DecOperationsFrame
  intro i s t hi h
  have hkeeps := exec_dec_keeps hi h
  obtain ⟨hdrun, hw, hh, hn⟩ := exec_dec_inputs hi h
  obtain ⟨hlatches, hcounters, hnop, herr⟩ := exec_dec_registers hi h
  have hread : ∀ a, readDrun t a = readDrun s a := fun a => by rw [hkeeps, readDrun, readDrun, hdrun]
  exact ⟨by rw [hkeeps], by rw [hkeeps], by rw [hkeeps], by rw [hkeeps], by rw [hkeeps], by rw [hkeeps], hw, hh, hn, hread,
    hlatches, hcounters, hnop, herr, fun a => exec_dec_readOutmem hi h, exec_dec_readOutmem_err hi h⟩

/-- Settles O48: an operation is a function of its unit and keeps everything else. -/
theorem unitsShareNoState : Obligations.UnitsShareNoState := by
  unfold Obligations.UnitsShareNoState
  intro i s t
  refine ⟨fun hi d h => ?_, fun hi e h => ?_⟩
  · refine (exec_enc_elsewhere (u := { s with dec := d }) hi h rfl rfl rfl).trans ?_
    rw [exec_enc_keeps hi h]
  · refine (exec_dec_elsewhere (u := { s with enc := e }) hi h rfl rfl rfl).trans ?_
    rw [exec_dec_keeps hi h]

/-- Settles O47: each unit's turn is a function of that unit, and neither turn changes the other unit; where ENC is stuck, DEC's turn
is answered first in one order and not reached in the other. -/
theorem encAndDecStepsCommute : Obligations.EncAndDecStepsCommute := by
  unfold Obligations.EncAndDecStepsCommute
  intro s
  obtain ⟨d, hd⟩ := decTurn_answers s
  obtain ⟨e, he⟩ | hstuck := encTurn_answers_or_stuck s
  · have hencdec : Host.Core.run core 2 (s.withTurns [.enc, .dec]) = .next { s with enc := e, dec := d } :=
      run_next core (he _ _ rfl rfl rfl rfl) (run_next core (hd _ _ rfl rfl rfl rfl) rfl)
    have hdecenc : Host.Core.run core 2 (s.withTurns [.dec, .enc]) = .next { s with enc := e, dec := d } :=
      run_next core (hd _ _ rfl rfl rfl rfl) (run_next core (he _ _ rfl rfl rfl rfl) rfl)
    rw [hencdec, hdecenc]
  · have hencdec : Host.Core.run core 2 (s.withTurns [.enc, .dec]) = .fault .encStuck :=
      run_fault core (hstuck _ _ rfl rfl rfl)
    have hdecenc : Host.Core.run core 2 (s.withTurns [.dec, .enc]) = .fault .encStuck :=
      run_next core (hd _ _ rfl rfl rfl rfl) (run_fault core (hstuck _ _ rfl rfl rfl))
    rw [hencdec, hdecenc]

end Sys2Proof.Machine
end

section
/-! The invariant of the machine: it holds after power-on, every operation and every HOST transaction keeps it, and in it every
expressible step is answered (42_codec_contract.md section 3, 10_state.md sections 3, 4 and 6). -/

namespace Sys2Proof.Machine

/-! ### After reset -/

theorem encInRange_afterReset {p : Param} {pixmem : Memory Byte} {erun : Memory Nat}
    (hpix : pixmem.wf ∧ pixmem.Within p.depth (fun _ => True))
    (herun : erun.wf ∧ erun.Within p.depth (fun v => v < 2 ^ p.runW)) : EncInRange p (.afterReset pixmem erun) := by
  have hdim : 0 < 2 ^ p.dimW := Nat.two_pow_pos _
  have hlen : 0 < 2 ^ p.lenW := Nat.two_pow_pos _
  exact ⟨hdim, hdim, hdim, hdim, hlen, hlen, hlen, fun r hr => (by cases hr), hpix, herun⟩

theorem decInRange_afterReset {p : Param} {drun : Memory Nat} {outmem : Memory Byte}
    (hdrun : drun.wf ∧ drun.Within p.depth (fun v => v < 2 ^ p.runW))
    (hout : outmem.wf ∧ outmem.Within p.depth (fun _ => True)) : DecInRange p (.afterReset drun outmem) := by
  have hdim : 0 < 2 ^ p.dimW := Nat.two_pow_pos _
  have hlen : 0 < 2 ^ p.lenW := Nat.two_pow_pos _
  exact ⟨hlen, hdim, hdim, hlen, hdim, hdim, hlen, hlen, hlen, hlen, hdrun, hout⟩

theorem encConsistent_afterReset (pixmem : Memory Byte) (erun : Memory Nat) : EncConsistent (.afterReset pixmem erun) where
  cap_eq := rfl
  err_state := by simp [EncUnit.afterReset]
  open_busy := fun h => absurd rfl h
  busy := fun h => by cases h
  opened := fun r h => by cases h
  done := fun h => by cases h

theorem decConsistent_afterReset (drun : Memory Nat) (outmem : Memory Byte) : DecConsistent (.afterReset drun outmem) where
  cap_eq := rfl
  err_state := by simp [DecUnit.afterReset]
  info_state := fun _ => rfl
  frame := fun h => by rcases h with h | h <;> cases h
  done := fun h => by cases h

/-! ### The operations of ENC -/

/-- A BUSY encoder that has not scanned all pixels has its index below the capacity, so that it does not wrap (R192). -/
theorem EncConsistent.inc_idx {p : Param} {e : EncUnit} (hr : EncInRange p e) (hc : EncConsistent e) (hb : e.state = .busy)
    (hend : e.idx ≠ e.cap) : inc p e.idx = e.idx + 1 ∧ e.idx < e.cap := by
  obtain ⟨_, hle, _⟩ := hc.busy hb
  have hcap := hr.cap
  exact ⟨inc_eq (by omega), by omega⟩

/-- With a run open, run count and run length stay within the part scanned, so that neither wraps (R192). -/
theorem EncConsistent.inc_nruns {p : Param} {e : EncUnit} (hr : EncInRange p e) (hc : EncConsistent e) {r : OpenRun}
    (hrun : e.run = some r) : inc p e.nruns = e.nruns + 1 := by
  obtain ⟨_, _, hlt⟩ := hc.opened r hrun
  have hidx := hr.idx
  exact inc_eq (by omega)

/-- The appended word is a run word in range (R137). -/
theorem encInRange_appendRun {s : State} {r : OpenRun} (hr : EncInRange s.param s.enc) (hrun : s.enc.run = some r) :
    EncInRange s.param (appendRun r s).enc :=
  { hr with
    nruns := inc_lt _ _
    erun := ⟨Memory.wf_write hr.erun.1 _ _, Memory.within_write hr.erun.2 hr.nruns (pack_lt (hr.len r hrun))⟩ }

/-- Every operation of ENC keeps its registers and memories in range. -/
theorem exec_enc_inRange {i : Instr} {s t : State} (hi : isEncOp i = true) (h : exec i s = .next t)
    (hr : EncInRange s.param s.enc) : EncInRange s.param t.enc := by
  have hone : 1 < 2 ^ s.param.lenW := Nat.one_lt_two_pow (by have := s.param.pos; simp only [Param.lenW]; omega)
  have hzero : 0 < 2 ^ s.param.lenW := Nat.two_pow_pos _
  have hcap := capacity_lt hr.cfgWidth hr.cfgHeight
  rcases exec_enc_cases hi h with ⟨rfl, _⟩ | ⟨_, _, _, rfl⟩ | ⟨_, _, _, rfl⟩ | ⟨_, _, rfl⟩ | ⟨_, _, _, _, rfl⟩ |
    ⟨r, _, hrun, _, _, _, rfl⟩ | ⟨r, _, hrun, _, _, _, rfl⟩ | ⟨r, _, hrun, _, _, rfl⟩
  · exact hr
  · exact { hr with w := hr.cfgWidth, h := hr.cfgHeight, cap := hcap }
  · exact { hr with
      w := hr.cfgWidth, h := hr.cfgHeight, cap := hcap, idx := hzero, nruns := hzero, len := fun r hr => by cases hr }
  · exact { hr with }
  · exact { hr with idx := inc_lt _ _, len := fun r hr => by cases hr; exact hone }
  · exact { hr with idx := inc_lt _ _, len := fun r hr => by cases hr; exact inc_lt _ _ }
  · exact { encInRange_appendRun hr hrun with idx := inc_lt _ _, len := fun r hr => by cases hr; exact hone }
  · exact { encInRange_appendRun hr hrun with len := fun r hr => by cases hr }

section
variable {s : State} {r : OpenRun} (hr : EncInRange s.param s.enc) (hc : EncConsistent s.enc) (hb : s.enc.state = .busy)
include hr hc hb

/-- The first pixel opens a run of length 1 (R135). -/
theorem encConsistent_eOpen (v : Byte) (hend : s.enc.idx ≠ s.enc.cap) (hrun : s.enc.run = none) :
    EncConsistent { s.enc with run := some ⟨v, 1⟩, idx := inc s.param s.enc.idx } := by
  obtain ⟨hidx, hlt⟩ := hc.inc_idx hr hb hend
  obtain ⟨hpos, _, _, hnruns⟩ := hc.busy hb
  have h0 : s.enc.nruns = 0 := hnruns hrun
  exact { hc with
    open_busy := fun _ => hb
    busy := fun _ => ⟨hpos, by simp only [hidx]; omega, by simp [hidx], by simp⟩
    opened := fun r' hr' => by cases hr'; simp only [hidx]; omega
    done := fun h => absurd (hb.symm.trans h) (by decide) }

/-- One pixel more in the open run and in the part scanned (R136). -/
theorem encConsistent_eExtend (hend : s.enc.idx ≠ s.enc.cap) (hrun : s.enc.run = some r) :
    EncConsistent { s.enc with
      run := some { r with length := inc s.param r.length }, idx := inc s.param s.enc.idx } := by
  obtain ⟨hidx, hlt⟩ := hc.inc_idx hr hb hend
  obtain ⟨hpos, _⟩ := hc.busy hb
  obtain ⟨hlen, hle, hnruns⟩ := hc.opened r hrun
  have hlength : inc s.param r.length = r.length + 1 := inc_eq (by have := hr.cap; omega)
  exact { hc with
    open_busy := fun _ => hb
    busy := fun _ => ⟨hpos, by simp only [hidx]; omega, by simp [hidx], by simp⟩
    opened := fun r' hr' => by cases hr'; simp only [hidx, hlength]; omega
    done := fun h => absurd (hb.symm.trans h) (by decide) }

/-- One closed run more and one pixel more scanned (R137). -/
theorem encConsistent_eClose (v : Byte) (hend : s.enc.idx ≠ s.enc.cap) (hrun : s.enc.run = some r) :
    EncConsistent { (appendRun r s).enc with run := some ⟨v, 1⟩, idx := inc s.param s.enc.idx } := by
  obtain ⟨hidx, hlt⟩ := hc.inc_idx hr hb hend
  obtain ⟨hpos, _⟩ := hc.busy hb
  obtain ⟨hlen, hle, hnruns⟩ := hc.opened r hrun
  have hcount := hc.inc_nruns hr hrun
  exact { hc with
    open_busy := fun _ => hb
    busy := fun _ => ⟨hpos, by simp only [hidx, appendRun_enc]; omega, by simp [hidx], by simp⟩
    opened := fun r' hr' => by cases hr'; simp only [hidx, hcount, appendRun_enc]; omega
    done := fun h => absurd (hb.symm.trans h) (by decide) }

/-- The final run makes the run count at least 1 and at most the pixels scanned (R138, R211). -/
theorem encConsistent_eFlush (hend : s.enc.idx = s.enc.cap) (hrun : s.enc.run = some r) :
    EncConsistent { (appendRun r s).enc with run := none, state := .done } := by
  obtain ⟨_, _, hnruns⟩ := hc.opened r hrun
  have hcount := hc.inc_nruns hr hrun
  have herr : s.enc.err = .none := hc.err_state.1.2 (by rw [hb]; decide)
  exact { hc with
    err_state := by simp [herr]
    open_busy := fun h => absurd rfl h
    busy := fun h => by cases h
    opened := fun r' hr' => by cases hr'
    done := fun _ => ⟨by simp [hcount], by simp only [hcount, appendRun_enc]; omega, hend⟩ }

end

/-- Outside BUSY, where no run is open, the unit may fault or go to IDLE (R131, R132). -/
theorem EncConsistent.outside_busy {e e' : EncUnit} (hc : EncConsistent e) (hb : e.state ≠ .busy) (hcap : e'.cap = e'.w * e'.h)
    (hkept : e'.run = e.run) (hstate : (e'.state = .err ∧ e'.err = .emptyInput) ∨ (e'.state = .idle ∧ e'.err = .none)) :
    EncConsistent e' := by
  have hrun : e'.run = none := hkept.trans (by_contra fun hopen => hb (hc.open_busy hopen))
  refine ⟨hcap, ?_, fun h => absurd hrun h, fun h => ?_, fun r hr => ?_, fun h => ?_⟩
  · rcases hstate with ⟨hs, he⟩ | ⟨hs, he⟩ <;> simp [hs, he]
  · rcases hstate with ⟨hs, _⟩ | ⟨hs, _⟩ <;> simp [hs] at h
  · simp [hrun] at hr
  · rcases hstate with ⟨hs, _⟩ | ⟨hs, _⟩ <;> simp [hs] at h

/-- Every operation of ENC keeps its codes and counters in step. -/
theorem exec_enc_consistent {i : Instr} {s t : State} (hi : isEncOp i = true) (h : exec i s = .next t)
    (hr : EncInRange s.param s.enc) (hc : EncConsistent s.enc) : EncConsistent t.enc := by
  rcases exec_enc_cases hi h with ⟨rfl, _⟩ | ⟨_, hb, _, rfl⟩ | ⟨_, _, hcap, rfl⟩ | ⟨_, hde, rfl⟩ | ⟨_, hb, hend, hrun, rfl⟩ |
    ⟨r, _, hrun, hb, hend, _, rfl⟩ | ⟨r, _, hrun, hb, hend, _, rfl⟩ | ⟨r, _, hrun, hb, hend, rfl⟩
  · exact hc
  · exact hc.outside_busy hb rfl rfl (.inl ⟨rfl, rfl⟩)
  · exact {
      cap_eq := rfl
      err_state := by simp
      open_busy := fun _ => rfl
      busy := fun _ => ⟨Nat.pos_of_ne_zero hcap, Nat.zero_le _, by simp, fun _ => rfl⟩
      opened := fun r hr => by cases hr
      done := fun h => by cases h }
  · exact hc.outside_busy (by rcases hde with h | h <;> simp [h]) hc.cap_eq rfl (.inr ⟨rfl, rfl⟩)
  · exact encConsistent_eOpen hr hc hb _ hend hrun
  · exact encConsistent_eExtend hr hc hb hend hrun
  · exact encConsistent_eClose hr hc hb _ hend hrun
  · exact encConsistent_eFlush hr hc hb hend hrun

/-! ### The operations of DEC -/

/-- Every operation of DEC keeps its registers and memories in range. -/
theorem exec_dec_inRange {i : Instr} {s t : State} (hi : isEncOp i = false) (h : exec i s = .next t)
    (hr : DecInRange s.param s.dec) : DecInRange s.param t.dec := by
  have hzero : 0 < 2 ^ s.param.lenW := Nat.two_pow_pos _
  have hcap := capacity_lt hr.cfgWidth hr.cfgHeight
  rcases exec_dec_cases hi h with ⟨rfl, _⟩ | ⟨_, _, _, rfl⟩ | ⟨_, _, _, rfl⟩ | ⟨_, _, rfl⟩ | ⟨_, _, _, _, rfl⟩ |
    ⟨_, _, _, _, rfl⟩ | ⟨length, value, _, _, rfl⟩
  · exact hr
  · exact { hr with w := hr.cfgWidth, h := hr.cfgHeight, nruns := hr.cfgNruns, cap := hcap, info := hzero }
  · exact { hr with
      w := hr.cfgWidth, h := hr.cfgHeight, nruns := hr.cfgNruns, cap := hcap, ridx := hzero, cur := hzero, info := hzero }
  · exact { hr with info := hzero }
  · exact { hr with }
  · exact { hr with info := hr.nruns }
  · rcases interpretRun_cases length value s with ⟨_, ht⟩ | ⟨_, _, ht⟩ | ⟨_, hfits, ht⟩ <;> rw [ht]
    · exact { hr with info := hr.ridx }
    · exact { hr with info := hr.ridx }
    · exact { hr with
        cur := Nat.lt_of_le_of_lt hfits hr.cap
        ridx := inc_lt _ _
        outmem := ⟨Memory.wf_fill hr.outmem.1 _ _ _,
          Memory.within_fill hr.outmem.2 (Nat.le_of_lt (Nat.lt_of_le_of_lt hfits hr.cap)) trivial⟩ }

/-- A fault of a unit with the codes of DEC ends the frame. -/
theorem decConsistent_raise {s : State} {e : ErrCode} (hcap : s.dec.cap = s.dec.w * s.dec.h)
    (he : e = .lengthMismatch ∨ e = .malformedArtifact) (info : Nat) : DecConsistent (raise .dec e info s).dec where
  cap_eq := hcap
  err_state := by rcases he with rfl | rfl <;> simp
  info_state := fun h => absurd rfl h
  frame := fun h => by rcases h with h | h <;> cases h
  done := fun h => by cases h

/-- Every operation of DEC keeps its codes and counters in step. -/
theorem exec_dec_consistent {i : Instr} {s t : State} (hi : isEncOp i = false) (h : exec i s = .next t)
    (hr : DecInRange s.param s.dec) (hc : DecConsistent s.dec) : DecConsistent t.dec := by
  rcases exec_dec_cases hi h with ⟨rfl, _⟩ | ⟨_, _, _, rfl⟩ | ⟨_, _, hcap, rfl⟩ | ⟨_, _, rfl⟩ | ⟨_, hb, hend, hfull, rfl⟩ |
    ⟨_, _, _, _, rfl⟩ | ⟨length, value, _, ⟨hb, hne⟩, rfl⟩
  · exact hc
  · exact decConsistent_raise rfl (.inr rfl) 0
  · exact {
      cap_eq := rfl
      err_state := by simp
      info_state := fun _ => rfl
      frame := fun _ => ⟨Nat.pos_of_ne_zero hcap, Nat.zero_le _, Nat.zero_le _⟩
      done := fun h => by cases h }
  · exact { hc with
      err_state := by simp
      info_state := fun _ => rfl
      frame := fun h => by rcases h with h | h <;> cases h
      done := fun h => by cases h }
  · have herr : s.dec.err = .none := hc.err_state.1.2 (by rw [hb]; decide)
    exact { hc with
      err_state := by simp [herr]
      info_state := fun _ => hc.info_state (by rw [hb]; decide)
      frame := fun _ => hc.frame (.inl hb)
      done := fun _ => ⟨hend, hfull⟩ }
  · exact decConsistent_raise hc.cap_eq (.inl rfl) _
  · obtain ⟨hpos, hle, _⟩ := hc.frame (.inl hb)
    rcases interpretRun_cases length value s with ⟨_, ht⟩ | ⟨_, _, ht⟩ | ⟨_, hfits, ht⟩ <;> rw [ht]
    · exact decConsistent_raise hc.cap_eq (.inr rfl) _
    · exact decConsistent_raise hc.cap_eq (.inl rfl) _
    · have hridx : inc s.param s.dec.ridx = s.dec.ridx + 1 := inc_eq (by have := hr.nruns; omega)
      exact { hc with
        frame := fun _ => ⟨hpos, by rw [fillRun_dec, hridx]; exact Nat.lt_of_le_of_ne hle hne, hfits⟩
        done := fun h => absurd (hb.symm.trans h) (by decide) }

/-! ### Every step -/

/-- Every operation keeps the invariant: its own unit by the lemmas above, the other it leaves alone. -/
theorem exec_inv {i : Instr} {s t : State} (h : exec i s = .next t) (hinv : Inv s) : Inv t := by
  cases hi : isEncOp i with
  | true =>
    have hrange := exec_enc_inRange hi h hinv.encRange
    have hcons := exec_enc_consistent hi h hinv.encRange hinv.enc
    rw [exec_enc_keeps hi h]
    exact ⟨hrange, hinv.decRange, hcons, hinv.dec⟩
  | false =>
    have hrange := exec_dec_inRange hi h hinv.decRange
    have hcons := exec_dec_consistent hi h hinv.decRange hinv.dec
    rw [exec_dec_keeps hi h]
    exact ⟨hinv.encRange, hrange, hinv.enc, hcons⟩

/-- A register write cuts its value to the width, so it keeps the invariant (R41, R49). -/
theorem regWrite_inv (u : UnitId) (n v : Nat) {s : State} (hinv : Inv s) : Inv (regWrite u n v s) := by
  have hdim : v % 2 ^ s.param.dimW < 2 ^ s.param.dimW := Nat.mod_lt _ (Nat.two_pow_pos _)
  have hlen : v % 2 ^ s.param.lenW < 2 ^ s.param.lenW := Nat.mod_lt _ (Nat.two_pow_pos _)
  obtain ⟨her, hdr, he, hd⟩ := hinv
  cases u with
  | enc =>
    rw [regWrite]
    rcases encRegWrite_cases n v s with ⟨_, hw⟩ | ⟨_, hw⟩ | ⟨_, _, hw⟩ <;> rw [hw]
    · exact ⟨{ her with cfgWidth := hdim }, hdr, { he with }, hd⟩
    · exact ⟨{ her with cfgHeight := hdim }, hdr, { he with }, hd⟩
    · exact ⟨her, hdr, he, hd⟩
  | dec =>
    rw [regWrite]
    rcases decRegWrite_cases n v s with ⟨_, hw⟩ | ⟨_, hw⟩ | ⟨_, hw⟩ | ⟨_, _, _, hw⟩ <;> rw [hw]
    · exact ⟨her, { hdr with cfgWidth := hdim }, he, { hd with }⟩
    · exact ⟨her, { hdr with cfgHeight := hdim }, he, { hd with }⟩
    · exact ⟨her, { hdr with cfgNruns := hlen }, he, { hd with }⟩
    · exact ⟨her, hdr, he, hd⟩

/-- A memory write that the port can carry stays in range (R71, R79). -/
theorem memWrite_inv {m : MemId} {i v : Nat} {s : State} (hexpr : (HostOp.memWrite m i v).expressible s.param = true)
    (hinv : Inv s) : Inv (memWrite m i v s) := by
  obtain ⟨hi, hv⟩ : i < s.param.depth ∧ v < 2 ^ entryWidth s.param m := of_decide_eq_true hexpr
  obtain ⟨her, hdr, he, hd⟩ := hinv
  cases m with
  | pixmem =>
    exact ⟨{ her with pixmem := ⟨Memory.wf_write her.pixmem.1 _ _, Memory.within_write her.pixmem.2 hi trivial⟩ }, hdr,
      { he with }, hd⟩
  | drun =>
    exact ⟨her, { hdr with drun := ⟨Memory.wf_write hdr.drun.1 _ _, Memory.within_write hdr.drun.2 hi hv⟩ }, he, { hd with }⟩
  | erun => exact ⟨her, hdr, he, hd⟩
  | outmem => exact ⟨her, hdr, he, hd⟩

theorem hostReset_inv {s : State} (hinv : Inv s) : Inv (hostReset s) := by
  obtain ⟨her, hdr, _, _⟩ := hinv
  exact ⟨encInRange_afterReset ⟨Memory.wf_forget her.pixmem.1, Memory.within_forget her.pixmem.2⟩
      ⟨Memory.wf_forget her.erun.1, Memory.within_forget her.erun.2⟩,
    decInRange_afterReset ⟨Memory.wf_forget hdr.drun.1, Memory.within_forget hdr.drun.2⟩
      ⟨Memory.wf_forget hdr.outmem.1, Memory.within_forget hdr.outmem.2⟩,
    encConsistent_afterReset _ _, decConsistent_afterReset _ _⟩

theorem hostAccess_inv {op : HostOp} {s t : State} (h : hostAccess op s = .next t) (hinv : Inv s) : Inv t := by
  obtain ⟨hexpr, ⟨u, n, v, rfl, rfl⟩ | ⟨u, n, rfl, rfl⟩ | ⟨m, i, v, rfl, rfl⟩ | ⟨m, i, rfl, rfl⟩ | ⟨rfl, rfl⟩⟩ := hostAccess_next h
  · exact regWrite_inv u n v hinv
  · obtain ⟨her, hdr, he, hd⟩ := hinv
    exact ⟨by simpa using her, by simpa using hdr, by simpa using he, by simpa using hd⟩
  · exact memWrite_inv hexpr hinv
  · obtain ⟨her, hdr, he, hd⟩ := hinv
    exact ⟨by simpa using her, by simpa using hdr, by simpa using he, by simpa using hd⟩
  · exact hostReset_inv hinv

theorem step_inv {s t : State} (hinv : Inv s) (h : step s = .next t) : Inv t := by
  have hadv : Inv s.advance := ⟨hinv.encRange, hinv.decRange, hinv.enc, hinv.dec⟩
  rcases step_cases s with ⟨_, _, _, _, hs⟩ | ⟨_, _, _, _, hs⟩ | ⟨_, _, hs⟩ | ⟨_, _, hs⟩ | hs <;> rw [hs] at h
  · exact exec_inv h hadv
  · exact hostAccess_inv h hadv
  · exact exec_inv h hadv
  · exact exec_inv h hadv
  · cases h; exact hadv

/-! ### Every step is answered -/

/-- A command at `DEC_CMD` is always answered (R160 to R163). -/
theorem exec_commandInstr_dec_answers (v : Nat) (s : State) : ∃ t, exec (commandInstr .dec v) s = .next t := by
  rcases commandInstr_dec_cases v with ⟨hi, _⟩ | ⟨hi, _⟩ | ⟨hi, _⟩ | ⟨hi, _⟩ <;> rw [hi]
  · exact ⟨_, rfl⟩
  · exact ⟨_, execDecStart_eq s⟩
  · exact ⟨_, execDecClear_eq s⟩
  · exact ⟨_, rfl⟩

theorem step_answers {s : State} (hinv : Inv s) (hexpr : inexpressible s = false) : ∃ t, step s = .next t := by
  rcases step_cases s with ⟨u, v, _, _, hs⟩ | ⟨op, rest, hts, _, hs⟩ | ⟨_, hb, hs⟩ | ⟨_, hb, hs⟩ | hs <;> rw [hs]
  · cases u with
    | enc => exact exec_commandInstr_enc_answers v _
    | dec => exact exec_commandInstr_dec_answers v _
  · exact hostAccess_answers (by simpa [inexpressible, hts] using hexpr)
  · exact exec_decodeEsel_answers (s := s.advance) hb hinv.enc.notStuck
  · exact exec_decodeDsel_answers (s := s.advance) hb
  · exact ⟨_, rfl⟩

/-- An access wider than the port is refused; a register access never is (R50, R59). -/
theorem step_inexpressible {s : State} (h : inexpressible s = true) : step s = .refused .accessNotExpressible := by
  unfold inexpressible at h
  split at h
  · next op rest hts =>
    have hexpr : ¬ op.expressible s.param = true := by simpa using h
    rw [step_access hts (fun u v hop => hexpr (by rw [hop]; rfl))]
    exact if_neg hexpr
  · cases h

/-! ### The obligations -/

/-- Settles O36: power-on is a reset over empty memories. -/
theorem powerOnMeetsTheInvariant : Obligations.PowerOnMeetsTheInvariant := by
  unfold Obligations.PowerOnMeetsTheInvariant
  refine ⟨fun p => ⟨encInRange_afterReset ?_ ?_, decInRange_afterReset ?_ ?_, encConsistent_afterReset _ _,
    decConsistent_afterReset _ _⟩, rfl⟩ <;> exact ⟨Memory.wf_empty, Memory.within_empty _ _⟩

/-- Settles O37: every operation and every HOST transaction keeps the invariant. -/
theorem everyStepKeepsTheInvariant : Obligations.EveryStepKeepsTheInvariant := by
  unfold Obligations.EveryStepKeepsTheInvariant
  intro s t
  exact step_inv

/-- Settles O39: commands, selected steps and expressible transactions are all answered. -/
theorem everyExpressibleStepCompletes : Obligations.EveryExpressibleStepCompletes := by
  unfold Obligations.EveryExpressibleStepCompletes
  intro s hinv
  exact ⟨step_answers hinv, step_inexpressible⟩

end Sys2Proof.Machine
end

section
/-! What a step can do to one unit: a START or CLEAR of the unit, its own selected step, a Reset, or nothing but what the HOST writes
into its inputs (10_state.md sections 2 to 4; R22, R29, R31, R43, R230). -/

namespace Sys2Proof.Machine

/-! ### Turns that leave a unit alone -/

/-- From `s` to `t` a frame of ENC over `PIXMEM[0 : n]` was left alone: of ENC only the configuration registers and entries of
`PIXMEM` from `n` on may have changed (R94, R270). The counterpart of `LeavesDecFrame`. -/
structure LeavesEncFrame (n : Nat) (s t : State) : Prop where
  param : t.param = s.param
  resets : t.resets = s.resets
  enc : t.enc = { s.enc with cfgWidth := t.enc.cfgWidth, cfgHeight := t.enc.cfgHeight, pixmem := t.enc.pixmem }
  pixmem : ∀ k, k < n → readPixmem t k = readPixmem s k

/-- What changes nothing of ENC leaves its frame alone. -/
theorem LeavesEncFrame.of_enc_eq {n : Nat} {s t : State} (hp : t.param = s.param) (hr : t.resets = s.resets)
    (he : t.enc = s.enc) : LeavesEncFrame n s t :=
  ⟨hp, hr, by rw [he], fun k _ => by simp [readPixmem, hr, he]⟩

theorem LeavesEncFrame.readErun {n : Nat} {s t : State} (h : LeavesEncFrame n s t) (k : Nat) : readErun t k = readErun s k := by
  rw [Machine.readErun, h.enc, h.param, h.resets]; rfl

theorem LeavesDecFrame.readOutmem {n : Nat} {s t : State} (h : LeavesDecFrame n s t) (i : Nat) :
    readOutmem t i = readOutmem s i := by
  rw [Machine.readOutmem, h.dec, h.resets]; rfl

/-- The next turn writes no entry of memory `m` below `n` (R270). -/
def WritesNoneBelow (m : MemId) (n : Nat) (s : State) : Prop :=
  ∀ i v rest, s.turns = .host (.memWrite m i v) :: rest → n ≤ i

/-- Short of a Reset, a HOST transaction that is no command leaves ENC's frame alone. -/
theorem hostAccess_leavesEnc {n : Nat} {op : HostOp} {s t : State} (h : hostAccess op s = .next t) (hreset : op ≠ .reset)
    (hwrite : ∀ i v, op = .memWrite .pixmem i v → n ≤ i) : LeavesEncFrame n s t := by
  obtain ⟨_, ⟨u, k, v, rfl, rfl⟩ | ⟨u, k, rfl, rfl⟩ | ⟨m, i, v, rfl, rfl⟩ | ⟨m, i, rfl, rfl⟩ | ⟨rfl, _⟩⟩ := hostAccess_next h
  · cases u with
    | enc =>
      rw [regWrite]
      rcases encRegWrite_cases k v s with ⟨_, hw⟩ | ⟨_, hw⟩ | ⟨_, _, hw⟩ <;> rw [hw] <;> exact ⟨rfl, rfl, rfl, fun _ _ => rfl⟩
    | dec =>
      rw [regWrite]
      rcases decRegWrite_cases k v s with ⟨_, hw⟩ | ⟨_, hw⟩ | ⟨_, hw⟩ | ⟨_, _, _, hw⟩ <;> rw [hw] <;> exact .of_enc_eq rfl rfl rfl
  · exact .of_enc_eq (by simp) (by simp) (by simp)
  · refine ⟨by cases m <;> rfl, by cases m <;> rfl, by cases m <;> rfl, fun k hk => ?_⟩
    rw [readPixmem_memWrite, if_neg]
    rintro ⟨rfl, rfl⟩
    exact absurd (hwrite _ _ rfl) (Nat.not_le_of_lt hk)
  · exact .of_enc_eq (by simp) (by simp) (by simp)
  · exact absurd rfl hreset

/-- Short of a Reset, a HOST transaction that is no command leaves DEC's frame alone. -/
theorem hostAccess_leavesDec {n : Nat} {op : HostOp} {s t : State} (h : hostAccess op s = .next t) (hreset : op ≠ .reset)
    (hwrite : ∀ i v, op = .memWrite .drun i v → n ≤ i) : LeavesDecFrame n s t := by
  obtain ⟨_, ⟨u, k, v, rfl, rfl⟩ | ⟨u, k, rfl, rfl⟩ | ⟨m, i, v, rfl, rfl⟩ | ⟨m, i, rfl, rfl⟩ | ⟨rfl, _⟩⟩ := hostAccess_next h
  · cases u with
    | enc =>
      rw [regWrite]
      rcases encRegWrite_cases k v s with ⟨_, hw⟩ | ⟨_, hw⟩ | ⟨_, _, hw⟩ <;> rw [hw] <;> exact .of_dec_eq rfl rfl rfl
    | dec =>
      rw [regWrite]
      rcases decRegWrite_cases k v s with ⟨_, hw⟩ | ⟨_, hw⟩ | ⟨_, hw⟩ | ⟨_, _, _, hw⟩ <;> rw [hw] <;>
        exact ⟨rfl, rfl, rfl, fun _ _ => rfl⟩
  · exact .of_dec_eq (by simp) (by simp) (by simp)
  · refine ⟨by cases m <;> rfl, by cases m <;> rfl, by cases m <;> rfl, fun k hk => ?_⟩
    rw [readDrun_memWrite, if_neg]
    rintro ⟨rfl, rfl⟩
    exact absurd (hwrite _ _ rfl) (Nat.not_le_of_lt hk)
  · exact .of_dec_eq (by simp) (by simp) (by simp)
  · exact absurd rfl hreset

/-! ### Turns that are recognised -/

theorem fetch_enc {s : State} (h : EncTurn s) (hb : s.enc.state = .busy) : fetch s = .word (.esel (esel s)) := by
  rcases h with ⟨rest, h⟩ | h <;> simp [fetch, h, encFetch, hb]

theorem fetch_dec {s : State} (h : DecTurn s) (hb : s.dec.state = .busy) : fetch s = .word (.dsel (dsel s)) := by
  rcases h with ⟨rest, h⟩ | ⟨h, he⟩
  · simp [fetch, h, decFetch, hb]
  · simp [fetch, h, he, decFetch, hb]

/-- Only a BUSY encoder hands over a select vector. -/
theorem busy_of_fetch_esel {s : State} {v : BitVec 3} (h : fetch s = .word (.esel v)) : s.enc.state = .busy := by
  by_contra hb
  unfold fetch at h
  split at h
  · next op _ _ => rcases op with ⟨_ | _, _ | _, _⟩ | _ | _ | _ | _ <;> cases h
  · rw [encFetch, if_neg hb] at h; cases h
  · rw [decFetch] at h; split at h <;> cases h
  · rw [if_neg hb, decFetch] at h; split at h <;> cases h

/-- Only a BUSY decoder hands over a select bit. -/
theorem busy_of_fetch_dsel {s : State} {v : BitVec 1} (h : fetch s = .word (.dsel v)) : s.dec.state = .busy := by
  by_contra hb
  unfold fetch at h
  split at h
  · next op _ _ => rcases op with ⟨_ | _, _ | _, _⟩ | _ | _ | _ | _ <;> cases h
  · rw [encFetch] at h; split at h <;> cases h
  · rw [decFetch, if_neg hb] at h; cases h
  · rw [encFetch, decFetch, if_neg hb] at h; split at h <;> cases h

theorem step_of_fetch_esel {s : State} (h : fetch s = .word (.esel (esel s))) : step s = exec (decodeEsel (esel s)) s.advance := by
  simp only [step, h, decode]

theorem step_of_fetch_dsel {s : State} (h : fetch s = .word (.dsel (dsel s))) : step s = exec (decodeDsel (dsel s)) s.advance := by
  simp only [step, h, decode]

theorem exists_of_commands {s : State} {u : UnitId} {c : Byte} (h : commands u c s = true) :
    ∃ v rest, s.turns = .host (.regWrite u 0 v) :: rest ∧ BitVec.ofNat 8 v = c := by
  unfold commands at h
  split at h
  · next w v rest hts =>
    obtain ⟨rfl, hc⟩ := of_decide_eq_true h
    exact ⟨v, rest, hts, hc⟩
  · cases h

/-- The step at which code `c` is written to `ENC_CMD`. -/
theorem step_of_commands_enc {s : State} {c : Byte} (h : commands .enc c s = true) : step s = exec (decodeEncCmd c) s.advance := by
  obtain ⟨v, rest, hts, rfl⟩ := exists_of_commands h
  exact step_command hts

/-- The step at which code `c` is written to `DEC_CMD`. -/
theorem step_of_commands_dec {s : State} {c : Byte} (h : commands .dec c s = true) : step s = exec (decodeDecCmd c) s.advance := by
  obtain ⟨v, rest, hts, rfl⟩ := exists_of_commands h
  exact step_command hts

theorem step_of_resetsNext {s : State} (h : resetsNext s = true) : step s = .next (hostReset s.advance) := by
  unfold resetsNext at h
  split at h
  · next rest hts => exact step_reset hts
  · cases h

/-! ### What a step can do to a unit -/

/-- An operation of one unit leaves the other's frame alone (R21). -/
theorem leavesEncFrame_of_exec_dec {n : Nat} {i : Instr} {s t : State} (hi : isEncOp i = false) (h : exec i s.advance = .next t) :
    LeavesEncFrame n s t := by
  rw [exec_dec_keeps hi h]
  exact .of_enc_eq rfl rfl rfl

theorem leavesDecFrame_of_exec_enc {n : Nat} {i : Instr} {s t : State} (hi : isEncOp i = true) (h : exec i s.advance = .next t) :
    LeavesDecFrame n s t := by
  rw [exec_enc_keeps hi h]
  exact .of_dec_eq rfl rfl rfl

/-- What a command at `ENC_CMD` can do: a START or CLEAR is accepted, or nothing changes (R130 to R133). -/
theorem step_encCommand_cases {s t : State} {v : Nat} {rest : List Turn} (hts : s.turns = .host (.regWrite .enc 0 v) :: rest)
    (h : step s = .next t) :
    (commands .enc 0x01#8 s = true ∧ s.enc.state ≠ .busy ∧ exec .encStart s.advance = .next t) ∨
    (commands .enc 0x02#8 s = true ∧ (s.enc.state = .done ∨ s.enc.state = .err) ∧ t = leave .enc s.advance) ∨
    t = s.advance := by
  rw [step_command hts] at h
  rcases commandInstr_enc_cases v with ⟨hi, _⟩ | ⟨hi, hv⟩ | ⟨hi, hv⟩ | ⟨hi, _⟩ <;> rw [hi] at h
  · cases h; exact .inr (.inr rfl)
  · by_cases hb : s.enc.state = .busy
    · cases (exec_encStart_busy (s := s.advance) hb).symm.trans h
      exact .inr (.inr rfl)
    · exact .inl ⟨by simp [commands_eq hts, hv], hb, h⟩
  · by_cases hde : s.enc.state = .done ∨ s.enc.state = .err
    · cases (exec_encClear_leaves (s := s.advance) hde).symm.trans h
      exact .inr (.inl ⟨by simp [commands_eq hts, hv], hde, rfl⟩)
    · cases (exec_encClear_ignored (s := s.advance) hde).symm.trans h
      exact .inr (.inr rfl)
  · cases h; exact .inr (.inr rfl)

/-- Everything a step can do to ENC (R31). -/
theorem step_enc_cases {s t : State} (h : step s = .next t) :
    (commands .enc 0x01#8 s = true ∧ s.enc.state ≠ .busy ∧ exec .encStart s.advance = .next t) ∨
    (commands .enc 0x02#8 s = true ∧ (s.enc.state = .done ∨ s.enc.state = .err) ∧ t = leave .enc s.advance) ∨
    (resetsNext s = true ∧ t = hostReset s.advance) ∨
    (fetch s = .word (.esel (esel s)) ∧ exec (decodeEsel (esel s)) s.advance = .next t) ∨
    (fetch s ≠ .word (.esel (esel s)) ∧ ∀ n, WritesNoneBelow .pixmem n s → LeavesEncFrame n s t) := by
  by_cases hf : fetch s = .word (.esel (esel s))
  · exact .inr (.inr (.inr (.inl ⟨hf, (step_of_fetch_esel hf).symm.trans h⟩)))
  rcases step_cases s with ⟨u, v, rest, hts, hs⟩ | ⟨op, rest, hts, hop, hs⟩ | ⟨hturn, hb, _⟩ | ⟨_, _, hs⟩ | hs
  · cases u with
    | enc =>
      obtain hstart | hclear | rfl := step_encCommand_cases hts h
      · exact .inl hstart
      · exact .inr (.inl hclear)
      · exact .inr (.inr (.inr (.inr ⟨hf, fun _ _ => .of_enc_eq rfl rfl rfl⟩)))
    | dec => exact .inr (.inr (.inr (.inr ⟨hf, fun _ _ => leavesEncFrame_of_exec_dec (isEncOp_commandInstr_dec v) (hs ▸ h)⟩)))
  · rw [hs] at h
    by_cases hreset : op = .reset
    · subst hreset
      exact .inr (.inr (.inl ⟨by simp [resetsNext, hts], by cases h; rfl⟩))
    · refine .inr (.inr (.inr (.inr ⟨hf, fun n hw => ?_⟩)))
      obtain ⟨hp, hr, he, hpix⟩ := hostAccess_leavesEnc (n := n) h hreset (fun i v hop => hw i v rest (by rw [hts, hop]))
      exact ⟨hp, hr, he, hpix⟩
  · exact absurd (fetch_enc hturn hb) hf
  · exact .inr (.inr (.inr (.inr ⟨hf, fun _ _ => leavesEncFrame_of_exec_dec (isEncOp_decodeDsel _) (hs ▸ h)⟩)))
  · rw [hs] at h
    cases h
    exact .inr (.inr (.inr (.inr ⟨hf, fun _ _ => .of_enc_eq rfl rfl rfl⟩)))

/-- What a command at `DEC_CMD` can do: a START or CLEAR is accepted, or nothing changes (R160 to R163). -/
theorem step_decCommand_cases {s t : State} {v : Nat} {rest : List Turn} (hts : s.turns = .host (.regWrite .dec 0 v) :: rest)
    (h : step s = .next t) :
    (commands .dec 0x01#8 s = true ∧ s.dec.state ≠ .busy ∧ exec .decStart s.advance = .next t) ∨
    (commands .dec 0x02#8 s = true ∧ (s.dec.state = .done ∨ s.dec.state = .err) ∧ t = leave .dec s.advance) ∨
    t = s.advance := by
  rw [step_command hts] at h
  rcases commandInstr_dec_cases v with ⟨hi, _⟩ | ⟨hi, hv⟩ | ⟨hi, hv⟩ | ⟨hi, _⟩ <;> rw [hi] at h
  · cases h; exact .inr (.inr rfl)
  · by_cases hb : s.dec.state = .busy
    · cases (exec_decStart_busy (s := s.advance) hb).symm.trans h
      exact .inr (.inr rfl)
    · exact .inl ⟨by simp [commands_eq hts, hv], hb, h⟩
  · by_cases hde : s.dec.state = .done ∨ s.dec.state = .err
    · cases (exec_decClear_leaves (s := s.advance) hde).symm.trans h
      exact .inr (.inl ⟨by simp [commands_eq hts, hv], hde, rfl⟩)
    · cases (exec_decClear_ignored (s := s.advance) hde).symm.trans h
      exact .inr (.inr rfl)
  · cases h; exact .inr (.inr rfl)

/-- Everything a step can do to DEC (R43). -/
theorem step_dec_cases {s t : State} (h : step s = .next t) :
    (commands .dec 0x01#8 s = true ∧ s.dec.state ≠ .busy ∧ exec .decStart s.advance = .next t) ∨
    (commands .dec 0x02#8 s = true ∧ (s.dec.state = .done ∨ s.dec.state = .err) ∧ t = leave .dec s.advance) ∨
    (resetsNext s = true ∧ t = hostReset s.advance) ∨
    (fetch s = .word (.dsel (dsel s)) ∧ exec (decodeDsel (dsel s)) s.advance = .next t) ∨
    (fetch s ≠ .word (.dsel (dsel s)) ∧ ∀ n, WritesNoneBelow .drun n s → LeavesDecFrame n s t) := by
  by_cases hf : fetch s = .word (.dsel (dsel s))
  · exact .inr (.inr (.inr (.inl ⟨hf, (step_of_fetch_dsel hf).symm.trans h⟩)))
  rcases step_cases s with ⟨u, v, rest, hts, hs⟩ | ⟨op, rest, hts, hop, hs⟩ | ⟨_, _, hs⟩ | ⟨hturn, hb, _⟩ | hs
  · cases u with
    | enc => exact .inr (.inr (.inr (.inr ⟨hf, fun _ _ => leavesDecFrame_of_exec_enc (isEncOp_commandInstr_enc v) (hs ▸ h)⟩)))
    | dec =>
      obtain hstart | hclear | rfl := step_decCommand_cases hts h
      · exact .inl hstart
      · exact .inr (.inl hclear)
      · exact .inr (.inr (.inr (.inr ⟨hf, fun _ _ => .of_dec_eq rfl rfl rfl⟩)))
  · rw [hs] at h
    by_cases hreset : op = .reset
    · subst hreset
      exact .inr (.inr (.inl ⟨by simp [resetsNext, hts], by cases h; rfl⟩))
    · refine .inr (.inr (.inr (.inr ⟨hf, fun n hw => ?_⟩)))
      obtain ⟨hp, hr, hd, hdrun⟩ := hostAccess_leavesDec (n := n) h hreset (fun i v hop => hw i v rest (by rw [hts, hop]))
      exact ⟨hp, hr, hd, hdrun⟩
  · exact .inr (.inr (.inr (.inr ⟨hf, fun _ _ => leavesDecFrame_of_exec_enc (isEncOp_decodeEsel _) (hs ▸ h)⟩)))
  · exact absurd (fetch_dec hturn hb) hf
  · rw [hs] at h
    cases h
    exact .inr (.inr (.inr (.inr ⟨hf, fun _ _ => .of_dec_eq rfl rfl rfl⟩)))

/-! ### BUSY units, and units at rest -/

/-- Short of a Reset, a BUSY encoder takes its own step or is left alone: it ignores commands (R131, R132). -/
theorem step_busy_enc {s t : State} (h : step s = .next t) (hb : s.enc.state = .busy) (hreset : resetsNext s = false) :
    (fetch s = .word (.esel (esel s)) ∧ exec (decodeEsel (esel s)) s.advance = .next t) ∨
    (fetch s ≠ .word (.esel (esel s)) ∧ ∀ n, WritesNoneBelow .pixmem n s → LeavesEncFrame n s t) := by
  obtain ⟨_, hnb, _⟩ | ⟨_, hde, _⟩ | ⟨hr, _⟩ | hown | hleft := step_enc_cases h
  · exact absurd hb hnb
  · simp [hb] at hde
  · simp [hreset] at hr
  · exact .inl hown
  · exact .inr hleft

/-- Short of a Reset, a BUSY decoder takes its own step or is left alone: it ignores commands (R161, R162). -/
theorem step_busy_dec {s t : State} (h : step s = .next t) (hb : s.dec.state = .busy) (hreset : resetsNext s = false) :
    (fetch s = .word (.dsel (dsel s)) ∧ exec (decodeDsel (dsel s)) s.advance = .next t) ∨
    (fetch s ≠ .word (.dsel (dsel s)) ∧ ∀ n, WritesNoneBelow .drun n s → LeavesDecFrame n s t) := by
  obtain ⟨_, hnb, _⟩ | ⟨_, hde, _⟩ | ⟨hr, _⟩ | hown | hleft := step_dec_cases h
  · exact absurd hb hnb
  · simp [hb] at hde
  · simp [hreset] at hr
  · exact .inl hown
  · exact .inr hleft

/-- An encoder at rest is left alone short of a START, a CLEAR and a Reset (R29, R230). -/
theorem step_resting_enc {s t : State} (h : step s = .next t) (hb : s.enc.state ≠ .busy) (hstart : commands .enc 0x01#8 s = false)
    (hclear : commands .enc 0x02#8 s = false) (hreset : resetsNext s = false) : LeavesEncFrame 0 s t := by
  obtain ⟨hc, _⟩ | ⟨hc, _⟩ | ⟨hr, _⟩ | ⟨hf, _⟩ | ⟨_, hleft⟩ := step_enc_cases h
  · simp [hstart] at hc
  · simp [hclear] at hc
  · simp [hreset] at hr
  · exact absurd (busy_of_fetch_esel hf) hb
  · exact hleft 0 fun _ _ _ _ => Nat.zero_le _

/-- A decoder at rest is left alone short of a START, a CLEAR and a Reset (R29, R230). -/
theorem step_resting_dec {s t : State} (h : step s = .next t) (hb : s.dec.state ≠ .busy) (hstart : commands .dec 0x01#8 s = false)
    (hclear : commands .dec 0x02#8 s = false) (hreset : resetsNext s = false) : LeavesDecFrame 0 s t := by
  obtain ⟨hc, _⟩ | ⟨hc, _⟩ | ⟨hr, _⟩ | ⟨hf, _⟩ | ⟨_, hleft⟩ := step_dec_cases h
  · simp [hstart] at hc
  · simp [hclear] at hc
  · simp [hreset] at hr
  · exact absurd (busy_of_fetch_dsel hf) hb
  · exact hleft 0 fun _ _ _ _ => Nat.zero_le _

/-! ### Commands and Resets, by their outcome -/

/-- An accepted `ENC.START` ends in BUSY or faults with its own code (R131). -/
theorem exec_encStart_outcome {s t : State} (hb : s.enc.state ≠ .busy) (h : exec .encStart s = .next t) :
    t.enc.state = .busy ∨ (t.enc.state = .err ∧ t.enc.err = .emptyInput) := by
  by_cases hc : s.enc.cfgWidth * s.enc.cfgHeight = 0
  · rw [exec_encStart_empty hb hc] at h
    cases h; exact .inr ⟨rfl, rfl⟩
  · rw [exec_encStart_begins hb hc] at h
    cases h; exact .inl rfl

/-- An accepted `DEC.START` ends in BUSY or faults with its own code (R161). -/
theorem exec_decStart_outcome {s t : State} (hb : s.dec.state ≠ .busy) (h : exec .decStart s = .next t) :
    t.dec.state = .busy ∨ (t.dec.state = .err ∧ t.dec.err = .malformedArtifact) := by
  by_cases hc : s.dec.cfgWidth * s.dec.cfgHeight = 0
  · rw [exec_decStart_empty hb hc] at h
    cases h; exact .inr ⟨rfl, rfl⟩
  · rw [exec_decStart_begins hb hc] at h
    cases h; exact .inl rfl

/-- A CLEAR or a Reset takes an encoder in ERR to IDLE (R132, R260). -/
theorem step_enc_err_to_idle {s t : State} (h : step s = .next t) (herr : s.enc.state = .err)
    (hc : commands .enc 0x02#8 s = true ∨ resetsNext s = true) : t.enc.state = .idle ∧ t.enc.err = .none := by
  rcases hc with hc | hc
  · rw [step_of_commands_enc hc] at h
    cases (exec_encClear_leaves (s := s.advance) (.inr herr)).symm.trans h
    exact ⟨rfl, rfl⟩
  · rw [step_of_resetsNext hc] at h
    cases h; exact ⟨rfl, rfl⟩

/-- A CLEAR or a Reset takes a decoder in ERR to IDLE (R162, R260). -/
theorem step_dec_err_to_idle {s t : State} (h : step s = .next t) (herr : s.dec.state = .err)
    (hc : commands .dec 0x02#8 s = true ∨ resetsNext s = true) : t.dec.state = .idle ∧ t.dec.err = .none ∧ t.dec.info = 0 := by
  rcases hc with hc | hc
  · rw [step_of_commands_dec hc] at h
    cases (exec_decClear_leaves (s := s.advance) (.inr herr)).symm.trans h
    exact ⟨rfl, rfl, rfl⟩
  · rw [step_of_resetsNext hc] at h
    cases h; exact ⟨rfl, rfl, rfl⟩

/-! ### The selected steps, by their outcome -/

/-- The step map of ENC gives no command (R109). -/
theorem decodeEsel_not_command (v : BitVec 3) : decodeEsel v ≠ .encStart ∧ decodeEsel v ≠ .encClear := by revert v; decide

theorem decodeDsel_not_start (v : BitVec 1) : decodeDsel v ≠ .decStart := by revert v; decide

/-- The selected step of ENC changes its state only as `E.FLUSH`, to DONE (R31). -/
theorem exec_decodeEsel_state {v : BitVec 3} {s t : State} (h : exec (decodeEsel v) s = .next t) :
    t.enc.state = s.enc.state ∨ (decodeEsel v = .eFlush ∧ t.enc.state = .done) := by
  by_cases hflush : decodeEsel v = .eFlush
  · rw [hflush] at h
    obtain ⟨_, _, _, _, rfl⟩ := execEFlush_next h
    exact .inr ⟨hflush, rfl⟩
  · obtain ⟨_, _, _, _, _, hstate⟩ := exec_enc_registers (isEncOp_decodeEsel v) h
    obtain ⟨hns, hnc⟩ := decodeEsel_not_command v
    exact .inl (hstate (by simp [hns, hnc, hflush]))

/-- The selected step of DEC changes its state only as a `D.RUN` that faults or as `D.FINISH` (R43). -/
theorem exec_decodeDsel_state {v : BitVec 1} {s t : State} (h : exec (decodeDsel v) s = .next t) :
    t.dec.state = s.dec.state ∨ (decodeDsel v = .dRun ∧ t.dec.state = .err) ∨
      (decodeDsel v = .dFinish ∧ (t.dec.state = .done ∨ t.dec.state = .err)) := by
  unfold decodeDsel at h ⊢
  split at h
  · next hv =>
    rw [if_pos hv]
    obtain ⟨_, rfl⟩ := execDRun_next h
    rcases interpretRun_cases (runLength (fetchedRunWord s)) (runValue (fetchedRunWord s)) s with
      ⟨_, ht⟩ | ⟨_, _, ht⟩ | ⟨_, _, ht⟩ <;> rw [ht]
    · exact .inr (.inl ⟨rfl, rfl⟩)
    · exact .inr (.inl ⟨rfl, rfl⟩)
    · exact .inl rfl
  · next hv =>
    rw [if_neg hv]
    obtain ⟨_, _, ⟨_, rfl⟩ | ⟨_, rfl⟩⟩ := execDFinish_next h
    · exact .inr (.inr ⟨rfl, .inl rfl⟩)
    · exact .inr (.inr ⟨rfl, .inr rfl⟩)

/-! ### The obligations -/

/-- Settles O25: a unit in ERR is at rest; CLEAR, Reset and START have their own outcomes. -/
theorem errIsLeftOnlyByCommandOrReset : Obligations.ErrIsLeftOnlyByCommandOrReset := by
  unfold Obligations.ErrIsLeftOnlyByCommandOrReset
  intro s t h
  refine ⟨fun herr => ?enc, fun herr => ?dec⟩
  case enc =>
    have hb : s.enc.state ≠ .busy := by rw [herr]; decide
    exact ⟨fun hs hc hr => (step_resting_enc h hb hs hc hr).enc, step_enc_err_to_idle h herr,
      fun hs => exec_encStart_outcome (s := s.advance) hb ((step_of_commands_enc hs).symm.trans h)⟩
  case dec =>
    have hb : s.dec.state ≠ .busy := by rw [herr]; decide
    exact ⟨fun hs hc hr => (step_resting_dec h hb hs hc hr).dec, step_dec_err_to_idle h herr,
      fun hs => exec_decStart_outcome (s := s.advance) hb ((step_of_commands_dec hs).symm.trans h)⟩

/-- Settles O42: the unit's own step is no START, and every other step leaves the latches. -/
theorem latchesAreConstantDuringAFrame : Obligations.LatchesAreConstantDuringAFrame := by
  unfold Obligations.LatchesAreConstantDuringAFrame
  intro s t h hreset
  refine ⟨fun hb => ?enc, fun hb => ?dec⟩
  case enc =>
    obtain ⟨_, hown⟩ | ⟨_, hleft⟩ := step_busy_enc h hb hreset
    · obtain ⟨hlatches, _⟩ := exec_enc_registers (isEncOp_decodeEsel _) hown
      exact hlatches (decodeEsel_not_command _).1
    · rw [(hleft 0 fun _ _ _ _ => Nat.zero_le _).enc]
      exact ⟨rfl, rfl, rfl⟩
  case dec =>
    obtain ⟨_, hown⟩ | ⟨_, hleft⟩ := step_busy_dec h hb hreset
    · obtain ⟨hlatches, _⟩ := exec_dec_registers (isEncOp_decodeDsel _) hown
      exact hlatches (decodeDsel_not_start _)
    · rw [(hleft 0 fun _ _ _ _ => Nat.zero_le _).dec]
      exact ⟨rfl, rfl, rfl, rfl⟩

/-- Settles O43: every other step runs an operation, and no operation writes an input. -/
theorem unitsNeverWriteTheirInputs : Obligations.UnitsNeverWriteTheirInputs := by
  unfold Obligations.UnitsNeverWriteTheirInputs
  intro s t h hhost
  have hexec : ∀ i, exec i s.advance = .next t →
      t.enc.pixmem = s.enc.pixmem ∧ t.enc.cfgWidth = s.enc.cfgWidth ∧ t.enc.cfgHeight = s.enc.cfgHeight ∧
      t.dec.drun = s.dec.drun ∧ t.dec.cfgWidth = s.dec.cfgWidth ∧ t.dec.cfgHeight = s.dec.cfgHeight ∧
      t.dec.cfgNruns = s.dec.cfgNruns := fun i hi => by
    cases hu : isEncOp i with
    | true =>
      obtain ⟨hpix, hw, hh⟩ := exec_enc_inputs hu hi
      have hdec : t.dec = s.dec := by rw [exec_enc_keeps hu hi]; rfl
      exact ⟨hpix, hw, hh, by rw [hdec], by rw [hdec], by rw [hdec], by rw [hdec]⟩
    | false =>
      obtain ⟨hdrun, hw, hh, hn⟩ := exec_dec_inputs hu hi
      have henc : t.enc = s.enc := by rw [exec_dec_keeps hu hi]; rfl
      exact ⟨by rw [henc], by rw [henc], by rw [henc], hdrun, hw, hh, hn⟩
  rcases step_cases s with ⟨_, _, _, _, hs⟩ | ⟨op, rest, hts, hop, _⟩ | ⟨_, _, hs⟩ | ⟨_, _, hs⟩ | hs
  · exact hexec _ (hs.symm.trans h)
  · obtain ⟨u, v, rfl⟩ := hhost op rest hts
    exact absurd rfl (hop u v)
  · exact hexec _ (hs.symm.trans h)
  · exact hexec _ (hs.symm.trans h)
  · cases hs.symm.trans h
    exact ⟨rfl, rfl, rfl, rfl, rfl, rfl, rfl⟩

/-- Settles O44: of what a step can do to ENC, an accepted START or CLEAR, `E.FLUSH` and a Reset change its state. -/
theorem encStateTransitions : Obligations.EncStateTransitions := by
  unfold Obligations.EncStateTransitions
  refine ⟨⟨rfl, rfl, rfl, rfl⟩, fun s t h => ?_⟩
  obtain ⟨hc, hb, hstart⟩ | ⟨hc, hde, rfl⟩ | ⟨hr, rfl⟩ | ⟨hf, hown⟩ | ⟨_, hleft⟩ := step_enc_cases h
  · exact .inr (.inl ⟨hc, hb, (exec_encStart_outcome (s := s.advance) hb hstart).imp_right And.left⟩)
  · exact .inr (.inr (.inr (.inl ⟨hc, hde, rfl⟩)))
  · exact .inr (.inr (.inr (.inr ⟨hr, rfl⟩)))
  · obtain hsame | ⟨hflush, hdone⟩ := exec_decodeEsel_state hown
    · exact .inl hsame
    · exact .inr (.inr (.inl ⟨hf, hflush, busy_of_fetch_esel hf, hdone⟩))
  · exact .inl (by rw [(hleft 0 fun _ _ _ _ => Nat.zero_le _).enc])

/-- Settles O45: of what a step can do to DEC, an accepted START or CLEAR, a fault of `D.RUN`, `D.FINISH` and a Reset change its
state. -/
theorem decStateTransitions : Obligations.DecStateTransitions := by
  unfold Obligations.DecStateTransitions
  intro s t h
  obtain ⟨hc, hb, hstart⟩ | ⟨hc, hde, rfl⟩ | ⟨hr, rfl⟩ | ⟨hf, hown⟩ | ⟨_, hleft⟩ := step_dec_cases h
  · exact .inr (.inl ⟨hc, hb, (exec_decStart_outcome (s := s.advance) hb hstart).imp_right And.left⟩)
  · exact .inr (.inr (.inr (.inr (.inl ⟨hc, hde, rfl⟩))))
  · exact .inr (.inr (.inr (.inr (.inr ⟨hr, rfl⟩))))
  · have hb : s.dec.state = .busy := busy_of_fetch_dsel hf
    obtain hsame | ⟨hrun, herr⟩ | ⟨hfinish, hend⟩ := exec_decodeDsel_state hown
    · exact .inl hsame
    · exact .inr (.inr (.inl ⟨hf, hrun, hb, herr⟩))
    · exact .inr (.inr (.inr (.inl ⟨hf, hfinish, hb, hend⟩)))
  · exact .inl (by rw [(hleft 0 fun _ _ _ _ => Nat.zero_le _).dec])

/-- What leaves ENC alone leaves the artifact at its output (R28, R29). -/
theorem LeavesEncFrame.artifactOf {n : Nat} {s t : State} (h : LeavesEncFrame n s t) : artifactOf t = artifactOf s := by
  simp only [Machine.artifactOf, closedRuns, h.readErun]
  rw [h.enc]

/-- Settles O46: a unit in DONE is at rest. -/
theorem outputsAreStableInDone : Obligations.OutputsAreStableInDone := by
  unfold Obligations.OutputsAreStableInDone
  intro s t h hreset
  refine ⟨fun hd hs hc => ?enc, fun hd hs hc => ?dec⟩
  case enc =>
    have hleft := step_resting_enc h (by rw [hd]; decide) hs hc hreset
    exact ⟨by rw [hleft.enc]; exact hd, hleft.artifactOf⟩
  case dec =>
    have hleft := step_resting_dec h (by rw [hd]; decide) hs hc hreset
    exact ⟨by rw [hleft.dec]; exact hd, by rw [hleft.dec], by rw [hleft.dec], hleft.readOutmem⟩

end Sys2Proof.Machine
end

section
/-! The steps of a BUSY unit in a state that meets the invariant, and how many a frame takes (40_encoder.md section 4, 41_decoder.md
section 4; R141, R170, R192, R281). -/

namespace Sys2Proof.Machine

/-! ### The selected step, with no register wrapping -/

/-- The step of a BUSY encoder (R134 to R138). -/
theorem exec_esel_cases {s t : State} (hr : EncInRange s.param s.enc) (hc : EncConsistent s.enc) (hb : s.enc.state = .busy)
    (h : exec (decodeEsel (esel s)) s = .next t) :
    (s.enc.idx < s.enc.cap ∧ s.enc.run = none ∧
      t = { s with enc := { s.enc with run := some ⟨scannedPixel s, 1⟩, idx := s.enc.idx + 1 } }) ∨
    (∃ r, s.enc.idx < s.enc.cap ∧ s.enc.run = some r ∧ scannedPixel s = r.value ∧
      t = { s with enc := { s.enc with run := some { r with length := r.length + 1 }, idx := s.enc.idx + 1 } }) ∨
    (∃ r, s.enc.idx < s.enc.cap ∧ s.enc.run = some r ∧ scannedPixel s ≠ r.value ∧
      t = { appendRun r s with enc := { (appendRun r s).enc with run := some ⟨scannedPixel s, 1⟩, idx := s.enc.idx + 1 } }) ∨
    (∃ r, s.enc.idx = s.enc.cap ∧ s.enc.run = some r ∧
      t = { appendRun r s with enc := { (appendRun r s).enc with run := none, state := .done } }) := by
  by_cases hend : s.enc.idx = s.enc.cap
  · cases hrun : s.enc.run with
    | none => exact absurd hend (hc.idx_lt_cap_of_run_none hb hrun).ne
    | some r =>
      rw [decodeEsel_eFlush hend (by simp [hrun]), exec_eFlush hb hend hrun] at h
      cases h
      exact .inr (.inr (.inr ⟨r, hend, rfl, rfl⟩))
  · obtain ⟨hidx, hlt⟩ := hc.inc_idx hr hb hend
    cases hrun : s.enc.run with
    | none =>
      rw [decodeEsel_eOpen hend hrun, exec_eOpen hb hend hrun, hidx] at h
      cases h
      exact .inl ⟨hlt, rfl, rfl⟩
    | some r =>
      by_cases heq : scannedPixel s = r.value
      · obtain ⟨_, hle, _⟩ := hc.opened r hrun
        have hlength : inc s.param r.length = r.length + 1 := inc_eq (by have := hr.cap; omega)
        rw [decodeEsel_eExtend hend hrun heq, exec_eExtend hb hend hrun heq, hidx, hlength] at h
        cases h
        exact .inr (.inl ⟨r, hlt, rfl, heq, rfl⟩)
      · rw [decodeEsel_eClose hend hrun heq, exec_eClose hb hend hrun heq, hidx] at h
        cases h
        exact .inr (.inr (.inl ⟨r, hlt, rfl, heq, rfl⟩))

/-- The step of a BUSY decoder (R164 to R166). -/
theorem exec_dsel_cases {s t : State} (hr : DecInRange s.param s.dec) (hc : DecConsistent s.dec) (hb : s.dec.state = .busy)
    (h : exec (decodeDsel (dsel s)) s = .next t) :
    (s.dec.ridx < s.dec.nruns ∧ runLength (fetchedRunWord s) = 0 ∧ t = raise .dec .malformedArtifact s.dec.ridx s) ∨
    (s.dec.ridx < s.dec.nruns ∧ runLength (fetchedRunWord s) ≠ 0 ∧ s.dec.cap < s.dec.cur + runLength (fetchedRunWord s) ∧
      t = raise .dec .lengthMismatch s.dec.ridx s) ∨
    (s.dec.ridx < s.dec.nruns ∧ runLength (fetchedRunWord s) ≠ 0 ∧ s.dec.cur + runLength (fetchedRunWord s) ≤ s.dec.cap ∧
      inc s.param s.dec.ridx = s.dec.ridx + 1 ∧
      t = fillRun (runLength (fetchedRunWord s)) (runValue (fetchedRunWord s)) s) ∨
    (s.dec.ridx = s.dec.nruns ∧ s.dec.cur = s.dec.cap ∧ t = { s with dec := { s.dec with state := .done } }) ∨
    (s.dec.ridx = s.dec.nruns ∧ s.dec.cur ≠ s.dec.cap ∧ t = raise .dec .lengthMismatch s.dec.nruns s) := by
  obtain ⟨_, hle, _⟩ := hc.frame (.inl hb)
  rw [decodeDsel_dsel] at h
  by_cases hend : s.dec.ridx = s.dec.nruns
  · rw [if_pos hend] at h
    obtain ⟨_, _, ⟨hfull, ht⟩ | ⟨hne, ht⟩⟩ := execDFinish_next h
    · exact .inr (.inr (.inr (.inl ⟨hend, hfull, ht⟩)))
    · exact .inr (.inr (.inr (.inr ⟨hend, hne, ht⟩)))
  · have hlt : s.dec.ridx < s.dec.nruns := Nat.lt_of_le_of_ne hle hend
    have hridx : inc s.param s.dec.ridx = s.dec.ridx + 1 := inc_eq (by have := hr.nruns; omega)
    rw [if_neg hend] at h
    obtain ⟨_, ht⟩ := execDRun_next h
    rcases interpretRun_cases (runLength (fetchedRunWord s)) (runValue (fetchedRunWord s)) s with
      ⟨h0, hi⟩ | ⟨h0, hover, hi⟩ | ⟨h0, hfits, hi⟩ <;> rw [hi] at ht
    · exact .inl ⟨hlt, h0, ht⟩
    · exact .inr (.inl ⟨hlt, h0, hover, ht⟩)
    · exact .inr (.inr (.inl ⟨hlt, h0, hfits, hridx, ht⟩))

/-! ### Steps left -/

theorem encStepsLeft_of_busy {s : State} (hb : s.enc.state = .busy) : encStepsLeft s = s.enc.cap - s.enc.idx + 1 := if_pos hb

theorem encStepsLeft_of_not_busy {s : State} (hb : s.enc.state ≠ .busy) : encStepsLeft s = 0 := if_neg hb

theorem decStepsLeft_of_busy {s : State} (hb : s.dec.state = .busy) : decStepsLeft s = s.dec.nruns - s.dec.ridx + 1 := if_pos hb

theorem decStepsLeft_of_not_busy {s : State} (hb : s.dec.state ≠ .busy) : decStepsLeft s = 0 := if_neg hb

theorem LeavesEncFrame.encStepsLeft {n : Nat} {s t : State} (h : LeavesEncFrame n s t) : encStepsLeft t = encStepsLeft s := by
  rw [Machine.encStepsLeft, h.enc]; rfl

theorem LeavesDecFrame.decStepsLeft {n : Nat} {s t : State} (h : LeavesDecFrame n s t) : decStepsLeft t = decStepsLeft s := by
  rw [Machine.decStepsLeft, h.dec]; rfl

/-- A pixel scanned is a step taken (R141). -/
theorem encStepsLeft_of_scan {s t : State} (hs : s.enc.state = .busy) (ht : t.enc.state = .busy) (hlt : s.enc.idx < s.enc.cap)
    (hcap : t.enc.cap = s.enc.cap) (hidx : t.enc.idx = s.enc.idx + 1) : encStepsLeft s = encStepsLeft t + 1 := by
  rw [encStepsLeft_of_busy hs, encStepsLeft_of_busy ht, hcap, hidx]
  omega

/-- The step of a BUSY encoder is one of the steps left, and it ends in BUSY or DONE (R141). -/
theorem exec_esel_stepsLeft {s t : State} (hr : EncInRange s.param s.enc) (hc : EncConsistent s.enc) (hb : s.enc.state = .busy)
    (h : exec (decodeEsel (esel s)) s = .next t) :
    encStepsLeft s = encStepsLeft t + 1 ∧ (t.enc.state = .busy ∨ t.enc.state = .done) := by
  obtain ⟨hlt, _, rfl⟩ | ⟨r, hlt, _, _, rfl⟩ | ⟨r, hlt, _, _, rfl⟩ | ⟨r, hend, _, rfl⟩ := exec_esel_cases hr hc hb h
  · exact ⟨encStepsLeft_of_scan hb hb hlt rfl rfl, .inl hb⟩
  · exact ⟨encStepsLeft_of_scan hb hb hlt rfl rfl, .inl hb⟩
  · exact ⟨encStepsLeft_of_scan hb hb hlt rfl rfl, .inl hb⟩
  · refine ⟨?_, .inr rfl⟩
    rw [encStepsLeft_of_busy hb, hend, Nat.sub_self, encStepsLeft_of_not_busy (by simp)]

/-- The step of a BUSY decoder: it faults, or it is one of the steps left and ends in BUSY, or, with all runs consumed, in DONE
(R170). -/
theorem exec_dsel_stepsLeft {s t : State} (hr : DecInRange s.param s.dec) (hc : DecConsistent s.dec) (hb : s.dec.state = .busy)
    (h : exec (decodeDsel (dsel s)) s = .next t) :
    t.dec.state = .err ∨ (decStepsLeft s = decStepsLeft t + 1 ∧
      (t.dec.state = .busy ∨ (t.dec.state = .done ∧ s.dec.ridx = s.dec.nruns))) := by
  obtain ⟨_, _, rfl⟩ | ⟨_, _, _, rfl⟩ | ⟨hlt, _, _, hridx, rfl⟩ | ⟨hend, _, rfl⟩ | ⟨_, _, rfl⟩ := exec_dsel_cases hr hc hb h
  · exact .inl rfl
  · exact .inl rfl
  · refine .inr ⟨?_, .inl hb⟩
    rw [decStepsLeft_of_busy hb, decStepsLeft_of_busy (by exact hb), fillRun_dec, hridx, Nat.sub_add_eq,
      Nat.sub_add_cancel (Nat.sub_pos_of_lt hlt)]
  · refine .inr ⟨?_, .inr ⟨rfl, hend⟩⟩
    rw [decStepsLeft_of_busy hb, hend, Nat.sub_self, decStepsLeft_of_not_busy (by simp)]
  · exact .inl rfl

/-! ### The obligations -/

/-- Settles O51: short of a Reset a BUSY encoder takes its own step, one of those left, or is left alone. -/
theorem encStepsCountDownToDone : Obligations.EncStepsCountDownToDone := by
  unfold Obligations.EncStepsCountDownToDone
  intro s t hinv hb hreset h
  obtain ⟨hf, hown⟩ | ⟨hf, hleft⟩ := step_busy_enc h hb hreset
  · obtain ⟨hcount, hstate⟩ := exec_esel_stepsLeft (s := s.advance) hinv.encRange hinv.enc hb hown
    refine ⟨fun _ => hcount, fun hne => absurd hf hne, fun h0 => hstate.resolve_left fun hb' => ?_⟩
    rw [encStepsLeft_of_busy hb'] at h0
    omega
  · have hcount := (hleft 0 fun _ _ _ _ => Nat.zero_le _).encStepsLeft
    refine ⟨fun heq => absurd heq hf, fun _ => hcount, fun h0 => ?_⟩
    rw [hcount, encStepsLeft_of_busy hb] at h0
    omega

/-- Settles O60: short of a Reset a BUSY decoder takes its own step, one of those left unless it faults, or is left alone. -/
theorem decStepsCountDownToTheEnd : Obligations.DecStepsCountDownToTheEnd := by
  unfold Obligations.DecStepsCountDownToTheEnd
  intro s t hinv hb hreset h
  have hpos : 0 < decStepsLeft s := by rw [decStepsLeft_of_busy hb]; omega
  obtain ⟨hf, hown⟩ | ⟨hf, hleft⟩ := step_busy_dec h hb hreset
  · obtain herr | ⟨hcount, hstate⟩ := exec_dsel_stepsLeft (s := s.advance) hinv.decRange hinv.dec hb hown
    · have h0 : decStepsLeft t = 0 := decStepsLeft_of_not_busy (by rw [herr]; decide)
      exact ⟨fun _ => ⟨by omega, fun hne => absurd herr hne⟩, fun hne => absurd hf hne, fun _ => .inr herr,
        fun hd => absurd (herr.symm.trans hd) (by decide)⟩
    · have hcount : decStepsLeft s = decStepsLeft t + 1 := hcount
      refine ⟨fun _ => ⟨by omega, fun _ => hcount⟩, fun hne => absurd hf hne, fun h0 => .inl ?_, fun hd => ⟨hf, ?_⟩⟩
      · obtain hb' | ⟨hd, _⟩ := hstate
        · rw [decStepsLeft_of_busy hb'] at h0
          omega
        · exact hd
      · obtain hb' | ⟨_, hend⟩ := hstate
        · exact absurd (hb'.symm.trans hd) (by decide)
        · exact hend
  · have hleft := hleft 0 fun _ _ _ _ => Nat.zero_le _
    refine ⟨fun heq => absurd heq hf, fun _ => hleft.decStepsLeft, fun h0 => ?_, fun hd => ?_⟩
    · rw [hleft.decStepsLeft] at h0
      omega
    · rw [hleft.dec] at hd
      exact absurd (hb.symm.trans hd) (by decide)

end Sys2Proof.Machine
end

section
/-! The frames of the two units: begun by START, kept by every step of every agent (42_codec_contract.md section 3; R202, R203,
R270). -/

namespace Sys2Proof.Machine

/-! ### The runs ENC has made so far -/

/-- The appended run is one closed run more (R137, R138). -/
theorem closedRuns_appendRun {s : State} (r : OpenRun) (hcount : inc s.param s.enc.nruns = s.enc.nruns + 1) :
    closedRuns (appendRun r s) = closedRuns s ++ [⟨r.length, r.value⟩] := by
  have hold : ∀ k ∈ List.range s.enc.nruns, unpackRun (readErun (appendRun r s) k) = unpackRun (readErun s k) := fun k hk => by
    rw [readErun_appendRun, if_neg (List.mem_range.1 hk).ne]
  have hnew : unpackRun (readErun (appendRun r s) s.enc.nruns) = ⟨r.length, r.value⟩ := by
    rw [readErun_appendRun, if_pos rfl, unpackRun, runLength_pack, runValue_pack]
  rw [closedRuns, appendRun_enc, hcount, List.range_succ, List.map_append, List.map_congr_left hold, List.map_singleton, hnew]
  rfl

theorem openRun_of_some {s : State} {r : OpenRun} (h : s.enc.run = some r) : openRun s = [⟨r.length, r.value⟩] := by
  rw [openRun, h]

theorem openRun_of_none {s : State} (h : s.enc.run = none) : openRun s = [] := by rw [openRun, h]

/-- Closed runs and open run of a BUSY frame are maximal: they expand to the part scanned and are what E.EXTEND, E.CLOSE and E.FLUSH go
on from (R202 (b), (c), (d)). -/
theorem EncFrame.maximalRuns_of_busy {pix : List Byte} {s : State} (hf : EncFrame pix s) (hc : EncConsistent s.enc) :
    MaximalRuns (closedRuns s ++ openRun s) := by
  refine ⟨fun r hr => ?_, hf.maximal⟩
  obtain hr | hr := List.mem_append.1 hr
  · exact hf.positive r hr
  · cases hrun : s.enc.run with
    | none => simp [openRun_of_none hrun] at hr
    | some o =>
      obtain ⟨hpos, _⟩ := hc.opened o hrun
      rw [openRun_of_some hrun, List.mem_singleton] at hr
      rw [hr]; exact hpos

/-! ### The frame of ENC -/

/-- A BUSY frame: the input, and maximal runs that expand to the part scanned. -/
theorem EncFrame.of_busy {pix : List Byte} {s : State} (hb : s.enc.state = .busy) (hsize : pix.length = s.enc.cap)
    (hinput : PixelsAre pix s) (hscanned : expand (closedRuns s ++ openRun s) = pix.take s.enc.idx)
    (hmax : MaximalRuns (closedRuns s ++ openRun s)) : EncFrame pix s where
  size := hsize
  input := fun _ => hinput
  scanned := fun _ => hscanned
  positive := fun r hr => hmax.positive r (List.mem_append_left _ hr)
  maximal := hmax.distinct
  whole := fun hd => absurd (hb.symm.trans hd) (by decide)

/-- A frame that is DONE: maximal runs that expand to all pixels. -/
theorem EncFrame.of_done {pix : List Byte} {s : State} (hd : s.enc.state = .done) (hrun : s.enc.run = none)
    (hsize : pix.length = s.enc.cap) (hwhole : expand (closedRuns s) = pix) (hmax : MaximalRuns (closedRuns s)) : EncFrame pix s where
  size := hsize
  input := fun hb => absurd (hd.symm.trans hb) (by decide)
  scanned := fun hb => absurd (hd.symm.trans hb) (by decide)
  positive := hmax.positive
  maximal := by rw [openRun_of_none hrun, List.append_nil]; exact hmax.distinct
  whole := fun _ => hwhole

/-- A START begins with no run and no pixel scanned (R131). -/
theorem encFrame_begin {pix : List Byte} {s : State} (hsize : pix.length = s.enc.cfgWidth * s.enc.cfgHeight) (hinput : PixelsAre pix s) :
    EncFrame pix (beginEnc (latchEnc s)) :=
  .of_busy rfl hsize hinput rfl ⟨fun r hr => (by cases hr), List.isChain_nil⟩

/-- What leaves the frame alone keeps it. -/
theorem EncFrame.of_leaves {pix : List Byte} {s t : State} (hf : EncFrame pix s) {n : Nat} (hl : LeavesEncFrame n s t)
    (hn : s.enc.state = .busy → pix.length ≤ n) : EncFrame pix t := by
  have hclosed : closedRuns t = closedRuns s := congrArg Artifact.runs hl.artifactOf
  have hopen : openRun t = openRun s := by rw [openRun, hl.enc]; rfl
  refine ⟨?_, fun hb i hi => ?_, fun hb => ?_, ?_, ?_, fun hd => ?_⟩
  · rw [hl.enc]; exact hf.size
  · have hb : s.enc.state = .busy := by rwa [hl.enc] at hb
    rw [hl.pixmem i (Nat.lt_of_lt_of_le hi (hn hb))]
    exact hf.input hb i hi
  · rw [hclosed, hopen, hl.enc]
    rw [hl.enc] at hb
    exact hf.scanned hb
  · rw [hclosed]; exact hf.positive
  · rw [hclosed, hopen]; exact hf.maximal
  · rw [hclosed]
    rw [hl.enc] at hd
    exact hf.whole hd

/-- The scanned pixel is the next one of the frame's. -/
theorem EncFrame.take_succ {pix : List Byte} {s : State} (hf : EncFrame pix s) (hb : s.enc.state = .busy)
    (hlt : s.enc.idx < s.enc.cap) : pix.take (s.enc.idx + 1) = pix.take s.enc.idx ++ [scannedPixel s] := by
  rw [List.take_add_one, hf.input hb _ (by rw [hf.size]; exact hlt)]
  rfl

/-- The selected step keeps the frame: the part scanned grows by the scanned pixel, or the last run is closed (R202). -/
theorem EncFrame.exec_esel {pix : List Byte} {s t : State} (hf : EncFrame pix s) (hr : EncInRange s.param s.enc)
    (hc : EncConsistent s.enc) (hb : s.enc.state = .busy) (h : exec (decodeEsel (esel s)) s = .next t) : EncFrame pix t := by
  have hmax := hf.maximalRuns_of_busy hc
  have hscanned := hf.scanned hb
  obtain ⟨hlt, hrun, rfl⟩ | ⟨r, hlt, hrun, heq, rfl⟩ | ⟨r, hlt, hrun, hne, rfl⟩ | ⟨r, hend, hrun, rfl⟩ :=
    exec_esel_cases hr hc hb h
  · obtain ⟨_, _, _, hnruns⟩ := hc.busy hb
    have hclosed : closedRuns s = [] := by rw [closedRuns, hnruns hrun]; rfl
    rw [hclosed, openRun_of_none hrun] at hscanned
    refine .of_busy hb hf.size (hf.input hb) ?_ ?_
    · show expand (closedRuns s ++ [⟨1, scannedPixel s⟩]) = pix.take (s.enc.idx + 1)
      rw [hclosed, hf.take_succ hb hlt, ← hscanned]; rfl
    · show MaximalRuns (closedRuns s ++ [⟨1, scannedPixel s⟩])
      rw [hclosed]; exact maximalRuns_singleton le_rfl _
  · rw [openRun_of_some hrun] at hscanned hmax
    refine .of_busy hb hf.size (hf.input hb) ?_ hmax.lengthen_last
    show expand (closedRuns s ++ [⟨r.length + 1, r.value⟩]) = pix.take (s.enc.idx + 1)
    rw [hf.take_succ hb hlt, ← hscanned, heq]
    simp [List.replicate_succ']
  · have hclosed := closedRuns_appendRun r (hc.inc_nruns hr hrun)
    rw [openRun_of_some hrun] at hscanned hmax
    refine .of_busy hb hf.size (hf.input hb) ?_ ?_
    · show expand (closedRuns (appendRun r s) ++ [⟨1, scannedPixel s⟩]) = pix.take (s.enc.idx + 1)
      rw [hclosed, expand_append, hscanned, hf.take_succ hb hlt]; rfl
    · show MaximalRuns (closedRuns (appendRun r s) ++ [⟨1, scannedPixel s⟩])
      rw [hclosed]; exact hmax.append_new hne
  · have hclosed := closedRuns_appendRun r (hc.inc_nruns hr hrun)
    rw [openRun_of_some hrun] at hscanned hmax
    refine .of_done rfl rfl hf.size ?_ ?_
    · show expand (closedRuns (appendRun r s)) = pix
      rw [hclosed, hscanned, hend, ← hf.size, List.take_length]
    · show MaximalRuns (closedRuns (appendRun r s))
      rw [hclosed]; exact hmax

/-- A HOST that keeps its duty writes no pixel of a frame in progress (R270). -/
theorem writesNoneBelow_of_enc_duty {s : State} (hb : s.enc.state = .busy) (h : breaksDuty .enc s = false) :
    WritesNoneBelow .pixmem s.enc.cap s := by
  intro i v rest hts
  simpa [breaksDuty, hts, hb] using h

/-- A HOST that keeps its duty writes no run of a frame in progress (R270). -/
theorem writesNoneBelow_of_dec_duty {s : State} (hb : s.dec.state = .busy) (h : breaksDuty .dec s = false) :
    WritesNoneBelow .drun s.dec.nruns s := by
  intro i v rest hts
  simpa [breaksDuty, hts, hb] using h

/-- Short of a Reset and of a write into the input, every step keeps the frame of a BUSY encoder, which ends in DONE. -/
theorem EncFrame.step {pix : List Byte} {s t : State} (hf : EncFrame pix s) (hr : EncInRange s.param s.enc)
    (hc : EncConsistent s.enc) (hb : s.enc.state = .busy) (hwrite : WritesNoneBelow .pixmem s.enc.cap s)
    (hreset : resetsNext s = false) (h : step s = .next t) :
    (t.enc.state = .busy ∨ t.enc.state = .done) ∧ EncFrame pix t := by
  obtain ⟨_, hown⟩ | ⟨_, hleft⟩ := step_busy_enc h hb hreset
  · have hadv : EncFrame pix s.advance := hf.of_leaves (n := pix.length) (.of_enc_eq rfl rfl rfl) fun _ => le_rfl
    exact ⟨(exec_esel_stepsLeft (s := s.advance) hr hc hb hown).2, hadv.exec_esel hr hc hb hown⟩
  · have hl := hleft _ hwrite
    exact ⟨.inl (by rw [hl.enc]; exact hb), hf.of_leaves hl fun _ => hf.size.le⟩

/-! ### The frame of DEC -/

/-- A START begins with no run consumed (R161). -/
theorem decFrame_begin {runs : List Run} {s : State} (hsize : runs.length = s.dec.cfgNruns) (hinput : DrunIs runs s) :
    DecFrame runs (beginDec (latchDec s)) :=
  ⟨hsize, fun _ => hinput, rfl, by simp, fun i hi => by simp at hi⟩

/-- What leaves the frame alone keeps it. -/
theorem DecFrame.of_leaves {runs : List Run} {s t : State} (hf : DecFrame runs s) {n : Nat} (hl : LeavesDecFrame n s t)
    (hn : s.dec.state = .busy → runs.length ≤ n) : DecFrame runs t := by
  refine ⟨?_, fun hb k hk => ?_, ?_, ?_, fun i hi => ?_⟩
  · rw [hl.dec]; exact hf.size
  · have hb : s.dec.state = .busy := by rwa [hl.dec] at hb
    rw [hl.drun k (Nat.lt_of_lt_of_le hk (hn hb))]
    exact hf.input hb k hk
  · rw [hl.dec]; exact hf.cursor
  · rw [hl.dec]; exact hf.positive
  · rw [hl.readOutmem, hl.dec]
    rw [hl.dec] at hi
    exact hf.filled i hi

/-- The fetched run is the next one of the frame's. -/
theorem DecFrame.fetched {runs : List Run} {s : State} (hf : DecFrame runs s) (hb : s.dec.state = .busy)
    (hlt : s.dec.ridx < runs.length) : runs[s.dec.ridx] = unpackRun (fetchedRunWord s) := by
  have hget := hf.input hb _ hlt
  rwa [List.getElem?_eq_getElem hlt, Option.some_inj] at hget

theorem DecFrame.take_succ {runs : List Run} {s : State} (hf : DecFrame runs s) (hb : s.dec.state = .busy)
    (hlt : s.dec.ridx < s.dec.nruns) :
    runs.take (s.dec.ridx + 1) = runs.take s.dec.ridx ++ [unpackRun (fetchedRunWord s)] := by
  have hlt : s.dec.ridx < runs.length := by rw [hf.size]; exact hlt
  rw [List.take_succ_eq_append_getElem hlt, hf.fetched hb hlt]

/-- A run that is not empty, filled in behind the cursor, is one run more of the frame's (R203). -/
theorem DecFrame.fillRun {runs : List Run} {s : State} (hf : DecFrame runs s) (hb : s.dec.state = .busy)
    (hlt : s.dec.ridx < s.dec.nruns) (h0 : runLength (fetchedRunWord s) ≠ 0) (hridx : inc s.param s.dec.ridx = s.dec.ridx + 1) :
    DecFrame runs (fillRun (runLength (fetchedRunWord s)) (runValue (fetchedRunWord s)) s) := by
  have htake := hf.take_succ hb hlt
  have hcur : s.dec.cur = (expand (runs.take s.dec.ridx)).length := by rw [length_expand]; exact hf.cursor
  refine ⟨hf.size, hf.input, ?_, fun r hr => ?_, ?_⟩
  · rw [fillRun_dec, hridx, htake, sumLengths_append, hf.cursor]; rfl
  · rw [fillRun_dec, hridx, htake] at hr
    obtain hr | hr := List.mem_append.1 hr
    · exact hf.positive r hr
    · rw [List.mem_singleton.1 hr]
      exact Nat.one_le_iff_ne_zero.2 h0
  · rw [fillRun_dec, hridx, htake, expand_append, expand_cons, expand_nil, List.append_nil]
    exact hf.filled.fillRun hcur (unpackRun (fetchedRunWord s))

/-- The selected step keeps the frame unless it faults (R203). -/
theorem DecFrame.exec_dsel {runs : List Run} {s t : State} (hf : DecFrame runs s) (hr : DecInRange s.param s.dec)
    (hc : DecConsistent s.dec) (hb : s.dec.state = .busy) (h : exec (decodeDsel (dsel s)) s = .next t)
    (hne : t.dec.state ≠ .err) : DecFrame runs t := by
  obtain ⟨_, _, rfl⟩ | ⟨_, _, _, rfl⟩ | ⟨hlt, h0, _, hridx, rfl⟩ | ⟨_, _, rfl⟩ | ⟨_, _, rfl⟩ := exec_dsel_cases hr hc hb h
  · exact absurd rfl hne
  · exact absurd rfl hne
  · exact hf.fillRun hb hlt h0 hridx
  · exact { hf with input := fun hb => by cases hb }
  · exact absurd rfl hne

/-! ### The obligations -/

/-- Settles O49: a START begins the frame; a BUSY encoder takes a step that keeps it, or is left alone. -/
theorem encFrameIsKeptByEveryStep : Obligations.EncFrameIsKeptByEveryStep := by
  unfold Obligations.EncFrameIsKeptByEveryStep
  refine ⟨fun pix s hb hcap hsize hinput => ?_, fun pix s t hinv hf hb hduty hreset h => ?_⟩
  · exact ⟨_, exec_encStart_begins hb (by omega), rfl, encFrame_begin hsize hinput⟩
  · exact hf.step hinv.encRange hinv.enc hb (writesNoneBelow_of_enc_duty hb hduty) hreset h

/-- Settles O50: a START begins the frame; a BUSY decoder takes a step that keeps it or faults, or is left alone. -/
theorem decFrameIsKeptByEveryStep : Obligations.DecFrameIsKeptByEveryStep := by
  unfold Obligations.DecFrameIsKeptByEveryStep
  refine ⟨fun runs s hb hcap hsize hinput => ?_, fun runs s t hinv hf hb hduty hreset h => ?_⟩
  · exact ⟨_, exec_decStart_begins hb (by omega), rfl, decFrame_begin hsize hinput⟩
  · obtain ⟨_, hown⟩ | ⟨_, hleft⟩ := step_busy_dec h hb hreset
    · have hadv : DecFrame runs s.advance := hf.of_leaves (n := runs.length) (.of_dec_eq rfl rfl rfl) fun _ => le_rfl
      refine ⟨?_, hadv.exec_dsel hinv.decRange hinv.dec hb hown⟩
      obtain herr | ⟨_, hbusy | ⟨hdone, _⟩⟩ := exec_dsel_stepsLeft (s := s.advance) hinv.decRange hinv.dec hb hown
      · exact .inr (.inr herr)
      · exact .inl hbusy
      · exact .inr (.inl hdone)
    · have hl := hleft _ (writesNoneBelow_of_dec_duty hb hduty)
      exact ⟨.inl (by rw [hl.dec]; exact hb), fun _ => hf.of_leaves hl fun _ => hf.size.le⟩

end Sys2Proof.Machine
end

section
/-! The uniqueness of maximal runs, and the reconstructed grid (42_codec_contract.md sections 3 and 4, 20_memory.md section 2; R167,
R200, R209, R210). -/

namespace Sys2Proof.Machine

/-! ### `encode` finds the maximal runs again -/

/-- The rest of a run lengthens the run the loop has open. -/
theorem encodeLoop_replicate (v : Byte) (n m : Nat) (rs : List Run) (ps : List Byte) :
    encodeLoop v n rs (List.replicate m v ++ ps) = encodeLoop v (n + m) rs ps := by
  induction m generalizing n with
  | zero => rfl
  | succ m ih =>
    rw [List.replicate_succ, List.cons_append, encodeLoop_cons_same, ih, Nat.add_assoc, Nat.add_comm 1 m]

/-- From an open run, the pixels of further maximal runs give those runs back, if the first differs from the open one. -/
theorem encodeLoop_expand {rs : List Run} {n : Nat} {v : Byte} (h : MaximalRuns (⟨n, v⟩ :: rs)) (acc : List Run) :
    encodeLoop v n acc (expand rs) = acc ++ ⟨n, v⟩ :: rs := by
  induction rs generalizing n v acc with
  | nil => rfl
  | cons r rs ih =>
    have hne : v ≠ r.value := (List.isChain_cons_cons.1 h.distinct).1
    obtain ⟨m, hm⟩ := Nat.exists_eq_add_of_le (h.tail.positive r List.mem_cons_self)
    rw [expand_cons, hm, Nat.add_comm, List.replicate_succ, List.cons_append, encodeLoop_cons_ne hne.symm, encodeLoop_replicate,
      ← hm, ih h.tail]
    simp

/-- Maximal runs are what `encode` gives for their expansion (R200). -/
theorem encodeRuns_expand {rs : List Run} (h : MaximalRuns rs) : encodeRuns (expand rs) = rs := by
  cases rs with
  | nil => rfl
  | cons r rs =>
    obtain ⟨m, hm⟩ := Nat.exists_eq_add_of_le (h.positive r List.mem_cons_self)
    rw [expand_cons, hm, Nat.add_comm, List.replicate_succ, List.cons_append, encodeRuns_cons, encodeLoop_replicate, ← hm,
      encodeLoop_expand h, List.nil_append]

/-- Runs of length 1 expand to their values. -/
theorem expand_unitRuns (pix : List Byte) : expand (pix.map fun v => ⟨1, v⟩) = pix := by
  induction pix with
  | nil => rfl
  | cons p ps ih => rw [List.map_cons, expand_cons, ih]; rfl

theorem maximalRuns_unitRuns {pix : List Byte} (h : pix.IsChain (fun a b => a ≠ b)) :
    MaximalRuns (pix.map fun v => ⟨1, v⟩) := by
  refine ⟨fun r hr => ?_, (List.isChain_map _).2 h⟩
  obtain ⟨v, _, rfl⟩ := List.mem_map.1 hr
  exact le_rfl

/-! ### The pixels DEC has written -/

/-- In DONE all runs of the frame are consumed, and the buffer holds their expansion (R203 (e)). -/
theorem DecFrame.whole {runs : List Run} {s : State} (hf : DecFrame runs s) (hc : DecConsistent s.dec) (hd : s.dec.state = .done) :
    (expand runs).length = s.dec.cap ∧ OutmemIs (expand runs) s := by
  obtain ⟨hend, hfull⟩ := hc.done hd
  have htake : runs.take s.dec.ridx = runs := by rw [hend, ← hf.size, List.take_length]
  have hcursor := hf.cursor
  have hfilled := hf.filled
  rw [htake] at hcursor hfilled
  exact ⟨by rw [length_expand, ← hcursor, hfull], hfilled⟩

/-- A pixel inside the grid has its index below the number of pixels (R77). -/
theorem gridIndex_lt {w h y x : Nat} (hy : y < h) (hx : x < w) : gridIndex w y x < w * h := by
  calc y * w + x < y * w + w := Nat.add_lt_add_left hx _
    _ = (y + 1) * w := (Nat.succ_mul y w).symm
    _ ≤ h * w := Nat.mul_le_mul_right w hy
    _ = w * h := Nat.mul_comm h w

/-! ### The obligations -/

/-- Settles O55: `encode` gives maximal runs that expand to the pixels, and finds any such runs again from their expansion. -/
theorem encodeGivesTheUniqueMaximalRuns : Obligations.EncodeGivesTheUniqueMaximalRuns := by
  unfold Obligations.EncodeGivesTheUniqueMaximalRuns
  intro pix runs _
  refine ⟨?_, ?_⟩
  · rintro rfl
    obtain ⟨hpos, hdistinct⟩ := maximalRuns_encodeRuns pix
    exact ⟨expand_encodeRuns pix, hpos, hdistinct⟩
  · rintro ⟨rfl, hpos, hdistinct⟩
    exact (encodeRuns_expand ⟨hpos, hdistinct⟩).symm

/-- Settles O57: both are maximal runs, so `encode` gives them for their expansion. -/
theorem uniformIsOneRunAndAlternatingIsUnitRuns : Obligations.UniformIsOneRunAndAlternatingIsUnitRuns := by
  unfold Obligations.UniformIsOneRunAndAlternatingIsUnitRuns
  refine ⟨fun n v hn => ?_, fun pix hchain => ?_⟩
  · have h := encodeRuns_expand (maximalRuns_singleton hn v)
    rwa [expand_cons, expand_nil, List.append_nil] at h
  · have h := encodeRuns_expand (maximalRuns_unitRuns hchain)
    rwa [expand_unitRuns] at h

/-- Settles O59: in DONE the buffer holds the whole expansion, and a pixel of the grid lies inside it. -/
theorem reconstructedGridIsRowMajor : Obligations.ReconstructedGridIsRowMajor := by
  unfold Obligations.ReconstructedGridIsRowMajor
  intro s runs y x hinv hd hf hy hx
  obtain ⟨hlength, hout⟩ := hf.whole hinv.dec hd
  have hlt : y * s.dec.w + x < s.dec.cap := by
    rw [hinv.dec.cap_eq]
    exact gridIndex_lt hy hx
  exact ⟨hlt, hout _ (by rw [hlength]; exact hlt)⟩

end Sys2Proof.Machine
end

section
/-! The encoder computes `encode` and the decoder `decode`, over every schedule that leaves the unit's frame alone (42_codec_contract.md
section 3; R204, R205, R270). -/

namespace Sys2Proof.Machine

/-! ### Runs over quiet turns -/

/-- What every quiet turn takes from `Q` of the turns still to come to `Q` of the rest holds when all of them are taken. -/
theorem run_quiet_turns {quiet : Param → Turn → Bool} {Q : List Turn → State → Prop}
    (hstep : ∀ {turn ts rest s}, s.turns = turn :: rest → quiet s.param turn = true → Q (turn :: ts) s →
      ∃ t, step s = .next t ∧ Q ts t)
    {ts rest : List Turn} {s : State} (hts : s.turns = ts ++ rest) (hq : ∀ turn ∈ ts, quiet s.param turn = true) (h : Q ts s) :
    ∃ t, Host.Core.run core ts.length s = .next t ∧ t.turns = rest ∧ Q [] t := by
  induction ts generalizing s with
  | nil => exact ⟨s, rfl, hts, h⟩
  | cons turn ts ih =>
    obtain ⟨hq, hqs⟩ := List.forall_mem_cons.1 hq
    obtain ⟨u, hu, hQ⟩ := hstep hts hq h
    obtain ⟨hparam, hturns⟩ := step_keeps hu
    obtain ⟨t, hrun, hrest, ht⟩ := ih (by rw [hturns, hts]; rfl) (by rw [hparam]; exact hqs) hQ
    exact ⟨t, run_next core hu hrun, hrest, ht⟩

/-! ### Turns that leave ENC's frame alone -/

/-- What a quiet HOST transaction is (R270). -/
theorem encQuiet_host {p : Param} {n : Nat} {op : HostOp} (h : encQuiet p n (.host op) = true) :
    op.expressible p = true ∧ op ≠ .reset ∧ (∀ i v, op = .memWrite .pixmem i v → n ≤ i) ∧
      (∀ v, op = .regWrite .enc 0 v → v % 256 ≠ 1 ∧ v % 256 ≠ 2) := by
  rcases op with ⟨u, k, v⟩ | ⟨u, k⟩ | ⟨m, i, v⟩ | ⟨m, i⟩ | _
  · rcases u with _ | _ <;> rcases k with _ | k <;> simp_all [encQuiet, HostOp.expressible]
  · simp [HostOp.expressible]
  · cases m <;> simp_all [encQuiet]
  · simp_all [encQuiet]
  · simp [encQuiet] at h

/-- A quiet turn is expressible, no Reset, no START or CLEAR of ENC and no write into the frame's input. -/
theorem encQuiet_next {s : State} {n : Nat} {turn : Turn} {rest : List Turn} (hts : s.turns = turn :: rest)
    (hq : encQuiet s.param n turn = true) :
    inexpressible s = false ∧ resetsNext s = false ∧ commands .enc 0x01#8 s = false ∧ commands .enc 0x02#8 s = false ∧
      WritesNoneBelow .pixmem n s := by
  cases turn with
  | enc => simp [inexpressible, resetsNext, commands, WritesNoneBelow, hts]
  | dec => simp [inexpressible, resetsNext, commands, WritesNoneBelow, hts]
  | host op =>
    obtain ⟨hexpr, hreset, hwrite, hcmd⟩ := encQuiet_host hq
    have hcode : ∀ c : Byte, c.toNat = 1 ∨ c.toNat = 2 → commands .enc c s = false := fun c hc => by
      by_contra h
      obtain ⟨v, rest', hts', rfl⟩ := exists_of_commands (Bool.eq_true_of_not_eq_false h)
      obtain ⟨h1, h2⟩ := hcmd v (by rw [hts] at hts'; cases hts'; rfl)
      rw [BitVec.toNat_ofNat] at hc
      exact hc.elim h1 h2
    refine ⟨by simp [inexpressible, hts, hexpr], ?_, hcode _ (.inl rfl), hcode _ (.inr rfl), fun i v rest' hts' => ?_⟩
    · cases op with
      | reset => exact absurd rfl hreset
      | _ => simp [resetsNext, hts]
    · rw [hts] at hts'
      cases hts'
      exact hwrite i v rfl

/-- Only a turn of ENC hands over a select vector. -/
theorem turn_of_fetch_esel {s : State} {turn : Turn} {rest : List Turn} (hts : s.turns = turn :: rest) {v : BitVec 3}
    (h : fetch s = .word (.esel v)) : turn = .enc := by
  unfold fetch at h
  rw [hts] at h
  rcases turn with ⟨⟨_ | _, _ | _, _⟩ | _ | _ | _ | _⟩ | _ | _
  case enc => rfl
  case dec => simp only [decFetch] at h; split at h <;> cases h
  all_goals cases h

/-! ### ENC on the way through a grid -/

/-- ENC is in a frame on the `w × h` grid `pix`: it is scanning it or is DONE (R202). -/
structure Encoding (w h : Nat) (pix : List Byte) (s : State) : Prop where
  inv : Inv s
  frame : EncFrame pix s
  width : s.enc.w = w
  height : s.enc.h = h
  phase : s.enc.state = .busy ∨ s.enc.state = .done

/-- A quiet turn is answered and keeps the encoding; a turn of ENC takes one of the steps left, or passes when none is. -/
theorem Encoding.step_quiet {w h : Nat} {pix : List Byte} {s : State} (he : Encoding w h pix s) {turn : Turn} {rest : List Turn}
    (hts : s.turns = turn :: rest) (hq : encQuiet s.param (w * h) turn = true) :
    ∃ t, step s = .next t ∧ Encoding w h pix t ∧ encStepsLeft t = encStepsLeft s - [turn].count .enc := by
  obtain ⟨hinv, hframe, hw, hh, hphase⟩ := he
  obtain ⟨hexpr, hreset, hstart, hclear, hwrite⟩ := encQuiet_next hts hq
  obtain ⟨t, ht⟩ := step_answers hinv hexpr
  refine ⟨t, ht, ?_⟩
  have hinv' := step_inv hinv ht
  obtain hb | hd := hphase
  · have hcap : s.enc.cap = w * h := by rw [hinv.enc.cap_eq, hw, hh]
    obtain ⟨hphase', hframe'⟩ := hframe.step hinv.encRange hinv.enc hb (by rw [hcap]; exact hwrite) hreset ht
    obtain ⟨hlatches, _⟩ := latchesAreConstantDuringAFrame s t ht hreset
    obtain ⟨hw', hh', _⟩ := hlatches hb
    obtain ⟨hown, hother, _⟩ := encStepsCountDownToDone s t hinv hb hreset ht
    refine ⟨⟨hinv', hframe', hw'.trans hw, hh'.trans hh, hphase'⟩, ?_⟩
    by_cases hturn : turn = .enc
    · subst hturn
      exact (Nat.sub_eq_of_eq_add (hown (fetch_enc (.inl ⟨rest, hts⟩) hb))).symm
    · rw [hother fun hf => hturn (turn_of_fetch_esel hts hf), List.count_singleton]
      simp [hturn]
  · have hb : s.enc.state ≠ .busy := by rw [hd]; decide
    have hl := step_resting_enc ht hb hstart hclear hreset
    refine ⟨⟨hinv', hframe.of_leaves hl (absurd · hb), ?_, ?_, .inr ?_⟩, ?_⟩
    · rw [hl.enc]; exact hw
    · rw [hl.enc]; exact hh
    · rw [hl.enc]; exact hd
    · rw [hl.encStepsLeft, encStepsLeft_of_not_busy hb, Nat.zero_sub]

/-- Over any list of quiet turns the encoding goes on, each turn of ENC taking one of the steps left (R204, R270). -/
theorem Encoding.run_quiet {w h : Nat} {pix : List Byte} {s : State} (he : Encoding w h pix s) {ts rest : List Turn}
    (hts : s.turns = ts ++ rest) (hq : ∀ turn ∈ ts, encQuiet s.param (w * h) turn = true) :
    ∃ t, Host.Core.run core ts.length s = .next t ∧ t.turns = rest ∧ Encoding w h pix t ∧
      encStepsLeft t = encStepsLeft s - ts.count .enc := by
  obtain ⟨t, hrun, hrest, ht, hcount⟩ :=
    run_quiet_turns (quiet := fun p turn => encQuiet p (w * h) turn)
      (Q := fun ts' u => Encoding w h pix u ∧ encStepsLeft u - ts'.count .enc = encStepsLeft s - ts.count .enc)
      (fun {turn ts' _ u} hu hqu hQ => by
        obtain ⟨he, hcount⟩ := hQ
        obtain ⟨t, ht, he', hleft⟩ := he.step_quiet hu hqu
        refine ⟨t, ht, he', ?_⟩
        rw [hleft, Nat.sub_sub, ← List.count_append, List.singleton_append, hcount])
      hts hq ⟨he, rfl⟩
  exact ⟨t, hrun, hrest, ht, hcount⟩

/-- In DONE the artifact is the one of `encode` (R202, R204): its runs are maximal and expand to the pixels. -/
theorem Encoding.artifactOf_of_done {w h : Nat} {pix : List Byte} {s : State} (he : Encoding w h pix s) (hd : s.enc.state = .done) :
    artifactOf s = ⟨w, h, encodeRuns pix⟩ := by
  have hruns : encodeRuns pix = closedRuns s := by
    rw [← he.frame.whole hd]
    exact encodeRuns_expand (he.frame.maximalRuns he.inv.enc hd)
  rw [artifactOf, he.width, he.height, hruns]

/-- An encoder in ERR stays there with its code over any list of quiet turns (R230). -/
theorem enc_err_run_quiet {n : Nat} {e : ErrCode} {s : State} (hinv : Inv s) (herr : s.enc.state = .err) (hcode : s.enc.err = e)
    {ts rest : List Turn} (hts : s.turns = ts ++ rest) (hq : ∀ turn ∈ ts, encQuiet s.param n turn = true) :
    ∃ t, Host.Core.run core ts.length s = .next t ∧ t.turns = rest ∧ t.enc.state = .err ∧ t.enc.err = e := by
  obtain ⟨t, hrun, hrest, _, ht⟩ :=
    run_quiet_turns (quiet := fun p turn => encQuiet p n turn)
      (Q := fun _ u => Inv u ∧ u.enc.state = .err ∧ u.enc.err = e)
      (fun {turn _ _ u} hu hqu hQ => by
        obtain ⟨hinv, herr, hcode⟩ := hQ
        obtain ⟨hexpr, hreset, hstart, hclear, _⟩ := encQuiet_next hu hqu
        obtain ⟨t, ht⟩ := step_answers hinv hexpr
        have hl := step_resting_enc ht (by rw [herr]; decide) hstart hclear hreset
        exact ⟨t, ht, step_inv hinv ht, by rw [hl.enc]; exact herr, by rw [hl.enc]; exact hcode⟩)
      hts hq ⟨hinv, herr, hcode⟩
  exact ⟨t, hrun, hrest, ht⟩

/-- Turns put before a state's own change nothing of what the invariant speaks of. -/
theorem Inv.withTurns {s : State} (h : Inv s) (ts : List Turn) : Inv (s.withTurns ts) :=
  ⟨h.encRange, h.decRange, h.enc, h.dec⟩

/-! ### The encoder -/

/-- Settles O52: an empty grid faults at START and stays in ERR; any other begins an encoding, which every quiet turn keeps, and whose
turns of ENC use up the `cap + 1` steps. -/
theorem encoderComputesEncode : Obligations.EncoderComputesEncode := by
  unfold Obligations.EncoderComputesEncode
  intro s pix ts hinv hb hsize hpix hq
  have hstart : step (s.withTurns (.host (.regWrite .enc 0 0x01) :: ts)) = exec .encStart (s.withTurns ts) := by
    rw [step_command (withTurns_turns s _), advance_withTurns_cons]; rfl
  by_cases hc : s.enc.cfgWidth * s.enc.cfgHeight = 0
  · have hfirst := hstart.trans (exec_encStart_empty (s := s.withTurns ts) hb hc)
    obtain ⟨t, hrun, hturns, herr⟩ :=
      enc_err_run_quiet (step_inv (hinv.withTurns _) hfirst) rfl rfl (ts := ts) (rest := s.turns) rfl hq
    have hfn : encodeFn s.enc.cfgWidth s.enc.cfgHeight pix = .error .emptyInput := if_pos hc
    refine ⟨t, run_next core hfirst hrun, hturns, ?_⟩
    rw [hfn]
    exact herr
  · have hfirst := hstart.trans (exec_encStart_begins (s := s.withTurns ts) hb hc)
    have hbegin : Encoding s.enc.cfgWidth s.enc.cfgHeight pix (beginEnc (latchEnc (s.withTurns ts))) :=
      ⟨step_inv (hinv.withTurns _) hfirst, encFrame_begin hsize hpix, rfl, rfl, .inl rfl⟩
    obtain ⟨t, hrun, hturns, he, hleft⟩ := hbegin.run_quiet (ts := ts) (rest := s.turns) rfl hq
    have hfn : encodeFn s.enc.cfgWidth s.enc.cfgHeight pix = .ok ⟨_, _, encodeRuns pix⟩ := encodeFn_ok_iff.2 ⟨hc, rfl⟩
    have hleft : encStepsLeft t = s.enc.cfgWidth * s.enc.cfgHeight + 1 - ts.count .enc := hleft
    refine ⟨t, run_next core hfirst hrun, hturns, ?_⟩
    rw [hfn]
    show if ts.count .enc ≤ s.enc.cfgWidth * s.enc.cfgHeight then _ else _
    split
    · next hle =>
      by_contra hnb
      rw [encStepsLeft_of_not_busy hnb] at hleft
      omega
    · next hlt =>
      have hd : t.enc.state = .done := he.phase.resolve_left fun hb => by
        rw [encStepsLeft_of_busy hb] at hleft
        omega
      exact ⟨hd, he.artifactOf_of_done hd⟩

end Sys2Proof.Machine
end

section
/-! DEC on the way to the outcome of `decode`, an error among them (42_codec_contract.md section 3; R201, R205). -/

namespace Sys2Proof.Machine

/-! ### The outcome, and the way to it -/

/-- DEC is BUSY in a frame on the artifact `a`, and what `decode` makes of the runs left, behind the pixels written, is `outcome`
(R201, R203). -/
structure DecodingTo (a : Artifact) (outcome : Except (ErrCode × Nat) (List Byte)) (s : State) : Prop where
  busy : s.dec.state = .busy
  frame : DecFrame a.runs s
  width : s.dec.w = a.width
  height : s.dec.h = a.height
  loop : decodeLoop s.dec.cap s.dec.ridx (expand (a.runs.take s.dec.ridx)) (a.runs.drop s.dec.ridx) = outcome

/-- DEC has ended a frame on the artifact `a` with the outcome of `decode`: ERR with the error and its argument, or DONE with the
pixels (R205). -/
def DecodedTo (a : Artifact) (outcome : Except (ErrCode × Nat) (List Byte)) (s : State) : Prop :=
  match outcome with
  | .error (e, info) => s.dec.state = .err ∧ s.dec.err = e ∧ s.dec.info = info
  | .ok buf => s.dec.state = .done ∧ s.dec.w = a.width ∧ s.dec.h = a.height ∧ buf.length = s.dec.cap ∧ buf = expand a.runs ∧
      OutmemIs buf s

theorem DecodedTo.not_busy {a : Artifact} {outcome : Except (ErrCode × Nat) (List Byte)} {s : State} (h : DecodedTo a outcome s) :
    s.dec.state ≠ .busy := by
  rcases outcome with ⟨e, info⟩ | buf
  · obtain ⟨herr, _⟩ := h
    rw [herr]; decide
  · obtain ⟨hd, _⟩ := h
    rw [hd]; decide

/-- What leaves the frame alone keeps the way to the outcome. -/
theorem DecodingTo.of_leaves {a : Artifact} {outcome : Except (ErrCode × Nat) (List Byte)} {s t : State}
    (h : DecodingTo a outcome s) (hl : LeavesDecFrame a.runs.length s t) : DecodingTo a outcome t where
  busy := by rw [hl.dec]; exact h.busy
  frame := h.frame.of_leaves hl fun _ => le_rfl
  width := by rw [hl.dec]; exact h.width
  height := by rw [hl.dec]; exact h.height
  loop := by rw [hl.dec]; exact h.loop

/-- What leaves a decoder alone keeps the outcome. -/
theorem DecodedTo.of_leaves {a : Artifact} {outcome : Except (ErrCode × Nat) (List Byte)} {s t : State}
    (h : DecodedTo a outcome s) {n : Nat} (hl : LeavesDecFrame n s t) : DecodedTo a outcome t := by
  rcases outcome with ⟨e, info⟩ | buf
  · simp only [DecodedTo] at h ⊢
    rw [hl.dec]
    exact h
  · simp only [DecodedTo, OutmemIs, hl.readOutmem] at h ⊢
    rw [hl.dec]
    exact h

/-! ### The loop of `decode`, run by run -/

theorem decodeLoop_empty_run {cap i : Nat} {buf : List Byte} {r : Run} {rs : List Run} (h0 : r.length = 0) :
    decodeLoop cap i buf (r :: rs) = .error (.malformedArtifact, i) := by
  rw [decodeLoop, if_pos h0]

theorem decodeLoop_overlong {cap i : Nat} {buf : List Byte} {r : Run} {rs : List Run} (h0 : r.length ≠ 0)
    (hover : cap < buf.length + r.length) : decodeLoop cap i buf (r :: rs) = .error (.lengthMismatch, i) := by
  rw [decodeLoop, if_neg h0, if_pos (by omega)]

theorem decodeLoop_fits {cap i : Nat} {buf : List Byte} {r : Run} {rs : List Run} (h0 : r.length ≠ 0)
    (hfits : buf.length + r.length ≤ cap) :
    decodeLoop cap i buf (r :: rs) = decodeLoop cap (i + 1) (buf ++ List.replicate r.length r.value) rs := by
  rw [decodeLoop, if_neg h0, if_neg (by omega)]

/-- The selected step of DEC does what the loop does with the next run, or with the end of the runs (R165, R166, R201). -/
theorem DecodingTo.exec_dsel {a : Artifact} {outcome : Except (ErrCode × Nat) (List Byte)} {s t : State}
    (h : DecodingTo a outcome s) (hr : DecInRange s.param s.dec) (hc : DecConsistent s.dec)
    (hexec : exec (decodeDsel (dsel s)) s = .next t) : DecodingTo a outcome t ∨ DecodedTo a outcome t := by
  obtain ⟨hb, hf, hw, hh, hloop⟩ := h
  have hbuf : (expand (a.runs.take s.dec.ridx)).length = s.dec.cur := by rw [length_expand]; exact hf.cursor.symm
  have hnext : s.dec.ridx < s.dec.nruns →
      a.runs.drop s.dec.ridx = unpackRun (fetchedRunWord s) :: a.runs.drop (s.dec.ridx + 1) := fun hlt => by
    have hlt : s.dec.ridx < a.runs.length := by rw [hf.size]; exact hlt
    rw [List.drop_eq_getElem_cons hlt, hf.fetched hb hlt]
  have hlast : s.dec.ridx = s.dec.nruns → a.runs.drop s.dec.ridx = [] ∧ a.runs.take s.dec.ridx = a.runs := fun hend => by
    rw [hend, ← hf.size, List.drop_length, List.take_length]
    exact ⟨rfl, rfl⟩
  subst hloop
  obtain ⟨hlt, h0, rfl⟩ | ⟨hlt, h0, hover, rfl⟩ | ⟨hlt, h0, hfits, hridx, rfl⟩ | ⟨hend, hfull, rfl⟩ | ⟨hend, hne, rfl⟩ :=
    exec_dsel_cases hr hc hb hexec
  · rw [hnext hlt, decodeLoop_empty_run h0]
    exact .inr ⟨rfl, rfl, rfl⟩
  · rw [hnext hlt, decodeLoop_overlong h0 (by rw [hbuf]; exact hover)]
    exact .inr ⟨rfl, rfl, rfl⟩
  · refine .inl ⟨hb, hf.fillRun hb hlt h0 hridx, hw, hh, ?_⟩
    rw [hnext hlt, decodeLoop_fits h0 (by rw [hbuf]; exact hfits), fillRun_dec, hridx, hf.take_succ hb hlt, expand_append, expand_cons,
      expand_nil, List.append_nil]
  · obtain ⟨hdrop, htake⟩ := hlast hend
    rw [htake] at hbuf
    rw [hdrop, htake, decodeLoop, if_pos (hbuf.trans hfull)]
    have hfilled := hf.filled
    rw [htake] at hfilled
    exact .inr ⟨rfl, hw, hh, hbuf.trans hfull, rfl, hfilled⟩
  · obtain ⟨hdrop, _⟩ := hlast hend
    rw [hdrop, decodeLoop, if_neg (by rw [hbuf]; exact hne), hend]
    exact .inr ⟨rfl, rfl, rfl⟩

/-! ### The whole schedule -/

/-- A quiet turn is answered; a turn of DEC brings a BUSY frame nearer to its end, every other leaves it alone (R170, R270). -/
theorem DecodingTo.step_quiet {a : Artifact} {outcome : Except (ErrCode × Nat) (List Byte)} {s : State} (hinv : Inv s)
    (h : DecodingTo a outcome s) {turn : Turn} {rest : List Turn} (hts : s.turns = turn :: rest)
    (hq : decQuiet s.param a.runs.length turn = true) :
    ∃ t, step s = .next t ∧
      ((DecodingTo a outcome t ∧ decStepsLeft t ≤ decStepsLeft s - [turn].count .dec) ∨ DecodedTo a outcome t) := by
  by_cases hturn : turn = .dec
  · subst hturn
    obtain ⟨t, ht⟩ := exec_decodeDsel_answers (s := s.advance) h.busy
    have hadv : DecodingTo a outcome s.advance := h.of_leaves (.of_dec_eq rfl rfl rfl)
    refine ⟨t, (step_dec (.inl ⟨rest, hts⟩) h.busy).trans ht, ?_⟩
    refine (hadv.exec_dsel hinv.decRange hinv.dec ht).imp_left fun hto => ⟨hto, ?_⟩
    obtain herr | ⟨hleft, _⟩ := exec_dsel_stepsLeft (s := s.advance) hinv.decRange hinv.dec h.busy ht
    · exact absurd (hto.busy.symm.trans herr) (by decide)
    · exact (Nat.sub_eq_of_eq_add (show decStepsLeft s = decStepsLeft t + 1 from hleft)).ge
  · obtain ⟨t, ht, _, hl⟩ := Machine.step_quiet hts hq hturn hinv.enc.notStuck
    refine ⟨t, ht, .inl ⟨h.of_leaves hl, ?_⟩⟩
    rw [hl.decStepsLeft, List.count_singleton]
    simp [hturn]

/-- A decoder at rest keeps its outcome over a quiet turn (R29, R230). -/
theorem DecodedTo.step_quiet {a : Artifact} {outcome : Except (ErrCode × Nat) (List Byte)} {s : State} (hinv : Inv s)
    (h : DecodedTo a outcome s) {turn : Turn} {rest : List Turn} (hts : s.turns = turn :: rest)
    (hq : decQuiet s.param a.runs.length turn = true) : ∃ t, step s = .next t ∧ DecodedTo a outcome t := by
  by_cases hturn : turn = .dec
  · subst hturn
    exact ⟨s.advance, step_dec_pass hts h.not_busy, h.of_leaves (n := 0) (.of_dec_eq rfl rfl rfl)⟩
  · obtain ⟨t, ht, _, hl⟩ := Machine.step_quiet hts hq hturn hinv.enc.notStuck
    exact ⟨t, ht, h.of_leaves hl⟩

/-- Over quiet turns among which DEC has all the turns it may need, the frame comes to its outcome. -/
theorem DecodingTo.run_quiet {a : Artifact} {outcome : Except (ErrCode × Nat) (List Byte)} {s : State} (hinv : Inv s)
    (h : DecodingTo a outcome s ∨ DecodedTo a outcome s) {ts rest : List Turn} (hcount : decStepsLeft s ≤ ts.count .dec)
    (hts : s.turns = ts ++ rest) (hq : ∀ turn ∈ ts, decQuiet s.param a.runs.length turn = true) :
    ∃ t, Host.Core.run core ts.length s = .next t ∧ t.turns = rest ∧ DecodedTo a outcome t := by
  obtain ⟨t, hrun, hrest, _, hto⟩ :=
    run_quiet_turns (quiet := fun p turn => decQuiet p a.runs.length turn)
      (Q := fun ts' u => Inv u ∧ ((DecodingTo a outcome u ∧ decStepsLeft u ≤ ts'.count .dec) ∨ DecodedTo a outcome u))
      (fun {turn ts' _ u} hu hqu hQ => by
        obtain ⟨hinv, ⟨hto, hleft⟩ | hdone⟩ := hQ
        · obtain ⟨t, ht, hnext⟩ := hto.step_quiet hinv hu hqu
          refine ⟨t, ht, step_inv hinv ht, hnext.imp_left fun ⟨hto', hleft'⟩ => ⟨hto', ?_⟩⟩
          have hsplit : (turn :: ts').count .dec = [turn].count .dec + ts'.count .dec := by
            rw [← List.count_append, List.singleton_append]
          omega
        · obtain ⟨t, ht, hdone'⟩ := hdone.step_quiet hinv hu hqu
          exact ⟨t, ht, step_inv hinv ht, .inr hdone'⟩)
      hts hq ⟨hinv, h.imp_left fun hto => ⟨hto, hcount⟩⟩
  refine ⟨t, hrun, hrest, hto.resolve_left ?_⟩
  rintro ⟨hto, hleft⟩
  rw [decStepsLeft_of_busy hto.busy] at hleft
  exact absurd hleft (Nat.not_succ_le_zero _)

/-- What a START makes of a decoder that holds the runs: a fault on an empty grid, or the beginning of the loop of `decode`
(R161, R201). -/
theorem exec_decStart_decodes {a : Artifact} {s : State} (hb : s.dec.state ≠ .busy) (hn : a.runs.length = s.dec.cfgNruns)
    (hruns : DrunIs a.runs s) (hw : s.dec.cfgWidth = a.width) (hh : s.dec.cfgHeight = a.height) :
    ∃ t, exec .decStart s = .next t ∧
      (DecodingTo a (decodeFn a.width a.height a.runs) t ∨ DecodedTo a (decodeFn a.width a.height a.runs) t) ∧
      decStepsLeft t ≤ a.runs.length + 1 := by
  rw [← hw, ← hh, decodeFn]
  by_cases hc : s.dec.cfgWidth * s.dec.cfgHeight = 0
  · rw [if_pos hc]
    refine ⟨_, exec_decStart_empty hb hc, .inr ⟨rfl, rfl, rfl⟩, ?_⟩
    rw [decStepsLeft_of_not_busy (by simp)]
    exact Nat.zero_le _
  · rw [if_neg hc]
    refine ⟨_, exec_decStart_begins hb hc, .inl ⟨rfl, decFrame_begin hn hruns, hw, hh, rfl⟩, ?_⟩
    rw [decStepsLeft_of_busy rfl, hn]
    exact le_rfl

/-! ### The decoder -/

/-- Settles O53: a START begins the loop of `decode` or ends with its error at once, and each turn of DEC takes the loop one run
further, until it has ended. -/
theorem decoderComputesDecode : Obligations.DecoderComputesDecode := by
  unfold Obligations.DecoderComputesDecode
  intro s runs ts hinv hb hn hruns hq hcount
  obtain ⟨u, hu, hto, hleft⟩ := exec_decStart_decodes (a := ⟨s.dec.cfgWidth, s.dec.cfgHeight, runs⟩) (s := s.withTurns ts)
    hb hn hruns rfl rfl
  have hfirst : step (s.withTurns (.host (.regWrite .dec 0 0x01) :: ts)) = .next u := by
    rw [step_command (withTurns_turns s _), advance_withTurns_cons, ← hu]; rfl
  obtain ⟨hparam, hturns⟩ := step_keeps hfirst
  obtain ⟨t, hrun, hrest, ht⟩ := DecodingTo.run_quiet (step_inv (hinv.withTurns _) hfirst) hto (hleft.trans hcount)
    (rest := s.turns) hturns (by rw [hparam]; exact hq)
  refine ⟨t, run_next core hfirst hrun, hrest, ?_⟩
  cases hfn : decodeFn s.dec.cfgWidth s.dec.cfgHeight runs with
  | error err => rw [hfn] at ht; exact ht
  | ok buf => rw [hfn] at ht; exact ht

end Sys2Proof.Machine
end
